-- ==== Sys2Proof/Word.lean ====
section
/-! DEFINITION. The word types of the 80386 (R8): a byte, a 16-bit half (a selector, IP, SP) and a 32-bit
word (EIP, a general register, a linear or physical address). Bits are numbered from 0 at the least
significant end (R9). -/

namespace Sys2Proof

/-- A byte is 8 bits (R37). -/
abbrev Byte := BitVec 8

/-- A 16-bit value: a selector, IP, SP, a 16-bit register (R8). -/
abbrev Half := BitVec 16

/-- A 32-bit value: EIP, a general register, an offset, a linear or physical address (R8). -/
abbrev Word := BitVec 32

end Sys2Proof
end

