-- ==== Sys2Proof/Syntax.lean ====
section
/-! DEFINITION. The syntax: one constructor of `Instr` per row of spec/opcode_table.json (R81), with its
operands and the bytes that may stand before its opcode (R92). -/

namespace Sys2Proof

/-- An operand-, address- or stack-size attribute: 16 or 32 bits (R5, R6, R8). -/
inductive Size where
  | w16
  | w32
  deriving DecidableEq, Repr

/-- The eight general registers, in the order the ModR/M byte numbers them (R21). -/
inductive Reg where
  | eax | ecx | edx | ebx | esp | ebp | esi | edi
  deriving DecidableEq, Repr

/-- The six segment registers (R23). -/
inductive SegName where
  | es | cs | ss | ds | fs | gs
  deriving DecidableEq, Repr

/-- The bytes before the opcode that a CALL may carry: 66H, 67H and at most one segment override
(R88, R92). Their order does not matter. -/
structure Prefixes where
  opSize   : Bool
  addrSize : Bool
  seg      : Option SegName
  deriving DecidableEq, Repr

/-- A displacement of a 16-bit effective address: none, `disp8` or `disp16` (R86). -/
inductive Disp16 where
  | none
  | d8  (d : Byte)
  | d16 (d : Half)
  deriving DecidableEq, Repr

/-- A displacement of a 32-bit effective address: none, `disp8` or `disp32` (R87). -/
inductive Disp32 where
  | none
  | d8  (d : Byte)
  | d32 (d : Word)
  deriving DecidableEq, Repr

/-- The register sums of a 16-bit effective address, in the order of the `rm` field (R86). -/
inductive Base16 where
  | bxSi | bxDi | bpSi | bpDi | si | di | bp | bx
  deriving DecidableEq, Repr

/-- A memory operand: the 16-bit forms of R86 and the 32-bit forms of R87. A SIB index of `none` is the
encoding `index = 4`. -/
inductive Mem where
  | direct16  (d : Half)
  | based16   (b : Base16) (d : Disp16)
  | direct32  (d : Word)
  | based32   (r : Reg) (d : Disp32)
  | sib       (scale : BitVec 2) (index : Option Reg) (base : Reg) (d : Disp32)
  | sibNoBase (scale : BitVec 2) (index : Option Reg) (d : Word)
  deriving DecidableEq, Repr

/-- The operand of the near indirect call: a register (`mod = 3`) or memory (R85). -/
inductive Rm where
  | reg (r : Reg)
  | mem (m : Mem)
  deriving DecidableEq, Repr

/-- The instructions: the eight encodings of CALL (R81), one constructor per row of the opcode table. -/
inductive Instr where
  | callRel16   (p : Prefixes) (rel : Half)
  | callRm16    (p : Prefixes) (o : Rm)
  | callPtr1616 (p : Prefixes) (sel : Half) (off : Half)
  | callM1616   (p : Prefixes) (m : Mem)
  | callRel32   (p : Prefixes) (rel : Word)
  | callRm32    (p : Prefixes) (o : Rm)
  | callPtr1632 (p : Prefixes) (sel : Half) (off : Word)
  | callM1632   (p : Prefixes) (m : Mem)
  deriving DecidableEq, Repr

/-- The other size: what a 66H or 67H byte selects (R5, R6). -/
def Size.other : Size → Size
  | .w16 => .w32
  | .w32 => .w16

/-- The `OperandSize` that selects the instruction's row (R82, R95). -/
def Instr.opSize : Instr → Size
  | .callRel16 _ _ => .w16
  | .callRm16 _ _ => .w16
  | .callPtr1616 _ _ _ => .w16
  | .callM1616 _ _ => .w16
  | .callRel32 _ _ => .w32
  | .callRm32 _ _ => .w32
  | .callPtr1632 _ _ _ => .w32
  | .callM1632 _ _ => .w32

/-- The bytes before the opcode. -/
def Instr.prefixes : Instr → Prefixes
  | .callRel16 p _ => p
  | .callRm16 p _ => p
  | .callPtr1616 p _ _ => p
  | .callM1616 p _ => p
  | .callRel32 p _ => p
  | .callRm32 p _ => p
  | .callPtr1632 p _ _ => p
  | .callM1632 p _ => p

/-- The instruction's memory operand, where it has one. -/
def Instr.memOperand : Instr → Option Mem
  | .callRel16 _ _ => none
  | .callRm16 _ (.reg _) => none
  | .callRm16 _ (.mem m) => some m
  | .callPtr1616 _ _ _ => none
  | .callM1616 _ m => some m
  | .callRel32 _ _ => none
  | .callRm32 _ (.reg _) => none
  | .callRm32 _ (.mem m) => some m
  | .callPtr1632 _ _ _ => none
  | .callM1632 _ m => some m

/-- The default size of the code segment the instruction is written for: its `OperandSize`, or the other
size when it carries a 66H byte (R5). -/
def Instr.defaultSize (i : Instr) : Size :=
  if i.prefixes.opSize then i.opSize.other else i.opSize

/-- The `AddressSize` the instruction is decoded under: the default, or the other size when it carries a
67H byte (R6). -/
def Instr.addrSize (i : Instr) : Size :=
  if i.prefixes.addrSize then i.defaultSize.other else i.defaultSize

end Sys2Proof
end

