-- ==== Sys2Proof/WellFormed.lean ====
section
/-! DEFINITION. Which terms of `Instr` have an encoding: the memory operand is one the ModR/M and SIB
bytes can name (R86, R87) and is of the instruction's address size (R6). -/

namespace Sys2Proof

/-- Whether a memory operand is one of the forms of R86 or R87: `[BP]` with no displacement, `[EBP]`
with no displacement and a base of ESP without a SIB byte have no encoding; ESP is never an index; no
index means scale 0 (the other scales are the undefined encoding of R87). -/
def Mem.wellFormed : Mem → Bool
  | .direct16 _ => true
  | .based16 b d => !(b == .bp && d == .none)
  | .direct32 _ => true
  | .based32 r d => !(r == .esp) && !(r == .ebp && d == .none)
  | .sib scale index base d =>
      !(index == some .esp) && (index.isSome || scale == 0) && !(base == .ebp && d == .none)
  | .sibNoBase scale index _ => !(index == some .esp) && (index.isSome || scale == 0)

/-- The address size a memory operand belongs to: R86's forms are 16-bit, R87's 32-bit. -/
def Mem.addrSize : Mem → Size
  | .direct16 _ => .w16
  | .based16 _ _ => .w16
  | .direct32 _ => .w32
  | .based32 _ _ => .w32
  | .sib _ _ _ _ => .w32
  | .sibNoBase _ _ _ => .w32

/-- Whether the instruction has an encoding. -/
def Instr.wellFormed (i : Instr) : Bool :=
  match i.memOperand with
  | none => true
  | some m => m.wellFormed && m.addrSize == i.addrSize

end Sys2Proof
end

