-- ==== Sys2Proof/Decode.lean ====
section
/-! DEFINITION. The decoder, total on any bytes and rejecting by name, and the encoder, both from the
encoding tables of 30_encoding.md (R80 to R96). The decoder takes the default size of the code segment
(R5) and a list of bytes, first byte first. -/

namespace Sys2Proof

/-- Why bytes do not decode to a CALL. -/
inductive DecodeStop where
  /-- The bytes end before the instruction does. -/
  | truncated
  /-- The opcode byte is none of E8, 9A, FF (R89, U16). -/
  | notCall (opcode : Byte)
  /-- Opcode FF with a reg field other than 2 or 3 (R89, U16). -/
  | notCallDigit (reg : BitVec 3)
  /-- The same byte before the opcode twice (R92, U4), or F2 with F3, a DESIGN CHOICE (log 21). -/
  | repeatedPrefix
  /-- Two different segment overrides (R92, U4). -/
  | twoOverrides
  /-- F2 or F3 on a CALL (R92, U4). -/
  | repPrefix
  /-- A SIB byte with `index = 4` and `scale` not 0 (R87, U2). -/
  | scaledNoIndex
  /-- `FF /3` with `mod = 3` (R90, U1), or LOCK on a CALL (R67, R92): the invalid-opcode exception. -/
  | invalidOpcode
  deriving DecidableEq, Repr

/-! ## Byte order (R51) -/

/-- The two bytes of a 16-bit value, least significant first (R51). -/
def bytesOfHalf (v : Half) : List Byte := [v.extractLsb' 0 8, v.extractLsb' 8 8]

/-- The four bytes of a 32-bit value, least significant first (R51). -/
def bytesOfWord (v : Word) : List Byte :=
  [v.extractLsb' 0 8, v.extractLsb' 8 8, v.extractLsb' 16 8, v.extractLsb' 24 8]

/-- The next byte. -/
def takeByte : List Byte → Except DecodeStop (Byte × List Byte)
  | b :: bs => .ok (b, bs)
  | [] => .error .truncated

/-- The next two bytes as a 16-bit value, least significant first (R51, R83, R84). -/
def takeHalf : List Byte → Except DecodeStop (Half × List Byte)
  | b0 :: b1 :: bs => .ok (b1 ++ b0, bs)
  | _ => .error .truncated

/-- The next four bytes as a 32-bit value, least significant first (R51, R83, R84). -/
def takeWord : List Byte → Except DecodeStop (Word × List Byte)
  | b0 :: b1 :: b2 :: b3 :: bs => .ok (b3 ++ b2 ++ b1 ++ b0, bs)
  | _ => .error .truncated

/-! ## Register and segment numbers -/

/-- General register number `n` (R21). -/
def regOf (n : BitVec 3) : Reg :=
  match n.toNat with
  | 0 => .eax
  | 1 => .ecx
  | 2 => .edx
  | 3 => .ebx
  | 4 => .esp
  | 5 => .ebp
  | 6 => .esi
  | _ => .edi

/-- The number of a general register (R21). -/
def Reg.num : Reg → BitVec 3
  | .eax => 0
  | .ecx => 1
  | .edx => 2
  | .ebx => 3
  | .esp => 4
  | .ebp => 5
  | .esi => 6
  | .edi => 7

/-- The register sum that `rm` names with a 16-bit address size (R86). -/
def base16Of (rm : BitVec 3) : Base16 :=
  match rm.toNat with
  | 0 => .bxSi
  | 1 => .bxDi
  | 2 => .bpSi
  | 3 => .bpDi
  | 4 => .si
  | 5 => .di
  | 6 => .bp
  | _ => .bx

/-- The `rm` field of a 16-bit register sum (R86). -/
def Base16.num : Base16 → BitVec 3
  | .bxSi => 0
  | .bxDi => 1
  | .bpSi => 2
  | .bpDi => 3
  | .si => 4
  | .di => 5
  | .bp => 6
  | .bx => 7

/-- The byte of a segment override (R88). -/
def SegName.byte : SegName → Byte
  | .es => 0x26
  | .cs => 0x2E
  | .ss => 0x36
  | .ds => 0x3E
  | .fs => 0x64
  | .gs => 0x65

/-! ## The bytes before the opcode (R92) -/

/-- What a byte before the opcode says. -/
inductive PrefixByte where
  | opSize
  | addrSize
  | seg (n : SegName)
  | lock
  | rep (b : Byte)
  deriving DecidableEq, Repr

/-- The table of R92; any other byte is the opcode. -/
def prefixByte (b : Byte) : Option PrefixByte :=
  if b = 0x66 then some .opSize
  else if b = 0x67 then some .addrSize
  else if b = 0x26 then some (.seg .es)
  else if b = 0x2E then some (.seg .cs)
  else if b = 0x36 then some (.seg .ss)
  else if b = 0x3E then some (.seg .ds)
  else if b = 0x64 then some (.seg .fs)
  else if b = 0x65 then some (.seg .gs)
  else if b = 0xF0 then some .lock
  else if b = 0xF2 ∨ b = 0xF3 then some (.rep b)
  else none

/-- What has been read before the opcode. -/
structure Scan where
  pfx  : Prefixes
  lock : Bool
  rep  : Bool
  deriving DecidableEq, Repr

/-- Nothing read yet. -/
def Scan.start : Scan := ⟨⟨false, false, none⟩, false, false⟩

/-- One more byte before the opcode; a repeated one or a second segment override is refused (R92).
R92 does not say whether F2 with F3 is a repeated byte. DESIGN CHOICE, safe (log 21): it is, and it is refused as the
second of the two is read, ahead of an opcode that is no CALL and of an illegal ModR/M byte. -/
def Scan.add (sc : Scan) : PrefixByte → Except DecodeStop Scan
  | .opSize =>
      if sc.pfx.opSize then .error .repeatedPrefix
      else .ok { sc with pfx := { sc.pfx with opSize := true } }
  | .addrSize =>
      if sc.pfx.addrSize then .error .repeatedPrefix
      else .ok { sc with pfx := { sc.pfx with addrSize := true } }
  | .seg n =>
      match sc.pfx.seg with
      | none => .ok { sc with pfx := { sc.pfx with seg := some n } }
      | some m => .error (if m = n then .repeatedPrefix else .twoOverrides)
  | .lock => if sc.lock then .error .repeatedPrefix else .ok { sc with lock := true }
  | .rep _ => if sc.rep then .error .repeatedPrefix else .ok { sc with rep := true }

/-- Read the bytes before the opcode, then the opcode. -/
def scanBytes (sc : Scan) : List Byte → Except DecodeStop (Scan × Byte × List Byte)
  | [] => .error .truncated
  | b :: bs =>
      match prefixByte b with
      | none => .ok (sc, b, bs)
      | some p =>
          match sc.add p with
          | .error e => .error e
          | .ok sc' => scanBytes sc' bs

/-! ## The ModR/M operand (R85 to R87) -/

/-- The displacement after ModR/M with a 16-bit address size: `mod` 0, 1, 2 (R86). -/
def takeDisp16 (md : BitVec 2) (bs : List Byte) : Except DecodeStop (Disp16 × List Byte) :=
  if md = 0 then .ok (.none, bs)
  else if md = 1 then do
    let (b, bs) ← takeByte bs
    .ok (.d8 b, bs)
  else do
    let (h, bs) ← takeHalf bs
    .ok (.d16 h, bs)

/-- The displacement after ModR/M or SIB with a 32-bit address size: `mod` 0, 1, 2 (R87). -/
def takeDisp32 (md : BitVec 2) (bs : List Byte) : Except DecodeStop (Disp32 × List Byte) :=
  if md = 0 then .ok (.none, bs)
  else if md = 1 then do
    let (b, bs) ← takeByte bs
    .ok (.d8 b, bs)
  else do
    let (w, bs) ← takeWord bs
    .ok (.d32 w, bs)

/-- The memory operand named by `mod` (not 3) and `rm` with a 16-bit address size (R86). -/
def takeMem16 (md : BitVec 2) (rm : BitVec 3) (bs : List Byte) :
    Except DecodeStop (Mem × List Byte) :=
  if md = 0 ∧ rm = 6 then do
    let (h, bs) ← takeHalf bs
    .ok (.direct16 h, bs)
  else do
    let (d, bs) ← takeDisp16 md bs
    .ok (.based16 (base16Of rm) d, bs)

/-- The memory operand of a SIB byte (R87). -/
def takeSib (md : BitVec 2) (s : Byte) (bs : List Byte) : Except DecodeStop (Mem × List Byte) :=
  let scale : BitVec 2 := s.extractLsb' 6 2
  let ix : BitVec 3 := s.extractLsb' 3 3
  let base : BitVec 3 := s.extractLsb' 0 3
  let index : Option Reg := if ix = 4 then none else some (regOf ix)
  if ix = 4 ∧ scale ≠ 0 then .error .scaledNoIndex
  else if md = 0 ∧ base = 5 then do
    let (w, bs) ← takeWord bs
    .ok (.sibNoBase scale index w, bs)
  else do
    let (d, bs) ← takeDisp32 md bs
    .ok (.sib scale index (regOf base) d, bs)

/-- The memory operand named by `mod` (not 3) and `rm` with a 32-bit address size (R87). -/
def takeMem32 (md : BitVec 2) (rm : BitVec 3) (bs : List Byte) :
    Except DecodeStop (Mem × List Byte) :=
  if rm = 4 then do
    let (s, bs) ← takeByte bs
    takeSib md s bs
  else if md = 0 ∧ rm = 5 then do
    let (w, bs) ← takeWord bs
    .ok (.direct32 w, bs)
  else do
    let (d, bs) ← takeDisp32 md bs
    .ok (.based32 (regOf rm) d, bs)

/-- The memory operand named by `mod` (not 3) and `rm` (R85). -/
def takeMem (asz : Size) (md : BitVec 2) (rm : BitVec 3) (bs : List Byte) :
    Except DecodeStop (Mem × List Byte) :=
  match asz with
  | .w16 => takeMem16 md rm bs
  | .w32 => takeMem32 md rm bs

/-- The instruction after opcode FF: `/2` is the near indirect call, `/3` the far indirect call, every
other digit is not a CALL (R85, R89); the register form of `/3` is illegal (R90). -/
def takeIndirect (p : Prefixes) (osz asz : Size) (bs : List Byte) :
    Except DecodeStop (Instr × List Byte) := do
  let (m, bs) ← takeByte bs
  let md : BitVec 2 := m.extractLsb' 6 2
  let reg : BitVec 3 := m.extractLsb' 3 3
  let rm : BitVec 3 := m.extractLsb' 0 3
  if reg = 2 then
    if md = 3 then
      match osz with
      | .w16 => .ok (.callRm16 p (.reg (regOf rm)), bs)
      | .w32 => .ok (.callRm32 p (.reg (regOf rm)), bs)
    else do
      let (o, bs) ← takeMem asz md rm bs
      match osz with
      | .w16 => .ok (.callRm16 p (.mem o), bs)
      | .w32 => .ok (.callRm32 p (.mem o), bs)
  else if reg = 3 then
    if md = 3 then .error .invalidOpcode
    else do
      let (o, bs) ← takeMem asz md rm bs
      match osz with
      | .w16 => .ok (.callM1616 p o, bs)
      | .w32 => .ok (.callM1632 p o, bs)
  else .error (.notCallDigit reg)

/-- The instruction after its opcode byte (R81 to R84). -/
def takeBody (p : Prefixes) (osz asz : Size) (opcode : Byte) (bs : List Byte) :
    Except DecodeStop (Instr × List Byte) :=
  if opcode = 0xE8 then
    match osz with
    | .w16 => do
        let (r, bs) ← takeHalf bs
        .ok (.callRel16 p r, bs)
    | .w32 => do
        let (r, bs) ← takeWord bs
        .ok (.callRel32 p r, bs)
  else if opcode = 0x9A then
    match osz with
    | .w16 => do
        let (o, bs) ← takeHalf bs
        let (s, bs) ← takeHalf bs
        .ok (.callPtr1616 p s o, bs)
    | .w32 => do
        let (o, bs) ← takeWord bs
        let (s, bs) ← takeHalf bs
        .ok (.callPtr1632 p s o, bs)
  else if opcode = 0xFF then takeIndirect p osz asz bs
  else .error (.notCall opcode)

/-- The size selected by the default and the presence of a 66H or 67H byte (R5, R6, R92). -/
def selectSize (dflt : Size) (flip : Bool) : Size := if flip then dflt.other else dflt

/-- Decode the instruction at the front of `bs`, in a code segment of default size `dflt`; the answer is
the instruction and the bytes after it. A repeat byte on a CALL is refused and LOCK on a CALL is an
invalid opcode (R92), each once the whole instruction has been read (log 21). -/
def decode (dflt : Size) (bs : List Byte) : Except DecodeStop (Instr × List Byte) := do
  let (sc, opcode, bs) ← scanBytes Scan.start bs
  let (i, bs) ← takeBody sc.pfx (selectSize dflt sc.pfx.opSize) (selectSize dflt sc.pfx.addrSize) opcode bs
  if sc.rep then .error .repPrefix
  else if sc.lock then .error .invalidOpcode
  else .ok (i, bs)

/-! ## The encoder -/

/-- The bytes before the opcode, in the order 66H, 67H, segment override (any order decodes, R92). -/
def Prefixes.encode (p : Prefixes) : List Byte :=
  (if p.opSize then [0x66] else []) ++ (if p.addrSize then [0x67] else []) ++
    (match p.seg with
     | none => []
     | some n => [n.byte])

/-- A byte of three fields of 2, 3 and 3 bits: ModR/M and SIB (R85, R87). -/
def fieldsByte (hi : BitVec 2) (mid lo : BitVec 3) : Byte := hi ++ mid ++ lo

/-- The `mod` field a 16-bit displacement asks for (R86). -/
def Disp16.mod : Disp16 → BitVec 2
  | .none => 0
  | .d8 _ => 1
  | .d16 _ => 2

/-- The bytes of a 16-bit displacement (R86). -/
def Disp16.encode : Disp16 → List Byte
  | .none => []
  | .d8 b => [b]
  | .d16 h => bytesOfHalf h

/-- The `mod` field a 32-bit displacement asks for (R87). -/
def Disp32.mod : Disp32 → BitVec 2
  | .none => 0
  | .d8 _ => 1
  | .d32 _ => 2

/-- The bytes of a 32-bit displacement (R87). -/
def Disp32.encode : Disp32 → List Byte
  | .none => []
  | .d8 b => [b]
  | .d32 w => bytesOfWord w

/-- The index field of a SIB byte; 4 is no index (R87). -/
def indexField : Option Reg → BitVec 3
  | none => 4
  | some r => r.num

/-- The ModR/M byte with `digit` in its reg field, the SIB byte and the displacement of a memory operand
(R85 to R87). -/
def Mem.encode (digit : BitVec 3) : Mem → List Byte
  | .direct16 d => fieldsByte 0 digit 6 :: bytesOfHalf d
  | .based16 b d => fieldsByte d.mod digit b.num :: d.encode
  | .direct32 d => fieldsByte 0 digit 5 :: bytesOfWord d
  | .based32 r d => fieldsByte d.mod digit r.num :: d.encode
  | .sib scale index base d =>
      fieldsByte d.mod digit 4 :: fieldsByte scale (indexField index) base.num :: d.encode
  | .sibNoBase scale index d =>
      fieldsByte 0 digit 4 :: fieldsByte scale (indexField index) 5 :: bytesOfWord d

/-- The ModR/M operand of the near indirect call, `/2` (R85). -/
def Rm.encode : Rm → List Byte
  | .reg r => [fieldsByte 3 2 r.num]
  | .mem m => m.encode 2

/-- The bytes of an instruction from its opcode on (R81, R83, R84). -/
def Instr.encodeBody : Instr → List Byte
  | .callRel16 _ rel => 0xE8 :: bytesOfHalf rel
  | .callRm16 _ o => 0xFF :: o.encode
  | .callPtr1616 _ sel off => 0x9A :: (bytesOfHalf off ++ bytesOfHalf sel)
  | .callM1616 _ m => 0xFF :: m.encode 3
  | .callRel32 _ rel => 0xE8 :: bytesOfWord rel
  | .callRm32 _ o => 0xFF :: o.encode
  | .callPtr1632 _ sel off => 0x9A :: (bytesOfWord off ++ bytesOfHalf sel)
  | .callM1632 _ m => 0xFF :: m.encode 3

/-- The bytes of an instruction, first byte first. -/
def encode (i : Instr) : List Byte := i.prefixes.encode ++ i.encodeBody

/-! ## Lengths (R91) -/

/-- The number of bytes before the opcode. -/
def Prefixes.length (p : Prefixes) : Nat :=
  (if p.opSize then 1 else 0) + (if p.addrSize then 1 else 0) + (if p.seg.isSome then 1 else 0)

/-- The number of bytes of a memory operand: ModR/M, SIB and displacement (R91). -/
def Mem.length : Mem → Nat
  | .direct16 _ => 3
  | .based16 _ .none => 1
  | .based16 _ (.d8 _) => 2
  | .based16 _ (.d16 _) => 3
  | .direct32 _ => 5
  | .based32 _ .none => 1
  | .based32 _ (.d8 _) => 2
  | .based32 _ (.d32 _) => 5
  | .sib _ _ _ .none => 2
  | .sib _ _ _ (.d8 _) => 3
  | .sib _ _ _ (.d32 _) => 6
  | .sibNoBase _ _ _ => 6

/-- The number of bytes of an instruction, those before the opcode counted (R91). -/
def instrLength : Instr → Nat
  | .callRel16 p _ => p.length + 3
  | .callRm16 p (.reg _) => p.length + 2
  | .callRm16 p (.mem m) => p.length + 1 + m.length
  | .callPtr1616 p _ _ => p.length + 5
  | .callM1616 p m => p.length + 1 + m.length
  | .callRel32 p _ => p.length + 5
  | .callRm32 p (.reg _) => p.length + 2
  | .callRm32 p (.mem m) => p.length + 1 + m.length
  | .callPtr1632 p _ _ => p.length + 7
  | .callM1632 p m => p.length + 1 + m.length

/-! ## The words of the opcode table -/

/-- `n` bytes of `w`, the most significant byte first: the table's own numbering of a row (its `match`
is "first byte first", R95, and the one row it gives `fixed` bits has the opcode in the top byte). -/
def topBytes (w : Nat) : Nat → List Byte
  | 0 => []
  | n + 1 => BitVec.ofNat 8 (w / 256 ^ n) :: topBytes w n

/-- `n` bytes of `w`, the least significant byte first. -/
def lowBytes (w : Nat) : Nat → List Byte
  | 0 => []
  | n + 1 => BitVec.ofNat 8 w :: lowBytes (w / 256) n

/-- Whether a byte is an opcode of the table (R81). -/
def isCallOpcode (b : Byte) : Bool := b == 0xE8 || b == 0x9A || b == 0xFF

/-- The bytes of a table word of `nbits` bits, from the opcode on: the numbering that puts an opcode of
the table first (log 5). -/
def tableOpcodeBytes (nbits w : Nat) : List Byte :=
  let n := (nbits + 7) / 8
  match topBytes w n with
  | b :: bs => if isCallOpcode b then b :: bs else lowBytes w n
  | [] => []

/-- Whether a table word is of a 32-bit row that its length tells apart: `E8 cd` has 5 bytes and `9A cp`
7 (R91). -/
def tableWordIs32 (bs : List Byte) : Bool :=
  match bs with
  | b :: _ => (b == 0xE8 && bs.length == 5) || (b == 0x9A && bs.length == 7)
  | [] => false

/-- The fifteen bytes a table word stands for in a 16-bit code segment: `OperandSize` is no bit of the
word (R95), so a word of a 32-bit row has the 66H byte before it (R92); the bytes above `nbits` are 0. -/
def tableBytes (nbits w : Nat) : List Byte :=
  let bs := tableOpcodeBytes nbits w
  let bs := if tableWordIs32 bs then 0x66 :: bs else bs
  (bs ++ List.replicate 15 0).take 15

/-- The instruction the decoder reads from a word of the opcode table, in the 16-bit code segment of the
reset state (R5, R36; log 5). -/
def decodeTableWord (nbits w : Nat) : Option Instr :=
  match decode .w16 (tableBytes nbits w) with
  | .ok (i, _) => some i
  | .error _ => none

end Sys2Proof
end

