-- ==== Sys2Proof/Config.lean ====
section
/-! DEFINITION. What the spec leaves free (opaque constants: no proof can see their values) and the one
fixed byte the model chooses for memory that nothing has written. The counter they are applied to is
`State.draws`. -/

namespace Sys2Proof

/-- FREE VALUE: the 16 high-order bits with which a 32-bit push of a selector is padded, draw `n`
(R56, D11, U5; log 15). -/
opaque Config.pad (n : Nat) : BitVec 16

/-- FREE VALUE: the high half of the old stack pointer when a 16-bit stack pointer is pushed as a
doubleword on the new stack (R161 states no value; log 16). -/
opaque Config.oldSpHigh (n : Nat) : BitVec 16

/-- FREE VALUE: `ESP[31:16]` after a 16-bit stack pointer from a 286 TSS is loaded for a 32-bit stack
(R161, U8; used only when the launch parameter `tss286Wide` is `freeHigh`; log 14). -/
opaque Config.espHigh (n : Nat) : BitVec 16

/-- FREE VALUE: when a near call's target is beyond the code limit and its push does not fit, whether
the fault is the target's (`#GP(0)`) or the push's (`#SS(0)`) (R114, R208 (3), U3; log 17). -/
opaque Config.nearTargetFaultFirst (n : Nat) : Bool

/-- FREE VALUE: whether the pushes of a call to more privilege are translated under the old CPL rather
than the new one (R57 and R161 do not say; matters only with paging on; log 9). -/
opaque Config.newStackAtOldCpl : Bool

/-- What a byte of memory that nothing has written reads as. DESIGN CHOICE 00H (R36: memory is
unspecified after reset), unsafe (log 4). -/
def Config.unlistedByte : Byte := 0

end Sys2Proof
end

