-- ==== Sys2Proof/Machine/State.lean ====
section
/-! DEFINITION. The state of the machine as plain data: everything 10_state.md and its neighbours name
(R20 to R38), the launch parameters the spec leaves to an argument (92_eei_decisions.md), the reasons a
step can stop, and the state after reset (R36). -/

namespace Sys2Proof.Machine

/-! ## Why a step stops -/

/-- The exceptions of R200. Each ends the run with the state as it was before the step (R209); the spec
delivers none (R4, R210; log 6). SAFE: the model stops where the chip would go on to a handler. -/
inductive Fault where
  /-- `#GP(code)`, vector 13: raised by the checks of R201, and by the fetch of an instruction byte beyond the code
  limit outside Real Address Mode (R94). Safe. -/
  | gp (code : Half)
  /-- `#NP(code)`, vector 11: raised by the presence checks of R202 and G8 of R158. Safe. -/
  | np (code : Half)
  /-- `#SS(code)`, vector 12: raised by the stack checks of R203. Safe. -/
  | ss (code : Half)
  /-- `#TS(code)`, vector 10: raised by the checks of R204 and by a TSS too small (R34). Safe. -/
  | ts (code : Half)
  /-- `#PF`, vector 14: raised by any access that does not translate; its fault code and the address it
  records are not in the source and are not recorded (R205, U23). Safe. -/
  | pf
  /-- Interrupt 13 without an error code: an operand outside 0 to 0FFFFH in Real Address Mode or Virtual 8086 Mode
  (R54, R55, R137, R200; log 24), or an instruction byte outside it in Real Address Mode (R94). Safe. -/
  | interrupt13
  /-- In Real Address Mode or Virtual 8086 Mode, a push that crosses 0FFFFH or a call target above
  0FFFFH: a fault whose number, 12 or 13, the spec does not fix, and which records none (D19, U21;
  log 18). Safe. -/
  | realLimit
  /-- `#UD`, vector 6, no error code: `FF /3` with a register operand, or LOCK on a CALL (R90, R92). Safe. -/
  | ud
  deriving DecidableEq, Repr

/-- Why the model declines a step: the spec gives the situation no meaning (R17). SAFE, each of them: the
model stops where the chip may go on. -/
inductive Refusal where
  /-- An instruction without a meaning yet; raised only by an arm of exec. Safe. -/
  | notModelled (mnemonic : String)
  /-- The opcode is not of CALL; raised by the fetch (R89, U16). Safe. -/
  | notCall (opcode : Byte)
  /-- Opcode FF with a reg field other than 2 or 3; raised by the fetch (R89, U16). Safe. -/
  | notCallDigit (reg : BitVec 3)
  /-- A byte before the opcode stands twice; raised by the fetch (R92, U4). F2 and F3 together count as a repeated
  byte, a DESIGN CHOICE (log 21). Safe. -/
  | repeatedPrefix
  /-- Two different segment overrides; raised by the fetch (R92, U4). Safe. -/
  | twoOverrides
  /-- F2 or F3 on a CALL; raised by the fetch (R92, U4). Safe. -/
  | repPrefix
  /-- The undefined SIB encoding `index = 4`, `scale` not 0; raised by the fetch (R87, U2). Safe. -/
  | scaledNoIndex
  /-- More than 15 bytes without an end of the instruction; raised by the fetch (R91). Safe. -/
  | tooLong
  /-- An instruction byte that a CALL has written, when `pushedCode` is `refuse`; raised by the fetch
  (R63, D16, U20; log 12). Safe. -/
  | pushedCodeFetched
  /-- `PE = 0` with `VM = 1`; raised by the step before it fetches (R7, D25, U17). Safe. -/
  | realModeWithVm
  /-- Real Address Mode with a hidden limit other than 0FFFFH; raised by the step before it fetches
  (R54, D22, U27). Safe. -/
  | realModeLimit
  /-- The CALL ends past 0FFFFH in a 16-bit code segment, when `nextEip` is `refuse`; raised by every
  form (R94, U15; log 13). Safe. -/
  | nextEipPast64K
  /-- A stack-dependent operand, when `stackOperand` is `refuse`; raised by the near indirect forms for each
  shape of R116, and by the far ones for a pointer that lies where the call will push (R112, R113, R116, R132,
  D12, U18; log 11). Safe. -/
  | stackDependentOperand
  /-- The operand size and the gate's type give different sizes, when `gateSize` is `refuseMixed`; raised
  by a far call through a call gate (R159, D10, U19; log 10). Safe. -/
  | mixedGateSize
  /-- A 16-bit stack pointer from a 286 TSS for a 32-bit stack, when `tss286Wide` is `refuse`; raised by a
  call to more privilege (R161, U8; log 14). Safe. -/
  | tss286WideStack
  /-- SWITCH-TASKS; raised by a far call to a task gate or TSS once its checks have passed (R165, D9, U11;
  log 7). Safe. -/
  | taskSwitch
  /-- A TSS descriptor found through the local table; raised by a far call (R164, U10). Safe. -/
  | tssInLdt
  /-- Paging is on and no `Translate` was supplied; raised by any memory access (R57, D8, U24; log 8).
  Safe. -/
  | translateNotSupplied
  deriving DecidableEq, Repr

/-- How a step can end other than in a next state (R17). -/
inductive Stop where
  | fault (r : Fault)
  | refuse (r : Refusal)
  deriving DecidableEq, Repr

/-! ## Registers -/

/-- The eight 32-bit general registers (R21). -/
structure Regs where
  eax : Word
  ecx : Word
  edx : Word
  ebx : Word
  esp : Word
  ebp : Word
  esi : Word
  edi : Word
  deriving DecidableEq, Repr

/-- A segment register: the selector a program sees (R23) and the hidden copy of its descriptor (R24):
base, byte-granular limit, AR byte (R31), and the D bit of a code segment or B bit of a stack segment. -/
structure Seg where
  sel   : Half
  base  : Word
  limit : Word
  ar    : Byte
  db    : Bool
  deriving DecidableEq, Repr

/-- The six segment registers (R23). -/
structure Segs where
  es : Seg
  cs : Seg
  ss : Seg
  ds : Seg
  fs : Seg
  gs : Seg
  deriving DecidableEq, Repr

/-- GDTR or IDTR: base and the offset of the table's last byte (R28). -/
structure TableReg where
  base  : Word
  limit : Half
  deriving DecidableEq, Repr

/-- LDTR: selector, hidden base and limit, and whether it holds a table (R28). -/
structure Ldtr where
  sel   : Half
  base  : Word
  limit : Word
  valid : Bool
  deriving DecidableEq, Repr

/-- The two kinds of TSS (R2, R29). -/
inductive TssKind where
  | tss286
  | tss386
  deriving DecidableEq, Repr

/-- TR: selector, hidden base and limit, and the kind of the current TSS (R29). -/
structure Tr where
  sel   : Half
  base  : Word
  limit : Word
  kind  : TssKind
  deriving DecidableEq, Repr

/-- The debug registers DR0 to DR7, which CALL does not touch (R215). -/
structure DebugRegs where
  dr0 : Word
  dr1 : Word
  dr2 : Word
  dr3 : Word
  dr4 : Word
  dr5 : Word
  dr6 : Word
  dr7 : Word
  deriving DecidableEq, Repr

/-! ## Launch parameters: the points the spec leaves open, as arguments of a run -/

/-- What an access does (R57). -/
inductive AccessKind where
  | read
  | write
  deriving DecidableEq, Repr

/-- One piece of `Translate`: accesses of kind `kind` at privilege `cpl` to linear addresses `lo` to `hi`
go to the physical addresses from `phys` on (R57, D8; log 8). -/
structure Mapping where
  kind : AccessKind
  cpl  : BitVec 2
  lo   : Word
  hi   : Word
  phys : Word
  deriving DecidableEq, Repr

/-- `GATE_SIZE_RULE`: refuse the mixed cases (the spec's default), or the page's text, or the gate's type
(R159, D10; log 10). -/
inductive GateSizeRule where
  | refuseMixed
  | operandSize
  | gateType
  deriving DecidableEq, Repr

/-- A stack-dependent operand is refused (the spec's decision), or read before the push as R116 says the
80386 does (D12; log 11). -/
inductive StackOperandRule where
  | refuse
  | readFirst
  deriving DecidableEq, Repr

/-- A fetch of a byte that a CALL has written is refused (the spec's decision), or sees the byte as R63
says the 80386 does after a control transfer (D16; log 12). -/
inductive PushedCodeRule where
  | refuse
  | seen
  deriving DecidableEq, Repr

/-- `NextEIP` past 0FFFFH in a 16-bit code segment is refused (the spec's decision), carries into bit 16,
or wraps to 0 (R94, U15; log 13). -/
inductive NextEipRule where
  | refuse
  | carry
  | wrap
  deriving DecidableEq, Repr

/-- A 286 TSS's stack pointer for a 32-bit stack is refused (the spec's decision), or loads SP and leaves
`ESP[31:16]` a free value (R161, U8; log 14). -/
inductive Tss286WideRule where
  | refuse
  | freeHigh
  deriving DecidableEq, Repr

/-- The launch parameters; no step writes them (D8, D10, D12, D16, D17). -/
structure Params where
  gateSize     : GateSizeRule
  stackOperand : StackOperandRule
  pushedCode   : PushedCodeRule
  nextEip      : NextEipRule
  tss286Wide   : Tss286WideRule
  translation  : Option (List Mapping)
  deriving DecidableEq, Repr

/-! ## The state -/

/-- Memory: physical addresses and their bytes, addresses strictly rising, no byte equal to what an
unlisted address reads as (R37; log 4). -/
abbrev Memory := List Host.Cell

/-- The state of the machine. -/
structure State where
  /-- EIP, an offset in the code segment (R20). -/
  eip     : Word
  /-- The general registers (R21). -/
  regs    : Regs
  /-- The segment registers (R23, R24). -/
  segs    : Segs
  /-- The current privilege level (R25). -/
  cpl     : BitVec 2
  /-- CR0: PE is bit 0, PG (the parameter PAGING) bit 31 (R26). -/
  cr0     : Word
  /-- CR2 (R205); no step writes it, the page-fault address not being in the source (log 27). -/
  cr2     : Word
  /-- CR3 (R68, R165); no step uses it, Translate being abstract (log 27). -/
  cr3     : Word
  /-- The flags register; VM is bit 17 (R27). -/
  eflags  : Word
  /-- GDTR (R28). -/
  gdtr    : TableReg
  /-- IDTR, not used by CALL (R28). -/
  idtr    : TableReg
  /-- LDTR (R28). -/
  ldtr    : Ldtr
  /-- TR (R29). -/
  tr      : Tr
  /-- The debug registers (R215). -/
  dr      : DebugRegs
  /-- Memory (R37). -/
  mem     : Memory
  /-- THE MODEL'S OWN: the launch parameters. -/
  params  : Params
  /-- THE MODEL'S OWN: the physical addresses that CALLs have stored to since launch, strictly rising;
  R63 refuses a fetch from them (log 12). -/
  written : List Nat
  /-- THE MODEL'S OWN: how many free values have been drawn (log 15). -/
  draws   : Nat
  deriving DecidableEq, Repr

/-! ## Reset (R36) -/

/-- A data segment register after reset: selector 0, base 0, limit 0FFFFH (R36); AR byte 93H and D/B = 0
PRESUMED (log 2). -/
def Seg.reset : Seg := ⟨0, 0, 0xFFFF, 0x93, false⟩

/-- CS after reset: selector F000H, base FFFF0000H, limit 0FFFFH (R36); AR byte and D as `Seg.reset`. -/
def Seg.resetCs : Seg := ⟨0xF000, 0xFFFF0000, 0xFFFF, 0x93, false⟩

/-- The launch parameters at their defaults, the spec's own decisions (D8, D10, D12, D16; U8, U15). -/
def Params.default : Params := ⟨.refuseMixed, .refuse, .refuse, .refuse, .refuse, none⟩

/-- The machine right after reset (R36). Where R36 gives no value the value is 0, a DESIGN CHOICE (log 1).
R36 gives EAX as the self-test result, 0 if passed; that the self-test has passed, so that EAX is 0, is a DESIGN
CHOICE too, unsafe (log 1). -/
def State.reset : State where
  eip     := 0xFFF0
  regs    := ⟨0, 0, 0, 0, 0, 0, 0, 0⟩
  segs    := ⟨Seg.reset, Seg.resetCs, Seg.reset, Seg.reset, Seg.reset, Seg.reset⟩
  cpl     := 0
  cr0     := 0
  cr2     := 0
  cr3     := 0
  eflags  := 2
  gdtr    := ⟨0, 0⟩
  idtr    := ⟨0, 0x3FF⟩
  ldtr    := ⟨0, 0, 0, false⟩
  tr      := ⟨0, 0, 0, .tss386⟩
  dr      := ⟨0, 0, 0, 0, 0, 0, 0, 0⟩
  mem     := []
  params  := Params.default
  written := []
  draws   := 0

end Sys2Proof.Machine
end

