-- ==== Sys2Proof/Machine/Flags.lean ====
section
/-! DEFINITION. The flags register and CR0: their named bits (R26, R27), and the operating mode they
select (R7). CALL computes no flag (R27, R166), so there is no flag computation here; the only bit of
EFLAGS any CALL reads is VM. -/

namespace Sys2Proof.Machine

/-- CR0.PE, protection enable (R26). -/
def State.pe (s : State) : Bool := s.cr0.getLsbD 0

/-- CR0.PG, the parameter PAGING (R26, R8). -/
def State.pg (s : State) : Bool := s.cr0.getLsbD 31

/-- EFLAGS.VM (R27). -/
def State.vm (s : State) : Bool := s.eflags.getLsbD 17

/-- The other named flags (R27); no rule of CALL uses them. -/
def State.cf (s : State) : Bool := s.eflags.getLsbD 0
/-- EFLAGS.PF (R27). -/
def State.pf (s : State) : Bool := s.eflags.getLsbD 2
/-- EFLAGS.AF (R27). -/
def State.af (s : State) : Bool := s.eflags.getLsbD 4
/-- EFLAGS.ZF (R27). -/
def State.zf (s : State) : Bool := s.eflags.getLsbD 6
/-- EFLAGS.SF (R27). -/
def State.sf (s : State) : Bool := s.eflags.getLsbD 7
/-- EFLAGS.TF (R27). -/
def State.tf (s : State) : Bool := s.eflags.getLsbD 8
/-- EFLAGS.IF (R27). -/
def State.ifl (s : State) : Bool := s.eflags.getLsbD 9
/-- EFLAGS.DF (R27). -/
def State.df (s : State) : Bool := s.eflags.getLsbD 10
/-- EFLAGS.OF (R27). -/
def State.of (s : State) : Bool := s.eflags.getLsbD 11
/-- EFLAGS.IOPL (R27). -/
def State.iopl (s : State) : BitVec 2 := s.eflags.extractLsb' 12 2
/-- EFLAGS.NT (R27). -/
def State.nt (s : State) : Bool := s.eflags.getLsbD 14
/-- EFLAGS.RF (R27). -/
def State.rf (s : State) : Bool := s.eflags.getLsbD 16

/-- The three operating modes (R7). -/
inductive Mode where
  | real
  | prot
  | v86
  deriving DecidableEq, Repr

/-- The operating mode, as the page tests PE and VM (R7): `PE = 0` is Real Address Mode whatever VM is. -/
def State.mode (s : State) : Mode :=
  if s.pe then (if s.vm then .v86 else .prot) else .real

/-- Whether linear addresses are translated: PG is 1, and never in Real Address Mode (R57). -/
def State.paging (s : State) : Bool := s.pe && s.pg

/-- The default `OperandSize` and `AddressSize`, the size of the current code segment: 16 in Real Address
Mode and Virtual 8086 Mode, the D bit of CS in Protected Mode (R5, R6). -/
def State.codeSize (s : State) : Size :=
  match s.mode with
  | .real => .w16
  | .v86 => .w16
  | .prot => if s.segs.cs.db then .w32 else .w16

/-- `StackAddrSize`: 16 in Real Address Mode and Virtual 8086 Mode, the B bit of SS in Protected Mode (R8,
R56). -/
def State.stackSize (s : State) : Size :=
  match s.mode with
  | .real => .w16
  | .v86 => .w16
  | .prot => if s.segs.ss.db then .w32 else .w16

end Sys2Proof.Machine
end

