-- ==== Sys2Proof/Machine/Ops.lean ====
section
/-! DEFINITION. The named operations over memory and registers: raising an exception (R209), general and
segment registers (R21 to R24), memory bytes, translation and linear accesses (R50, R51, R57), limits and
rights (R53 to R55), the push and the room for it (R56, R65), NextEIP (R94), the launch checks and the
fetch of an instruction (R94, R7, R54, R63). -/

namespace Sys2Proof.Machine

/-! ## Exceptions -/

/-- TAKING AN EXCEPTION, for every exception of R200: the step ends in the fault, with its error code and
with no state changed (R17, R209). The spec delivers none: what the processor does next is not in the
source (R4, R210), and there is no return from one (R211). -/
def raise {α : Type} (f : Fault) : Except Stop α := .error (.fault f)

/-- Decline the step (R17). -/
def refuse {α : Type} (r : Refusal) : Except Stop α := .error (.refuse r)

/-- "X must be Y ELSE #XX(n)" (R12). -/
def require (b : Bool) (f : Fault) : Except Stop Unit := if b then .ok () else raise f

/-- The outcome of a step (R17). -/
def toOutcome : Except Stop State → Host.Outcome State Fault Refusal
  | .ok s => .next s
  | .error (.fault f) => .fault f
  | .error (.refuse r) => .refused r

/-! ## Named updates of the state -/

/-- `EIP <- v` (R20). -/
def State.withEip (s : State) (v : Word) : State := { s with eip := v }

/-- `CPL <- v` (R25). -/
def State.withCpl (s : State) (v : BitVec 2) : State := { s with cpl := v }

/-- The general registers replaced (R21). -/
def State.withRegs (s : State) (r : Regs) : State := { s with regs := r }

/-- The count of free values drawn (log 15). -/
def State.withDraws (s : State) (n : Nat) : State := { s with draws := n }

/-! ## General registers (R21, R22) -/

/-- `x[i]` (R21). -/
def Regs.get (r : Regs) : Reg → Word
  | .eax => r.eax
  | .ecx => r.ecx
  | .edx => r.edx
  | .ebx => r.ebx
  | .esp => r.esp
  | .ebp => r.ebp
  | .esi => r.esi
  | .edi => r.edi

/-- The low 16 bits of a word: `x16[i]` of `x[i]`, IP of EIP (R20, R21). -/
def low16 (w : Word) : Half := w.extractLsb' 0 16

/-- `zext_32` of a 16-bit value (R11). -/
def zext32 (h : Half) : Word := h.zeroExtend 32

/-- The low half of `w` replaced by `h`: what writing `x16[i]` does (R21). -/
def withLow16 (w : Word) (h : Half) : Word := w.extractLsb' 16 16 ++ h

/-- A 32-bit value cut to an operand size and zero-extended again: the page's `AND 0000FFFFH` when the
size is 16 (R12). -/
def cut (sz : Size) (w : Word) : Word :=
  match sz with
  | .w16 => zext32 (low16 w)
  | .w32 => w

/-- The number of bytes of an operand: `OperandSize/8` (R56). -/
def sizeBytes : Size → Nat
  | .w16 => 2
  | .w32 => 4

/-- The stack pointer under a stack address size: SP zero-extended, or ESP (R22). -/
def stackPointer (sz : Size) (r : Regs) : Word := cut sz r.esp

/-- The stack pointer of the current stack (R22). -/
def State.sp (s : State) : Word := stackPointer s.stackSize s.regs

/-- Write the stack pointer: SP only, `ESP[31:16]` unchanged, when the size is 16 (R22, R56). -/
def setStackPointer (sz : Size) (r : Regs) (v : Word) : Regs :=
  match sz with
  | .w16 => { r with esp := withLow16 r.esp (low16 v) }
  | .w32 => { r with esp := v }

/-- The stack pointer `n` bytes down: modulo 2^16 or 2^32 (R56, R119). -/
def stackDown (sz : Size) (sp : Word) (n : Nat) : Word := cut sz (sp - BitVec.ofNat 32 n)

/-! ## Segment registers (R23, R24) -/

/-- A segment register by name (R23). -/
def Segs.get (g : Segs) : SegName → Seg
  | .es => g.es
  | .cs => g.cs
  | .ss => g.ss
  | .ds => g.ds
  | .fs => g.fs
  | .gs => g.gs

/-- A selector is null when its bits 15:2 are 0 (R30). -/
def selNull (sel : Half) : Bool := sel.extractLsb' 2 14 == 0

/-- The RPL of a selector (R30). -/
def selRpl (sel : Half) : BitVec 2 := sel.extractLsb' 0 2

/-- `LoadCS_real(sel)`: the selector and sixteen times it as base; in V86 mode the limit is 0FFFFH, in
real mode the limit and the rights are unchanged (R24). -/
def loadCsReal (s : State) (sel : Half) : State :=
  let cs := s.segs.cs
  let limit := match s.mode with
    | .v86 => 0xFFFF
    | .real => cs.limit
    | .prot => cs.limit
  { s with segs := { s.segs with cs := { cs with sel := sel, base := zext32 sel * 16, limit := limit } } }

/-! ## Bits of the AR byte (R31) -/

/-- P, present. -/
def arPresent (ar : Byte) : Bool := ar.getLsbD 7
/-- DPL. -/
def arDpl (ar : Byte) : BitVec 2 := ar.extractLsb' 5 2
/-- S: 1 for a code or data segment. -/
def arS (ar : Byte) : Bool := ar.getLsbD 4
/-- The type field. -/
def arType (ar : Byte) : BitVec 4 := ar.extractLsb' 0 4
/-- A code segment: S = 1 and type bit 3 = 1. -/
def arCode (ar : Byte) : Bool := arS ar && ar.getLsbD 3
/-- A data segment: S = 1 and type bit 3 = 0. -/
def arData (ar : Byte) : Bool := arS ar && !ar.getLsbD 3
/-- C, conforming, of a code segment. -/
def arConforming (ar : Byte) : Bool := ar.getLsbD 2
/-- R, readable, of a code segment. -/
def arReadable (ar : Byte) : Bool := ar.getLsbD 1
/-- E, expand-down, of a data segment. -/
def arExpandDown (ar : Byte) : Bool := ar.getLsbD 2
/-- W, writable, of a data segment. -/
def arWritable (ar : Byte) : Bool := ar.getLsbD 1
/-- A, accessed. -/
def arAccessed (ar : Byte) : Bool := ar.getLsbD 0

/-! ## Bytes of memory -/

/-- The byte at a physical address. -/
def memRead : Memory → Nat → Byte
  | [], _ => Config.unlistedByte
  | (k, b) :: m, a => if k = a then b else memRead m a

/-- Store a byte at a physical address, keeping the canonical form. -/
def memWrite : Memory → Nat → Byte → Memory
  | [], a, v => if v = Config.unlistedByte then [] else [(a, v)]
  | (k, b) :: m, a, v =>
      if a < k then (if v = Config.unlistedByte then (k, b) :: m else (a, v) :: (k, b) :: m)
      else if a = k then (if v = Config.unlistedByte then m else (a, v) :: m)
      else (k, b) :: memWrite m a v

/-- The canonical form from address `lo` up: addresses at least `lo` and strictly rising, no byte equal to
what an unlisted address reads as. -/
def memSorted : Nat → Memory → Bool
  | _, [] => true
  | lo, (k, b) :: m => decide (lo ≤ k) && b != Config.unlistedByte && memSorted (k + 1) m

/-- Whether a memory is in canonical form. -/
def Memory.wf (m : Memory) : Bool := memSorted 0 m

/-- Add an address to a strictly rising list. -/
def addrInsert : List Nat → Nat → List Nat
  | [], a => [a]
  | k :: ks, a => if a < k then a :: k :: ks else if a = k then k :: ks else k :: addrInsert ks a

/-- Store a byte at a physical address and record the address (R63). -/
def storeByte (s : State) (a : Nat) (b : Byte) : State :=
  { s with mem := memWrite s.mem a b, written := addrInsert s.written a }

/-! ## Translation and linear accesses (R50, R51, R57) -/

/-- Whether a mapping says where an access goes (R57). -/
def Mapping.covers (m : Mapping) (lin : Word) (kind : AccessKind) (cpl : BitVec 2) : Bool :=
  m.kind == kind && m.cpl == cpl && m.lo.ule lin && lin.ule m.hi

/-- The supplied `Translate`: the first mapping that covers the access, or none, a page fault (R57). -/
def lookupMapping : List Mapping → Word → AccessKind → BitVec 2 → Option Word
  | [], _, _, _ => none
  | m :: ms, lin, kind, cpl =>
      if m.covers lin kind cpl then some (m.phys + (lin - m.lo)) else lookupMapping ms lin kind cpl

/-- `Translate(lin, kind, cpl)`: the physical address, or `#PF`; the linear address itself when paging is
off (R57, D8). -/
def translate (s : State) (lin : Word) (kind : AccessKind) (cpl : BitVec 2) : Except Stop Word :=
  if s.paging then
    match s.params.translation with
    | none => refuse .translateNotSupplied
    | some ms =>
        match lookupMapping ms lin kind cpl with
        | some p => .ok p
        | none => raise .pf
  else .ok lin

/-- `MemRead(lin, n)` as its bytes, lowest address first, each through `Translate` (R51, R57); linear
addresses are modulo 2^32 (R50). -/
def readBytes (s : State) (cpl : BitVec 2) : Word → Nat → Except Stop (List Byte)
  | _, 0 => .ok []
  | lin, n + 1 => do
      let p ← translate s lin .read cpl
      let bs ← readBytes s cpl (lin + 1) n
      .ok (memRead s.mem p.toNat :: bs)

/-- `MemWrite(lin, n, v)` of the bytes of `v`, each through `Translate` (R51, R57). -/
def writeBytes (s : State) (cpl : BitVec 2) : Word → List Byte → Except Stop State
  | _, [] => .ok s
  | lin, b :: bs => do
      let p ← translate s lin .write cpl
      writeBytes (storeByte s p.toNat b) cpl (lin + 1) bs

/-- The number whose little-endian bytes these are (R51). -/
def leNat : List Byte → Nat
  | [] => 0
  | b :: bs => b.toNat + 256 * leNat bs

/-- `MemRead(lin, n)` as a 32-bit value, zero-extended (R51). -/
def readWord (s : State) (cpl : BitVec 2) (lin : Word) (n : Nat) : Except Stop Word := do
  let bs ← readBytes s cpl lin n
  .ok (BitVec.ofNat 32 (leNat bs))

/-- The bytes of a value cut to an operand size, least significant first (R51). -/
def bytesOf (sz : Size) (v : Word) : List Byte :=
  match sz with
  | .w16 => bytesOfHalf (low16 v)
  | .w32 => bytesOfWord v

/-! ## Limits and rights (R53 to R55) -/

/-- `InLimit(seg, off, n)`: the `n` bytes from `off` lie inside the segment, on unbounded integers (R53). -/
def inLimit (seg : Seg) (off : Word) (n : Nat) : Bool :=
  let last := off.toNat + n - 1
  if arData seg.ar && arExpandDown seg.ar then
    let top := if seg.db then 0xFFFFFFFF else 0xFFFF
    decide (seg.limit.toNat < off.toNat) && decide (last ≤ top)
  else decide (last ≤ seg.limit.toNat)

/-- The real-mode and V86 check: no byte beyond offset 0FFFFH (R54). -/
def inRealLimit (off : Word) (n : Nat) : Bool := decide (off.toNat + n - 1 ≤ 0xFFFF)

/-- The check of `SegRead` (R55): in Protected Mode the register is not null, is not an execute-only code
segment, and the bytes are in its limit; in the other modes R54. -/
def readable (md : Mode) (seg : Seg) (off : Word) (n : Nat) : Bool :=
  match md with
  | .prot => !selNull seg.sel && !(arCode seg.ar && !arReadable seg.ar) && inLimit seg off n
  | .real => inRealLimit off n
  | .v86 => inRealLimit off n

/-- The check of `SegWrite` (R55): that of `SegRead`, and in Protected Mode a writable data segment. -/
def writable (md : Mode) (seg : Seg) (off : Word) (n : Nat) : Bool :=
  match md with
  | .prot => readable .prot seg off n && (arData seg.ar && arWritable seg.ar)
  | .real => inRealLimit off n
  | .v86 => inRealLimit off n

/-- The exception of an operand that fails its check: `#SS(0)` in SS and `#GP(0)` elsewhere in Protected
Mode (R55, R137), Interrupt 13 in the other modes (R54, R55, R137, R200); that V86 mode delivers it to the monitor
as `#GP(0)` (R206) is part of the delivery, which is not modelled (log 24). -/
def operandFault (md : Mode) (name : SegName) : Fault :=
  match md with
  | .prot => if name = .ss then .ss 0 else .gp 0
  | .real => .interrupt13
  | .v86 => .interrupt13

/-- The exception of a push that does not fit: `#SS(0)` in Protected Mode (R56, R65), the fault without a
number in the other modes (D19). -/
def stackFault (md : Mode) : Fault :=
  match md with
  | .prot => .ss 0
  | .real => .realLimit
  | .v86 => .realLimit

/-- The exception of a call target beyond the code limit: `#GP(0)` in Protected Mode, the fault without a
number in the other modes (R115, R134, D19). -/
def targetFault (md : Mode) : Fault :=
  match md with
  | .prot => .gp 0
  | .real => .realLimit
  | .v86 => .realLimit

/-- `InCodeLimit(cs, t)`: the target offset alone (R53, D23); 0FFFFH in real and V86 mode (R54). -/
def inCodeLimit (md : Mode) (limit : Word) (target : Word) : Bool :=
  match md with
  | .prot => decide (target.toNat ≤ limit.toNat)
  | .real => decide (target.toNat ≤ 0xFFFF)
  | .v86 => decide (target.toNat ≤ 0xFFFF)

/-- The linear address of an offset in a segment (R50). -/
def linear (seg : Seg) (off : Word) : Word := seg.base + off

/-- `SegRead(seg, off, n)` (R55). -/
def segRead (s : State) (name : SegName) (off : Word) (n : Nat) : Except Stop Word := do
  require (readable s.mode (s.segs.get name) off n) (operandFault s.mode name)
  readWord s s.cpl (linear (s.segs.get name) off) n

/-! ## The stack push (R56, R65) -/

/-- `SegWrite` through SS, the only segment CALL writes through (R55, R56); the privilege of the access is
an argument, for a stack that is being switched to. -/
def stackWrite (s : State) (cpl : BitVec 2) (off : Word) (bs : List Byte) : Except Stop State := do
  require (writable s.mode s.segs.ss off bs.length) (stackFault s.mode)
  writeBytes s cpl (linear s.segs.ss off) bs

/-- `Push_n(v)`: write below the stack pointer, then move it (R56). -/
def push (s : State) (cpl : BitVec 2) (sz : Size) (v : Word) : Except Stop State := do
  let t := stackDown s.stackSize s.sp (sizeBytes sz)
  let s' ← stackWrite s cpl t (bytesOf sz v)
  .ok (s'.withRegs (setStackPointer s.stackSize s'.regs t))

/-- `Push(CS)` or the push of the old SS: 2 bytes, or 4 with 16 unspecified high-order bits, a free draw
(R56, D11; log 15). -/
def pushSelector (s : State) (cpl : BitVec 2) (sz : Size) (sel : Half) : Except Stop State :=
  match sz with
  | .w16 => push s cpl .w16 (zext32 sel)
  | .w32 => push (s.withDraws (s.draws + 1)) cpl .w32 (Config.pad s.draws ++ sel)

/-- Pushes of one size, in order. -/
def pushAll (s : State) (cpl : BitVec 2) (sz : Size) : List Word → Except Stop State
  | [] => .ok s
  | v :: vs => do
      let s' ← push s cpl sz v
      pushAll s' cpl sz vs

/-- The offsets that `k` pushes of `n` bytes write at, in order, from stack pointer `sp` (R65). -/
def pushSlots (sz : Size) (n : Nat) : Word → Nat → List Word
  | _, 0 => []
  | sp, k + 1 => stackDown sz sp n :: pushSlots sz n (stackDown sz sp n) k

/-- `StackRoom(ss, sp0, [n, .., n])` of `k` pushes of `n` bytes: each would pass the check of its own
`SegWrite` (R65). Every list of sizes the rules give has equal entries. -/
def stackRoom (md : Mode) (seg : Seg) (sz : Size) (n : Nat) (sp : Word) (k : Nat) : Bool :=
  (pushSlots sz n sp k).all fun off => writable md seg off n

/-- The room on the current stack for `k` pushes of `n` bytes (R65). -/
def State.room (s : State) (n k : Nat) : Bool := stackRoom s.mode s.segs.ss s.stackSize n s.sp k

/-! ## Operands that lie where the call pushes (R116, R132) -/

/-- The physical addresses of the `n` bytes from `lin`, those that translate. -/
def physAddrs (s : State) (kind : AccessKind) (cpl : BitVec 2) : Word → Nat → List Nat
  | _, 0 => []
  | lin, n + 1 =>
      match translate s lin kind cpl with
      | .ok p => p.toNat :: physAddrs s kind cpl (lin + 1) n
      | .error _ => physAddrs s kind cpl (lin + 1) n

/-- A memory operand as its linear address and length, or none for an operand in a register or in the
instruction. -/
abbrev OperandRange := Option (Word × Nat)

/-- Whether the operand shares a byte of memory with the bytes that pushes at offsets `slots`, `n` bytes
each, would write in a stack of base `base` (R116). -/
def operandOverlaps (s : State) (opnd : OperandRange) (base : Word) (slots : List Word) (n : Nat)
    (cpl : BitVec 2) : Bool :=
  match opnd with
  | none => false
  | some (lin, len) =>
      let pushed := slots.flatMap fun off => physAddrs s .write cpl (base + off) n
      (physAddrs s .read s.cpl lin len).any fun a => pushed.contains a

/-- Refuse an operand that overlaps the bytes pushed, unless the launch parameter says it is read first
(R116, R132, D12, U18; log 11). -/
def guardOverlap (s : State) (opnd : OperandRange) (base : Word) (slots : List Word) (n : Nat)
    (cpl : BitVec 2) : Except Stop Unit :=
  match s.params.stackOperand with
  | .readFirst => .ok ()
  | .refuse =>
      if operandOverlaps s opnd base slots n cpl then refuse .stackDependentOperand else .ok ()

/-- The offsets the current stack's next `k` pushes of `n` bytes write at. -/
def State.slots (s : State) (n k : Nat) : List Word := pushSlots s.stackSize n s.sp k

/-! ## NextEIP (R94) -/

/-- `NextEIP` of an instruction of `len` bytes at EIP. In a 16-bit code segment the corner past 0FFFFH is
refused, carries or wraps as the launch parameter says (R94, U15; log 13). -/
def nextEip (s : State) (len : Nat) : Except Stop Word :=
  let sum := s.eip.toNat + len
  if s.codeSize = .w16 ∧ 0xFFFF < sum then
    match s.params.nextEip with
    | .refuse => refuse .nextEipPast64K
    | .carry => .ok (BitVec.ofNat 32 sum)
    | .wrap => .ok (zext32 (BitVec.ofNat 16 sum))
  else .ok (BitVec.ofNat 32 sum)

/-! ## The launch checks and the fetch -/

/-- All six segment registers have the limit 0FFFFH (R54). -/
def realLimits (g : Segs) : Bool :=
  g.es.limit == 0xFFFF && g.cs.limit == 0xFFFF && g.ss.limit == 0xFFFF && g.ds.limit == 0xFFFF &&
    g.fs.limit == 0xFFFF && g.gs.limit == 0xFFFF

/-- The launch states the spec refuses: `PE = 0` with `VM = 1` (R7, D25), and Real Address Mode with a
limit other than 0FFFFH (R54, D22). No step leaves or enters them (log 20). DESIGN CHOICE: a state that breaks
another premise of R231 or R25 (outside Protected Mode a base that is not the selector times sixteen, or a CPL
that is not 3 in V86 mode or 0 in real mode; in it a CPL that is not the RPL of CS and SS; a CS that is no code
segment) is neither refused nor normalised and runs from the hidden parts and the CPL held (log 35). -/
def launchCheck (s : State) : Except Stop Unit :=
  if s.pe then .ok ()
  else if s.vm then refuse .realModeWithVm
  else if realLimits s.segs then .ok ()
  else refuse .realModeLimit

/-- The exception of an instruction byte beyond the code segment limit: `#GP(0)`, but Interrupt 13 in Real Address
Mode (R94; R206 for V86 mode). -/
def fetchFault (md : Mode) : Fault :=
  match md with
  | .prot => .gp 0
  | .real => .interrupt13
  | .v86 => .gp 0

/-- Whether the byte `k` bytes after EIP lies within the code segment limit, on unbounded integers (R94,
R53, R54). -/
def fetchInLimit (s : State) (k : Nat) : Bool :=
  match s.mode with
  | .prot => decide (s.eip.toNat + k ≤ s.segs.cs.limit.toNat)
  | .real => decide (s.eip.toNat + k ≤ 0xFFFF)
  | .v86 => decide (s.eip.toNat + k ≤ 0xFFFF)

/-- The instruction byte `k` bytes after EIP (R80, R94); one that a CALL has written is refused unless the
launch parameter says it is seen (R63; log 12). -/
def fetchByte (s : State) (k : Nat) : Except Stop Byte := do
  require (fetchInLimit s k) (fetchFault s.mode)
  let p ← translate s (linear s.segs.cs s.eip + BitVec.ofNat 32 k) .read s.cpl
  match s.params.pushedCode with
  | .seen => .ok (memRead s.mem p.toNat)
  | .refuse =>
      if s.written.contains p.toNat then refuse .pushedCodeFetched else .ok (memRead s.mem p.toNat)

/-- Up to `n` instruction bytes from the `k`-th on, and why there is no further one. -/
def fetchWindow (s : State) : Nat → Nat → List Byte × Stop
  | 0, _ => ([], .refuse .tooLong)
  | n + 1, k =>
      match fetchByte s k with
      | .error e => ([], e)
      | .ok b => (b :: (fetchWindow s n (k + 1)).1, (fetchWindow s n (k + 1)).2)

/-- How a decoder's answer ends the step: the illegal encodings fault (R90, R92), the others are refused
by name (R87, R89, R92). `more` is why the bytes ended. -/
def decodeFailure (more : Stop) : DecodeStop → Stop
  | .truncated => more
  | .notCall b => .refuse (.notCall b)
  | .notCallDigit r => .refuse (.notCallDigit r)
  | .repeatedPrefix => .refuse .repeatedPrefix
  | .twoOverrides => .refuse .twoOverrides
  | .repPrefix => .refuse .repPrefix
  | .scaledNoIndex => .refuse .scaledNoIndex
  | .invalidOpcode => .fault .ud

/-- Fetch and decode the instruction at CS:EIP: a byte that cannot be fetched stops the step only if the
instruction needs it (R80, R94, R208 (1); log 32). -/
def fetchInstr (s : State) : Except Stop Instr :=
  let w := fetchWindow s 15 0
  match decode s.codeSize w.1 with
  | .ok (i, _) => .ok i
  | .error d => .error (decodeFailure w.2 d)

/-! ## Placing a program (log 5) -/

/-- Put bytes at CS:EIP from the `k`-th on, as a load from outside does: they are not bytes a CALL wrote. -/
def placeBytes (s : State) : Nat → List Byte → State
  | _, [] => s
  | k, b :: bs =>
      match translate s (linear s.segs.cs s.eip + BitVec.ofNat 32 k) .read s.cpl with
      | .ok p =>
          placeBytes { s with mem := memWrite s.mem p.toNat b, written := s.written.filter (· != p.toNat) }
            (k + 1) bs
      | .error _ => placeBytes s (k + 1) bs

end Sys2Proof.Machine
end

