-- ==== Sys2Proof/Machine/Descriptor.lean ====
section
/-! DEFINITION. Selectors, descriptors, gates and the TSS's stack pointers: their layouts (R30 to R35), the
reads of them (R60, R34), the loads of CS and SS (R24) and the accessed bit (R66). A descriptor is its 8
bytes as one number, byte 0 lowest. -/

namespace Sys2Proof.Machine

/-- The 8 bytes of a descriptor (R31), byte 0 in bits 7:0. -/
abbrev Desc := BitVec 64

/-! ## Fields (R31 to R33) -/

/-- The AR byte: byte 5 (R31). -/
def descAr (d : Desc) : Byte := d.extractLsb' 40 8

/-- DPL of a descriptor. -/
def descDpl (d : Desc) : BitVec 2 := arDpl (descAr d)

/-- P of a descriptor. -/
def descPresent (d : Desc) : Bool := arPresent (descAr d)

/-- `DescBase = byte7 ++ byte4 ++ byte3 ++ byte2` (R31). -/
def descBase (d : Desc) : Word := d.extractLsb' 56 8 ++ d.extractLsb' 16 24

/-- The raw limit: `byte6[3:0] ++ byte1 ++ byte0` (R31). -/
def descRawLimit (d : Desc) : BitVec 20 := d.extractLsb' 48 4 ++ d.extractLsb' 0 16

/-- G: limit in bytes or in 4096-byte units (R31). -/
def descGranular (d : Desc) : Bool := d.getLsbD 55

/-- The D bit of a code segment, the B bit of a stack segment: byte 6 bit 6 (R31). -/
def descDb (d : Desc) : Bool := d.getLsbD 54

/-- `DescLimit` (R31). -/
def descLimit (d : Desc) : Word :=
  if descGranular d then descRawLimit d ++ (0xFFF : BitVec 12) else (descRawLimit d).zeroExtend 32

/-- The segment register a descriptor loads: selector, and the hidden part from the descriptor (R24). -/
def segOfDesc (sel : Half) (d : Desc) : Seg := ⟨sel, descBase d, descLimit d, descAr d, descDb d⟩

/-- The selector in a call gate or task gate: bytes 3:2 (R32, R33). -/
def gateSelector (d : Desc) : Half := d.extractLsb' 16 16

/-- The parameter count of a call gate: byte 4 masked to 5 bits (R32). -/
def gateCount (d : Desc) : Nat := (d.extractLsb' 32 5).toNat

/-- Whether a call gate is a 386 call gate, type C, rather than a 286 call gate, type 4 (R31, R32). -/
def gateIs386 (d : Desc) : Bool := arType (descAr d) == 0xC

/-- The entry point of a call gate of size `gs`: offset[31:0], or offset[15:0] zero-extended (R159). A 286
call gate's bytes 7:6 are not used and taken as 0 (R32). -/
def gateEntry (gs : Size) (d : Desc) : Word :=
  let high : Half := if gateIs386 d then d.extractLsb' 48 16 else 0
  cut gs (high ++ (d.extractLsb' 0 16 : Half))

/-! ## Classification (R35) -/

/-- The kinds of descriptor a far call tells apart (R35). -/
inductive DescKind where
  | conformingCode
  | nonConformingCode
  | callGate
  | taskGate
  | tss
  | illegal
  deriving DecidableEq, Repr

/-- `DescKind(ar)` (R35). -/
def descKind (ar : Byte) : DescKind :=
  if arS ar then
    if arCode ar then (if arConforming ar then .conformingCode else .nonConformingCode) else .illegal
  else
    match (arType ar).toNat with
    | 4 => .callGate
    | 0xC => .callGate
    | 5 => .taskGate
    | 1 => .tss
    | 3 => .tss
    | 9 => .tss
    | 0xB => .tss
    | _ => .illegal

/-- An available (nonbusy) TSS: S = 0 and type 1 or 9 (R31, R163 T6, R164 X3). -/
def availableTss (ar : Byte) : Bool := !arS ar && (arType ar == 1 || arType ar == 9)

/-! ## Selectors and tables (R30, R28) -/

/-- The index of a selector (R30). -/
def selIndex (sel : Half) : Nat := (sel.extractLsb' 3 13).toNat

/-- TI, the "local/global bit" (R30). -/
def selLocal (sel : Half) : Bool := sel.getLsbD 2

/-- The error code of a selector: `s AND 0FFFCH` (R207). -/
def ec (sel : Half) : Half := sel &&& 0xFFFC

/-- Within the GDT limits (R30, R163 T5). -/
def selInGdt (s : State) (sel : Half) : Bool := decide (selIndex sel * 8 + 7 ≤ s.gdtr.limit.toNat)

/-- Within its descriptor table limits; an LDTR that holds no table fails (R30, R28, R152, U26).
R28 makes an LDTR loaded with a null selector hold no table. DESIGN CHOICE, unsafe (log 35): the validity bit alone
says whether there is a table; `ldtr.sel` is not read, also where a launch state sets the two against each other. -/
def selInTable (s : State) (sel : Half) : Bool :=
  if selLocal sel then s.ldtr.valid && decide (selIndex sel * 8 + 7 ≤ s.ldtr.limit.toNat)
  else selInGdt s sel

/-- The linear address of the descriptor a selector names (R30). -/
def descAddr (s : State) (sel : Half) : Word :=
  (if selLocal sel then s.ldtr.base else s.gdtr.base) + BitVec.ofNat 32 (selIndex sel * 8)

/-- `ReadDescriptor(sel)`: 8 bytes at the linear address, with supervisor rights (R60, R57). -/
def readDescriptor (s : State) (sel : Half) : Except Stop Desc := do
  let bs ← readBytes s 0 (descAddr s sel) 8
  .ok (BitVec.ofNat 64 (leNat bs))

/-- The accessed bit of a loaded code or data descriptor: byte 5 is written with A = 1 if A was 0, with
supervisor rights (R66, D14; log 19). -/
def setAccessed (s : State) (sel : Half) (d : Desc) : Except Stop State :=
  if arAccessed (descAr d) then .ok s
  else writeBytes s 0 (descAddr s sel + 5) [descAr d ||| 1]

/-! ## Loading CS and SS (R24) -/

/-- A selector with its RPL replaced (R24: "Set RPL of CS to CPL"). -/
def withRpl (sel : Half) (cpl : BitVec 2) : Half := sel.extractLsb' 2 14 ++ cpl

/-- `LoadCS(sel, desc, cpl)` (R24). -/
def loadCs (s : State) (sel : Half) (d : Desc) (cpl : BitVec 2) : State :=
  { s with segs := { s.segs with cs := segOfDesc (withRpl sel cpl) d } }

/-- `LoadSS(sel, desc)` with the stack pointer that goes with it: SP or ESP by the new stack's size (R24,
R161; log 25). -/
def loadSs (s : State) (sel : Half) (d : Desc) (sp : Word) : State :=
  { s with
      segs := { s.segs with ss := segOfDesc sel d }
      regs := setStackPointer (if descDb d then .w32 else .w16) s.regs sp }

/-! ## The stack pointers in the current TSS (R34) -/

/-- The offset in the TSS of level `n`'s stack pointer (R34). -/
def tssSpOffset (k : TssKind) (n : Nat) : Nat :=
  match k with
  | .tss386 => 4 + 8 * n
  | .tss286 => 2 + 4 * n

/-- The offset in the TSS of level `n`'s SS selector (R34). -/
def tssSsOffset (k : TssKind) (n : Nat) : Nat :=
  match k with
  | .tss386 => 8 + 8 * n
  | .tss286 => 4 + 4 * n

/-- The number of bytes of a stack pointer in the TSS (R34). -/
def tssSpBytes : TssKind → Nat
  | .tss386 => 4
  | .tss286 => 2

/-- "Get new SS selector for new privilege level from TSS": selector and stack pointer of level `n`, at
linear addresses with supervisor rights; `#TS(TR.selector)` if they lie beyond the TSS (R34, R160, R57). -/
def tssStack (s : State) (n : Nat) : Except Stop (Half × Word) := do
  require (decide (tssSsOffset s.tr.kind n + 1 ≤ s.tr.limit.toNat)) (.ts (ec s.tr.sel))
  let sp ← readWord s 0 (s.tr.base + BitVec.ofNat 32 (tssSpOffset s.tr.kind n)) (tssSpBytes s.tr.kind)
  let ss ← readWord s 0 (s.tr.base + BitVec.ofNat 32 (tssSsOffset s.tr.kind n)) 2
  .ok (low16 ss, sp)

end Sys2Proof.Machine
end

