-- ==== Sys2Proof/Machine/Operands.lean ====
section
/-! DEFINITION. Every operand form: the effective address and segment of a memory operand (R86 to R88), the
near operand `r/m16` or `r/m32` (R112, R113) and the far pointer in memory (R137), with the
stack-dependent shapes of R116. -/

namespace Sys2Proof.Machine

/-! ## Effective addresses -/

/-- `x16[i]` (R21). -/
def Regs.get16 (r : Regs) (i : Reg) : Half := low16 (r.get i)

/-- The register sum of a 16-bit effective address (R86). -/
def base16Value (r : Regs) : Base16 → Half
  | .bxSi => r.get16 .ebx + r.get16 .esi
  | .bxDi => r.get16 .ebx + r.get16 .edi
  | .bpSi => r.get16 .ebp + r.get16 .esi
  | .bpDi => r.get16 .ebp + r.get16 .edi
  | .si => r.get16 .esi
  | .di => r.get16 .edi
  | .bp => r.get16 .ebp
  | .bx => r.get16 .ebx

/-- The displacement of a 16-bit effective address; `disp8` is sign-extended (R86). -/
def disp16Value : Disp16 → Half
  | .none => 0
  | .d8 d => d.signExtend 16
  | .d16 d => d

/-- The displacement of a 32-bit effective address; `disp8` is sign-extended (R87). -/
def disp32Value : Disp32 → Word
  | .none => 0
  | .d8 d => d.signExtend 32
  | .d32 d => d

/-- `IndexVal`: the index register shifted left by the scale; 0 without an index (R87). -/
def indexValue (r : Regs) (scale : BitVec 2) : Option Reg → Word
  | none => 0
  | some i => r.get i <<< scale.toNat

/-- The effective address of a memory operand: modulo 2^16 and zero-extended for the 16-bit forms (R86),
modulo 2^32 for the 32-bit forms (R87). -/
def effectiveAddress (r : Regs) : Mem → Word
  | .direct16 d => zext32 d
  | .based16 b d => zext32 (base16Value r b + disp16Value d)
  | .direct32 d => d
  | .based32 i d => r.get i + disp32Value d
  | .sib scale index base d => r.get base + indexValue r scale index + disp32Value d
  | .sibNoBase scale index d => indexValue r scale index + d

/-- The default segment of a 16-bit register sum: SS for the BP forms, but DS for `rm = 6` with `mod = 0`,
which is `direct16` (R86). -/
def base16Segment : Base16 → SegName
  | .bxSi => .ds
  | .bxDi => .ds
  | .bpSi => .ss
  | .bpDi => .ss
  | .si => .ds
  | .di => .ds
  | .bp => .ss
  | .bx => .ds

/-- The default segment of a 32-bit base register: SS for ESP and EBP (R87). -/
def base32Segment : Reg → SegName
  | .eax => .ds
  | .ecx => .ds
  | .edx => .ds
  | .ebx => .ds
  | .esp => .ss
  | .ebp => .ss
  | .esi => .ds
  | .edi => .ds

/-- The default segment of a memory operand (R86, R87). -/
def defaultSegment : Mem → SegName
  | .direct16 _ => .ds
  | .based16 b _ => base16Segment b
  | .direct32 _ => .ds
  | .based32 r _ => base32Segment r
  | .sib _ _ base _ => base32Segment base
  | .sibNoBase _ _ _ => .ds

/-- The segment of a memory operand: the override, or the default (R88). -/
def operandSegment (p : Prefixes) (m : Mem) : SegName := p.seg.getD (defaultSegment m)

/-! ## Stack-dependent shapes (R116) -/

/-- Whether a memory operand is addressed through ESP (R116). -/
def memUsesEsp : Mem → Bool
  | .direct16 _ => false
  | .based16 _ _ => false
  | .direct32 _ => false
  | .based32 r _ => r == .esp
  | .sib _ _ base _ => base == .esp
  | .sibNoBase _ _ _ => false

/-- `CALL SP`, `CALL ESP` and a memory operand addressed through ESP: three of the four shapes of R116. -/
def rmUsesEsp : Rm → Bool
  | .reg r => r == .esp
  | .mem m => memUsesEsp m

/-- Refuse a stack-dependent shape of a near operand, unless the launch parameter says it is read first (R112,
R113, R116, D12, U18; log 11). -/
def guardShape (s : State) (usesEsp : Bool) : Except Stop Unit :=
  match s.params.stackOperand with
  | .readFirst => .ok ()
  | .refuse => if usesEsp then refuse .stackDependentOperand else .ok ()

/-! ## Reading the operand -/

/-- Where the operand lies in linear memory, for the overlap test of R116. -/
def memRange (s : State) (p : Prefixes) (m : Mem) (n : Nat) : OperandRange :=
  some (linear (s.segs.get (operandSegment p m)) (effectiveAddress s.regs m), n)

/-- `r/m16` or `r/m32`: the register's low half or all of it, or the memory operand through `SegRead`
(R85, R112, R113); read with the stack pointer of before the instruction (R116). -/
def readRm (s : State) (p : Prefixes) (sz : Size) : Rm → Except Stop Word
  | .reg r => .ok (cut sz (s.regs.get r))
  | .mem m => segRead s (operandSegment p m) (effectiveAddress s.regs m) (sizeBytes sz)

/-- The range of a near operand (R116). -/
def rmRange (s : State) (p : Prefixes) (sz : Size) : Rm → OperandRange
  | .reg _ => none
  | .mem m => memRange s p m (sizeBytes sz)

/-- `ReadFarPointer(seg, EA)`: one check over the whole operand of `n + 2` bytes, then the offset and the
selector after it (R137, C3). -/
def readFarPointer (s : State) (p : Prefixes) (sz : Size) (m : Mem) : Except Stop (Half × Word) := do
  let name := operandSegment p m
  let seg := s.segs.get name
  let ea := effectiveAddress s.regs m
  let n := sizeBytes sz
  require (readable s.mode seg ea (n + 2)) (operandFault s.mode name)
  let off ← readWord s s.cpl (linear seg ea) n
  let sel ← readWord s s.cpl (linear seg ea + BitVec.ofNat 32 n) 2
  .ok (low16 sel, off)

end Sys2Proof.Machine
end

