-- ==== Sys2Proof/Machine/FarProtected.lean ====
section
/-! DEFINITION. `FarCallProtected` (42_call_far_protected.md): calls to code segments (R155 to R157), through
call gates (R158 to R162), and the checks of the calls that switch tasks (R163, R164), which end in a
refusal (R165). Checks are made in the order written (R169). -/

namespace Sys2Proof.Machine

/-- What a far call carries from its form to its path: the operand size, NextEIP, and where its pointer
lies if it is in memory. -/
structure FarCtx where
  sz   : Size
  next : Word
  opnd : OperandRange
  deriving DecidableEq, Repr

/-! ## Code segments -/

/-- The writes of a far call that stays on its stack: old CS, return offset, CS and its descriptor, EIP
(R157, R162). -/
def sameStackCommit (s : State) (c : FarCtx) (sz : Size) (sel : Half) (d : Desc) (target : Word) :
    Except Stop State := do
  guardOverlap s c.opnd s.segs.ss.base (s.slots (sizeBytes sz) 2) (sizeBytes sz) s.cpl
  let s1 ← pushSelector s s.cpl sz s.segs.cs.sel
  let s2 ← push s1 s.cpl sz c.next
  let s3 ← setAccessed (loadCs s2 sel d s.cpl) sel d
  .ok (s3.withEip target)

/-- CONFORMING-CODE-SEGMENT: K1 to K4 (R155). -/
def callConforming (s : State) (c : FarCtx) (sel : Half) (d : Desc) (off : Word) :
    Except Stop State := do
  require (descDpl d |>.ule s.cpl) (.gp (ec sel))
  require (descPresent d) (.np (ec sel))
  require (s.room (sizeBytes c.sz) 2) (.ss 0)
  let target := cut c.sz off
  require (decide (target.toNat ≤ (descLimit d).toNat)) (.gp 0)
  sameStackCommit s c c.sz sel d target

/-- NONCONFORMING-CODE-SEGMENT: N1 to N5 (R156). -/
def callNonConforming (s : State) (c : FarCtx) (sel : Half) (d : Desc) (off : Word) :
    Except Stop State := do
  require (selRpl sel |>.ule s.cpl) (.gp (ec sel))
  require (descDpl d == s.cpl) (.gp (ec sel))
  require (descPresent d) (.np (ec sel))
  require (s.room (sizeBytes c.sz) 2) (.ss 0)
  let target := cut c.sz off
  require (decide (target.toNat ≤ (descLimit d).toNat)) (.gp 0)
  sameStackCommit s c c.sz sel d target

/-! ## Call gates -/

/-- The size of a gate call (R159): the operand size and the gate's type agree, or the launch parameter
`GATE_SIZE_RULE` chooses, or the call is refused (D10, U19; log 10). -/
def gateSize (s : State) (osz : Size) (g : Desc) : Except Stop Size :=
  let gt := if gateIs386 g then Size.w32 else Size.w16
  if osz = gt then .ok gt
  else
    match s.params.gateSize with
    | .refuseMixed => refuse .mixedGateSize
    | .operandSize => .ok osz
    | .gateType => .ok gt

/-- SAME-PRIVILEGE: S1, S2 (R162). -/
def callGateSame (s : State) (c : FarCtx) (g : Desc) (csel : Half) (cd : Desc) : Except Stop State := do
  let gs ← gateSize s c.sz g
  require (s.room (sizeBytes gs) 2) (.ss 0)
  let entry := gateEntry gs g
  require (decide (entry.toNat ≤ (descLimit cd).toNat)) (.gp 0)
  sameStackCommit s c gs csel cd entry

/-- The stack pointer of the new stack: a 16-bit one from a 286 TSS is refused for a B = 1 stack, or gets
a free upper half (R161, U8; log 14). -/
def newStackPointer (s : State) (sp : Word) (sd : Desc) : Except Stop (State × Word) :=
  if s.tr.kind = .tss286 ∧ descDb sd then
    match s.params.tss286Wide with
    | .refuse => refuse .tss286WideStack
    | .freeHigh => .ok (s.withDraws (s.draws + 1), Config.espHigh s.draws ++ low16 sp)
  else .ok (s, sp)

/-- The parameters on the old stack, parameter 0 first: `SegRead(old SS, osp + k*g, g)` (R161); a failure is
M9's fault (R160, U7; log 28). -/
def readParams (s : State) (sz : Size) : Nat → Nat → Except Stop (List Word)
  | _, 0 => .ok []
  | k, n + 1 => do
      let v ← segRead s .ss (cut s.stackSize (s.sp + BitVec.ofNat 32 (k * sizeBytes sz))) (sizeBytes sz)
      let vs ← readParams s sz (k + 1) n
      .ok (v :: vs)

/-- The old stack pointer as the value pushed on the new stack. A 16-bit one pushed as a doubleword has a
free upper half (R161; log 16). -/
def oldStackPointer (s : State) (sz : Size) : State × Word :=
  if s.stackSize = .w16 ∧ sz = .w32 then
    (s.withDraws (s.draws + 1), Config.oldSpHigh s.draws ++ low16 s.regs.esp)
  else (s, s.sp)

/-- The privilege the new stack's pushes are translated under: a free choice between the old and the new
CPL (log 9). -/
def newStackCpl (old new : BitVec 2) : BitVec 2 := if Config.newStackAtOldCpl then old else new

/-- MORE-PRIVILEGE, commit phase (R161): SS and its stack pointer, CS, then on the new stack the old SS and
stack pointer, the parameters, the old CS and the return offset; then CPL and EIP. -/
def morePrivilegeCommit (s : State) (c : FarCtx) (gs : Size) (nss : Half) (sd : Desc) (nsp : Word)
    (csel : Half) (cd : Desc) (params : List Word) (entry : Word) : Except Stop State := do
  let newCpl := descDpl cd
  let wcpl := newStackCpl s.cpl newCpl
  let oss := s.segs.ss.sel
  let ocs := s.segs.cs.sel
  let (s0, osp) := oldStackPointer s gs
  let s1 ← setAccessed (loadSs s0 nss sd nsp) nss sd
  let s2 ← setAccessed (loadCs s1 csel cd newCpl) csel cd
  let s3 ← pushSelector s2 wcpl gs oss
  let s4 ← pushAll s3 wcpl gs (osp :: params.reverse)
  let s5 ← pushSelector s4 wcpl gs ocs
  let s6 ← push s5 wcpl gs c.next
  .ok ((s6.withCpl newCpl).withEip entry)

/-- MORE-PRIVILEGE, check phase: the stack from the TSS, M1 to M9 (R160), then the commit (R161). -/
def callGateMore (s : State) (c : FarCtx) (g : Desc) (csel : Half) (cd : Desc) : Except Stop State := do
  let newCpl := descDpl cd
  let (nss, tsp) ← tssStack s newCpl.toNat
  require (!selNull nss) (.ts 0)
  require (selInTable s nss) (.ts (ec nss))
  require (selRpl nss == newCpl) (.ts (ec nss))
  let sd ← readDescriptor s nss
  require (descDpl sd == newCpl) (.ts (ec nss))
  require (arData (descAr sd) && arWritable (descAr sd)) (.ts (ec nss))
  require (descPresent sd) (.ss (ec nss))
  let (s', nsp) ← newStackPointer s tsp sd
  let gs ← gateSize s c.sz g
  let newSz : Size := if descDb sd then .w32 else .w16
  let newSs := segOfDesc nss sd
  let count := gateCount g
  let n := sizeBytes gs
  let entry := gateEntry gs g
  let top := cut newSz nsp
  require (stackRoom .prot newSs newSz n top (4 + count)) (.ss 0)
  require (decide (entry.toNat ≤ (descLimit cd).toNat)) (.gp 0)
  let params ← readParams s' gs 0 count
  guardOverlap s' c.opnd newSs.base (pushSlots newSz n top (4 + count)) n (newStackCpl s.cpl newCpl)
  morePrivilegeCommit s' c gs nss sd nsp csel cd params entry

/-- CALL-GATE: G1 to G8, then the same or more privilege (R158). G8 is applied (U6). -/
def callGate (s : State) (c : FarCtx) (gsel : Half) (g : Desc) : Except Stop State := do
  require (s.cpl |>.ule (descDpl g)) (.gp (ec gsel))
  require (selRpl gsel |>.ule (descDpl g)) (.gp (ec gsel))
  require (descPresent g) (.np (ec gsel))
  let csel := gateSelector g
  require (!selNull csel) (.gp 0)
  require (selInTable s csel) (.gp (ec csel))
  let cd ← readDescriptor s csel
  require (arCode (descAr cd)) (.gp (ec csel))
  require (descDpl cd |>.ule s.cpl) (.gp (ec csel))
  require (descPresent cd) (.np (ec csel))
  if !arConforming (descAr cd) && (descDpl cd).ult s.cpl then callGateMore s c g csel cd
  else callGateSame s c g csel cd

/-! ## Calls that switch tasks -/

/-- TASK-GATE: T1 to T7 (R163), then SWITCH-TASKS, which is refused (R165, D9; log 7). A null TSS selector fails T6
(R163), before any read: R60 defines none for it (log 34). -/
def callTaskGate (s : State) (gsel : Half) (g : Desc) : Except Stop State := do
  require (s.cpl |>.ule (descDpl g)) (.ts (ec gsel))
  require (selRpl gsel |>.ule (descDpl g)) (.ts (ec gsel))
  require (descPresent g) (.np (ec gsel))
  let tsel := gateSelector g
  require (!selLocal tsel) (.ts (ec tsel))
  require (selInGdt s tsel) (.ts (ec tsel))
  require (!selNull tsel) (.ts (ec tsel))
  let td ← readDescriptor s tsel
  require (availableTss (descAr td)) (.ts (ec tsel))
  require (descPresent td) (.np (ec tsel))
  refuse .taskSwitch

/-- TASK-STATE-SEGMENT: X1 to X4 (R164), then SWITCH-TASKS, which is refused (R165); one found through the
local table is refused (U10; log 26). -/
def callTss (s : State) (tsel : Half) (td : Desc) : Except Stop State := do
  if selLocal tsel then refuse .tssInLdt
  else do
    require (s.cpl |>.ule (descDpl td)) (.ts (ec tsel))
    require (selRpl tsel |>.ule (descDpl td)) (.ts (ec tsel))
    require (availableTss (descAr td)) (.ts (ec tsel))
    require (descPresent td) (.np (ec tsel))
    refuse .taskSwitch

/-! ## Entry -/

/-- Check P3: the path the descriptor's kind selects (R150, R154). -/
def farByKind (s : State) (c : FarCtx) (sel : Half) (off : Word) (d : Desc) : Except Stop State :=
  match descKind (descAr d) with
  | .conformingCode => callConforming s c sel d off
  | .nonConformingCode => callNonConforming s c sel d off
  | .callGate => callGate s c sel d
  | .taskGate => callTaskGate s sel d
  | .tss => callTss s sel d
  | .illegal => raise (.gp (ec sel))

/-- `FarCallProtected(sel, off)`: P1, P2, P3 (R150 to R154). -/
def farProtected (s : State) (c : FarCtx) (sel : Half) (off : Word) : Except Stop State := do
  require (!selNull sel) (.gp 0)
  require (selInTable s sel) (.gp (ec sel))
  let d ← readDescriptor s sel
  farByKind s c sel off d

end Sys2Proof.Machine
end

