-- ==== Sys2Proof/Machine/Far.lean ====
section
/-! DEFINITION. The far calls (41_call_far.md): Real Address Mode and Virtual 8086 Mode (R134), the
dispatch by mode (R136), and a meaning for each of the four forms (R130 to R133). -/

namespace Sys2Proof.Machine

/-- `FarCallRealV86(sel, off)`: C1 room for both pushes, C2 the offset, then old CS, return offset, CS and
EIP (R134). -/
def farReal (s : State) (c : FarCtx) (sel : Half) (off : Word) : Except Stop State := do
  let n := sizeBytes c.sz
  guardOverlap s c.opnd s.segs.ss.base (s.slots n 2) n s.cpl
  require (s.room n 2) (stackFault s.mode)
  require (inCodeLimit s.mode s.segs.cs.limit off) (targetFault s.mode)
  let s1 ← pushSelector s s.cpl c.sz s.segs.cs.sel
  let s2 ← push s1 s.cpl c.sz c.next
  .ok ((loadCsReal s2 sel).withEip off)

/-- Dispatch by mode (R136). -/
def farCall (s : State) (c : FarCtx) (sel : Half) (off : Word) : Except Stop State :=
  match s.mode with
  | .real => farReal s c sel off
  | .v86 => farReal s c sel off
  | .prot => farProtected s c sel off

/-- The far direct call: the pointer is in the instruction (R130, R131). -/
def farDirect (s : State) (sz : Size) (len : Nat) (sel : Half) (off : Word) : Except Stop State := do
  let next ← nextEip s len
  farCall s ⟨sz, next, none⟩ sel off

/-- The far indirect call: the pointer is read completely before anything is pushed, so at the address ESP gives
before the instruction; only a pointer that lies where the call will push is refused (R132, R133, R137).
DEDUCED: a pointer addressed through ESP that lies elsewhere is called (log 11). -/
def farIndirect (s : State) (sz : Size) (len : Nat) (p : Prefixes) (m : Mem) : Except Stop State := do
  let next ← nextEip s len
  let (sel, off) ← readFarPointer s p sz m
  farCall s ⟨sz, next, memRange s p m (sizeBytes sz + 2)⟩ sel off

/-- `CALL ptr16:16` (R130). -/
def execCallPtr1616 (p : Prefixes) (sel off : Half) (s : State) : Host.Outcome State Fault Refusal :=
  toOutcome (farDirect s .w16 (instrLength (.callPtr1616 p sel off)) sel (zext32 off))

/-- `CALL m16:16` (R132). -/
def execCallM1616 (p : Prefixes) (m : Mem) (s : State) : Host.Outcome State Fault Refusal :=
  toOutcome (farIndirect s .w16 (instrLength (.callM1616 p m)) p m)

/-- `CALL ptr16:32` (R131). -/
def execCallPtr1632 (p : Prefixes) (sel : Half) (off : Word) (s : State) :
    Host.Outcome State Fault Refusal :=
  toOutcome (farDirect s .w32 (instrLength (.callPtr1632 p sel off)) sel off)

/-- `CALL m16:32` (R133). -/
def execCallM1632 (p : Prefixes) (m : Mem) (s : State) : Host.Outcome State Fault Refusal :=
  toOutcome (farIndirect s .w32 (instrLength (.callM1632 p m)) p m)

end Sys2Proof.Machine
end

