-- ==== Sys2Proof/Machine/Near.lean ====
section
/-! DEFINITION. The near calls (40_call_near.md): the commit procedure they share (R114) and a meaning for
each of the four forms (R110 to R113). -/

namespace Sys2Proof.Machine

/-- The two checks of a near call: C1 the target in the code limit, C2 room for the push. When both fail
either exception may be reported: a free choice (R114, R115, U3; log 17). -/
def nearCheck (s : State) (sz : Size) (target : Word) : Except Stop Unit :=
  match inCodeLimit s.mode s.segs.cs.limit target, s.room (sizeBytes sz) 1 with
  | true, true => .ok ()
  | false, true => raise (targetFault s.mode)
  | true, false => raise (stackFault s.mode)
  | false, false =>
      if Config.nearTargetFaultFirst s.draws then raise (targetFault s.mode) else raise (stackFault s.mode)

/-- `NearCall(target)`: the checks, then push the return offset and load EIP (R114). -/
def nearCall (s : State) (sz : Size) (next target : Word) : Except Stop State := do
  nearCheck s sz target
  let s' ← push s s.cpl sz next
  .ok (s'.withEip target)

/-- The near relative call: the target is relative to NextEIP, modulo the operand size (R110, R111). -/
def nearRelative (s : State) (sz : Size) (len : Nat) (rel : Word) : Except Stop State := do
  let next ← nextEip s len
  nearCall s sz next (cut sz (next + rel))

/-- The near indirect call: the operand is read, with the stack pointer of before the instruction, then
NearCall (R112, R113, R116). The refusal of an ESP-addressed operand comes before its read (DESIGN CHOICE,
log 26). -/
def nearIndirect (s : State) (sz : Size) (len : Nat) (p : Prefixes) (o : Rm) : Except Stop State := do
  let next ← nextEip s len
  guardShape s (rmUsesEsp o)
  let target ← readRm s p sz o
  guardOverlap s (rmRange s p sz o) s.segs.ss.base (s.slots (sizeBytes sz) 1) (sizeBytes sz) s.cpl
  nearCall s sz next target

/-- `CALL rel16` (R110): `rel16` is sign-extended, the sum taken modulo 2^16. -/
def execCallRel16 (p : Prefixes) (rel : Half) (s : State) : Host.Outcome State Fault Refusal :=
  toOutcome (nearRelative s .w16 (instrLength (.callRel16 p rel)) (rel.signExtend 32))

/-- `CALL r/m16` (R112). -/
def execCallRm16 (p : Prefixes) (o : Rm) (s : State) : Host.Outcome State Fault Refusal :=
  toOutcome (nearIndirect s .w16 (instrLength (.callRm16 p o)) p o)

/-- `CALL rel32` (R111): the sum is taken modulo 2^32. -/
def execCallRel32 (p : Prefixes) (rel : Word) (s : State) : Host.Outcome State Fault Refusal :=
  toOutcome (nearRelative s .w32 (instrLength (.callRel32 p rel)) rel)

/-- `CALL r/m32` (R113). -/
def execCallRm32 (p : Prefixes) (o : Rm) (s : State) : Host.Outcome State Fault Refusal :=
  toOutcome (nearIndirect s .w32 (instrLength (.callRm32 p o)) p o)

end Sys2Proof.Machine
end

