-- ==== Sys2Proof/Machine/Dispatch.lean ====
section
/-! DEFINITION. The meaning of each instruction: one arm per row of spec/opcode_table.json (R81, R95). -/

namespace Sys2Proof.Machine

/-- Run one instruction. -/
def exec (i : Instr) (s : State) : Host.Outcome State Fault Refusal :=
  match i with
  | .callRel16 p rel => Sys2Proof.Machine.execCallRel16 p rel s
  | .callRm16 p o => Sys2Proof.Machine.execCallRm16 p o s
  | .callPtr1616 p sel off => Sys2Proof.Machine.execCallPtr1616 p sel off s
  | .callM1616 p m => Sys2Proof.Machine.execCallM1616 p m s
  | .callRel32 p rel => Sys2Proof.Machine.execCallRel32 p rel s
  | .callRm32 p o => Sys2Proof.Machine.execCallRm32 p o s
  | .callPtr1632 p sel off => Sys2Proof.Machine.execCallPtr1632 p sel off s
  | .callM1632 p m => Sys2Proof.Machine.execCallM1632 p m s

end Sys2Proof.Machine
end

