-- ==== Sys2Proof/Machine/Step.lean ====
section
/-! DEFINITION. One step: the launch checks, the fetch and decode of the instruction at CS:EIP, and its
meaning (R16, R17); and the placing of an instruction where the step fetches it. -/

namespace Sys2Proof.Machine

/-- One step is one whole CALL (R16). -/
def step (s : State) : Host.Outcome State Fault Refusal :=
  match launchCheck s with
  | .error e => toOutcome (.error e)
  | .ok () =>
      match fetchInstr s with
      | .error e => toOutcome (.error e)
      | .ok i => exec i s

/-- `s` with the instruction of a word of the opcode table at CS:EIP, as a program loaded from outside
(log 5). -/
def State.withFetchWord (s : State) (nbits w : Nat) : State := placeBytes s 0 (tableBytes nbits w)

end Sys2Proof.Machine
end

