-- ==== Sys2Proof/Safety.lean ====
section
/-! DEFINITION. The terms claims are stated in: what bytes a call stores and where, the state a push leaves,
when the pushes fit, the invariants of a state, and which parts of a state a call never writes. -/

namespace Sys2Proof.Machine

/-! ## What a call stores -/

/-- Whether an access at a linear address translates (R57). -/
def translatesAt (s : State) (kind : AccessKind) (cpl : BitVec 2) (lin : Word) : Bool :=
  (translate s lin kind cpl).isOk

/-- Whether each of the `n` bytes from `lin` translates (R57). -/
def translates (s : State) (kind : AccessKind) (cpl : BitVec 2) : Word → Nat → Bool
  | _, 0 => true
  | lin, n + 1 => translatesAt s kind cpl lin && translates s kind cpl (lin + 1) n

/-- The physical address and byte of each byte of `bs` stored from linear address `lin` up (R51, R57). -/
def storedCells (s : State) (cpl : BitVec 2) : Word → List Byte → List (Nat × Byte)
  | _, [] => []
  | lin, b :: bs =>
      match translate s lin .write cpl with
      | .ok p => (p.toNat, b) :: storedCells s cpl (lin + 1) bs
      | .error _ => storedCells s cpl (lin + 1) bs

/-- Memory after storing cells in order. -/
def storeMem : Memory → List (Nat × Byte) → Memory
  | m, [] => m
  | m, c :: cs => storeMem (memWrite m c.1 c.2) cs

/-- The written addresses after storing cells. -/
def storeAddrs : List Nat → List (Nat × Byte) → List Nat
  | w, [] => w
  | w, c :: cs => storeAddrs (addrInsert w c.1) cs

/-- The state after storing cells: nothing but memory and the record of written addresses changes. -/
def storeCells (s : State) (cells : List (Nat × Byte)) : State :=
  { s with mem := storeMem s.mem cells, written := storeAddrs s.written cells }

/-- What a byte reads as after storing cells: the last cell at its address, or what was there (R61). -/
def overlay : List (Nat × Byte) → Byte → Nat → Byte
  | [], old, _ => old
  | c :: cs, old, a => overlay cs (if c.1 = a then c.2 else old) a

/-- The state after pushing the bytes of one value: they lie below the old stack pointer in SS, and the
stack pointer names the lowest of them (R56). -/
def pushedState (s : State) (cpl : BitVec 2) (bs : List Byte) : State :=
  let t := stackDown s.stackSize s.sp bs.length
  (storeCells s (storedCells s cpl (linear s.segs.ss t) bs)).withRegs
    (setStackPointer s.stackSize s.regs t)

/-- The state after pushing several values, in order. -/
def pushedStates (s : State) (cpl : BitVec 2) : List (List Byte) → State
  | [] => s
  | bs :: rest => pushedStates (pushedState s cpl bs) cpl rest

/-- The `k` next pushes of `n` bytes fit in the current stack segment (R65) and translate (R57). -/
def pushFits (s : State) (cpl : BitVec 2) (n k : Nat) : Bool :=
  s.room n k && (s.slots n k).all fun off => translates s .write cpl (linear s.segs.ss off) n

/-- The bytes of a pushed selector: the selector, below 16 unspecified bits when 4 bytes are pushed; `n` is
the number of the draw (R56, D11). -/
def selectorBytes (n : Nat) (sz : Size) (sel : Half) : List Byte :=
  match sz with
  | .w16 => bytesOfHalf sel
  | .w32 => bytesOfWord (Config.pad n ++ sel)

/-- How many free values the push of a selector draws (R56). -/
def selectorDraws : Size → Nat
  | .w16 => 0
  | .w32 => 1

/-- The state after a far call's two pushes on the current stack: the old CS, then the return offset (R134,
R157, R162). -/
def farPushedState (s : State) (sz : Size) (next : Word) : State :=
  (pushedStates s s.cpl [selectorBytes s.draws sz s.segs.cs.sel, bytesOf sz next]).withDraws
    (s.draws + selectorDraws sz)

/-- The state after the accessed bit of a loaded descriptor is set (R66). -/
def accessedState (s : State) (sel : Half) (d : Desc) : State :=
  if arAccessed (descAr d) then s
  else storeCells s (storedCells s 0 (descAddr s sel + 5) [descAr d ||| 1])

/-- The accessed bit is set already, or the byte that holds it translates for writing (R66, R57). -/
def accessedFits (s : State) (sel : Half) (d : Desc) : Bool :=
  arAccessed (descAr d) || translatesAt s .write 0 (descAddr s sel + 5)

/-- The state a far call in Protected Mode leaves when it stays on its stack (R157, R162). -/
def sameStackState (s : State) (sz : Size) (next : Word) (sel : Half) (d : Desc) (target : Word) : State :=
  (accessedState (loadCs (farPushedState s sz next) sel d s.cpl) sel d).withEip target

/-- SS, its stack pointer and CS loaded for a call to more privilege, with their accessed bits (R161). -/
def switchedState (s : State) (nss : Half) (sd : Desc) (nsp : Word) (csel : Half) (cd : Desc) : State :=
  accessedState (loadCs (accessedState (loadSs s nss sd nsp) nss sd) csel cd (descDpl cd)) csel cd

/-- The bytes a call to more privilege pushes on the new stack, first pushed first: old SS, old stack
pointer, the parameters from the last to parameter 0, old CS, the return offset (R161). -/
def morePrivilegePushes (s : State) (d : Nat) (gs : Size) (osp : Word) (params : List Word) (next : Word) :
    List (List Byte) :=
  [selectorBytes d gs s.segs.ss.sel, bytesOf gs osp] ++ params.reverse.map (bytesOf gs) ++
    [selectorBytes (d + selectorDraws gs) gs s.segs.cs.sel, bytesOf gs next]

/-- The state a call to more privilege leaves (R161). -/
def morePrivilegeState (s : State) (gs : Size) (next : Word) (nss : Half) (sd : Desc) (nsp : Word)
    (csel : Half) (cd : Desc) (params : List Word) (entry : Word) : State :=
  let s0 := (oldStackPointer s gs).1
  let pushes := morePrivilegePushes s s0.draws gs (oldStackPointer s gs).2 params next
  (((pushedStates (switchedState s0 nss sd nsp csel cd) (newStackCpl s.cpl (descDpl cd)) pushes).withDraws
    (s0.draws + 2 * selectorDraws gs)).withCpl (descDpl cd)).withEip entry

/-- The writes of a call to more privilege translate and its pushes fit in the new stack (R160 M7, R161,
R57); `k` is the number of pushes. -/
def morePrivilegeFits (s : State) (n k : Nat) (nss : Half) (sd : Desc) (nsp : Word) (csel : Half)
    (cd : Desc) : Bool :=
  accessedFits s nss sd && accessedFits s csel cd &&
    pushFits (switchedState s nss sd nsp csel cd) (newStackCpl s.cpl (descDpl cd)) n k

/-- A near call: one of the four forms that change no segment register (R117). -/
def isNear : Instr → Bool
  | .callRel16 _ _ => true
  | .callRm16 _ _ => true
  | .callPtr1616 _ _ _ => false
  | .callM1616 _ _ => false
  | .callRel32 _ _ => true
  | .callRm32 _ _ => true
  | .callPtr1632 _ _ _ => false
  | .callM1632 _ _ => false

/-- A near operand is not refused as stack-dependent by its shape (R116): the launch parameter says operands
are read first, or no ESP is in it. -/
def shapeAllowed (s : State) (usesEsp : Bool) : Bool :=
  s.params.stackOperand == .readFirst || !usesEsp

/-- The operand is not refused as overlapping what `k` pushes of `n` bytes on the current stack write
(R116, R132). -/
def overlapAllowed (s : State) (opnd : OperandRange) (n k : Nat) : Bool :=
  s.params.stackOperand == .readFirst || !operandOverlaps s opnd s.segs.ss.base (s.slots n k) n s.cpl

/-- The absolute or relative target of a near call, with its operand size, when its operand can be read and
is not refused as stack-dependent (R110 to R113, R116); `next` is NextEIP. -/
def nearForm (s : State) (next : Word) : Instr → Option (Size × Word)
  | .callRel16 _ rel => some (.w16, zext32 (low16 next + rel))
  | .callRel32 _ rel => some (.w32, next + rel)
  | .callRm16 p o =>
      match shapeAllowed s (rmUsesEsp o), readRm s p .w16 o with
      | true, .ok v => if overlapAllowed s (rmRange s p .w16 o) 2 1 then some (.w16, v) else none
      | _, _ => none
  | .callRm32 p o =>
      match shapeAllowed s (rmUsesEsp o), readRm s p .w32 o with
      | true, .ok v => if overlapAllowed s (rmRange s p .w32 o) 4 1 then some (.w32, v) else none
      | _, _ => none
  | .callPtr1616 _ _ _ => none
  | .callM1616 _ _ => none
  | .callPtr1632 _ _ _ => none
  | .callM1632 _ _ => none

/-- The far pointer of a far call, with its operand size and where it lies in memory, when it can be
read (R130 to R133, R137). -/
def farForm (s : State) : Instr → Option (Size × Half × Word × OperandRange)
  | .callPtr1616 _ sel off => some (.w16, sel, zext32 off, none)
  | .callPtr1632 _ sel off => some (.w32, sel, off, none)
  | .callM1616 p m =>
      match readFarPointer s p .w16 m with
      | .ok ptr => some (.w16, ptr.1, ptr.2, memRange s p m 4)
      | .error _ => none
  | .callM1632 p m =>
      match readFarPointer s p .w32 m with
      | .ok ptr => some (.w32, ptr.1, ptr.2, memRange s p m 6)
      | .error _ => none
  | .callRel16 _ _ => none
  | .callRm16 _ _ => none
  | .callRel32 _ _ => none
  | .callRm32 _ _ => none

/-- A far call in Protected Mode: NextEIP is `next`, and the pointer read is `sel:off` (R136, R150). -/
def farInProt (s : State) (i : Instr) (next : Word) (sz : Size) (sel : Half) (off : Word)
    (opnd : OperandRange) : Prop :=
  s.mode = .prot ∧ nextEip s (instrLength i) = .ok next ∧ farForm s i = some (sz, sel, off, opnd)

/-- The selector is not null and in its table, and `d` is the descriptor it names (R151, R152, R60). -/
def names (s : State) (sel : Half) (d : Desc) : Prop :=
  selNull sel = false ∧ selInTable s sel = true ∧ readDescriptor s sel = .ok d

/-- The current stack takes two pushes of size `sz`, the operand does not overlap them, and the accessed bit
of the descriptor can be written (R65, R57, R66, R132). -/
def sameStackFits (s : State) (opnd : OperandRange) (sz : Size) (sel : Half) (d : Desc) : Bool :=
  overlapAllowed s opnd (sizeBytes sz) 2 && pushFits s s.cpl (sizeBytes sz) 2 && accessedFits s sel d

/-- The bytes `bs` are the instruction bytes from CS:EIP on, and each can be fetched (R80, R94). -/
def fetchable (s : State) (bs : List Byte) : Prop :=
  ∀ k b, bs[k]? = some b → fetchByte s k = .ok b

/-- The checks of a call gate before its code segment's descriptor is read: G1 to G5 (R158). -/
def gateOpen (s : State) (gsel : Half) (g : Desc) : Bool :=
  s.cpl.ule (descDpl g) && (selRpl gsel).ule (descDpl g) && descPresent g &&
    !selNull (gateSelector g) && selInTable s (gateSelector g)

/-- The checks of a call gate's code segment: G6 to G8 (R158). -/
def gateCodeOk (s : State) (cd : Desc) : Bool :=
  arCode (descAr cd) && (descDpl cd).ule s.cpl && descPresent cd

/-- The call goes to more privilege: the code segment is non-conforming and its DPL is below CPL (R158). -/
def toMorePrivilege (s : State) (cd : Desc) : Bool :=
  !arConforming (descAr cd) && (descDpl cd).ult s.cpl

/-- The checks of the new stack's descriptor: M4 to M6 (R160). -/
def stackDescOk (cd sd : Desc) : Bool :=
  descDpl sd == descDpl cd && (arData (descAr sd) && arWritable (descAr sd)) && descPresent sd

/-- The stack address size of the stack a descriptor gives (R160). -/
def descStackSize (sd : Desc) : Size := if descDb sd then .w32 else .w16

/-- A call gate to more privilege: the selector names the call gate `g`, which is open, and `g` names the present
non-conforming code segment `cd`, of a DPL below CPL (R158). -/
def gateToMore (s : State) (sel : Half) (g cd : Desc) : Prop :=
  names s sel g ∧ descKind (descAr g) = .callGate ∧ gateOpen s sel g = true ∧ names s (gateSelector g) cd ∧
    gateCodeOk s cd = true ∧ toMorePrivilege s cd = true

/-- The checks of a direct call to a code segment before those of the stack and the target: K1, K2 of a
conforming segment (R155), N1 to N3 of another one (R156). -/
def codeCallOk (s : State) (sel : Half) (d : Desc) : Prop :=
  descPresent d = true ∧
    ((descKind (descAr d) = .conformingCode ∧ (descDpl d).ule s.cpl = true) ∨
      (descKind (descAr d) = .nonConformingCode ∧ (selRpl sel).ule s.cpl = true ∧ descDpl d = s.cpl))

/-- M7: the new stack has room for the parameters and the four other pushes (R160). -/
def newStackRoom (gs : Size) (count : Nat) (nss : Half) (sd : Desc) (nsp : Word) : Bool :=
  stackRoom .prot (segOfDesc nss sd) (descStackSize sd) (sizeBytes gs) (cut (descStackSize sd) nsp) (4 + count)

/-- The operand does not overlap what is pushed on the new stack (R132). -/
def newStackOverlapAllowed (s : State) (opnd : OperandRange) (gs : Size) (count : Nat)
    (cd sd : Desc) (nsp : Word) : Bool :=
  s.params.stackOperand == .readFirst || !operandOverlaps s opnd (descBase sd)
    (pushSlots (descStackSize sd) (sizeBytes gs) (cut (descStackSize sd) nsp) (4 + count)) (sizeBytes gs)
    (newStackCpl s.cpl (descDpl cd))

/-! ## Accesses that do not translate -/

/-- Why an access that does not translate stops the step: `#PF` when `Translate` is supplied, the refusal
when it is not (R57, R205, D8, U24). -/
def noPage (s : State) : Stop :=
  match s.params.translation with
  | none => .refuse .translateNotSupplied
  | some _ => .fault .pf

/-- A step that meets an access that does not translate (R57, R205). -/
def pageStop (s : State) : Host.Outcome State Fault Refusal := toOutcome (.error (noPage s))

/-- The offset of parameter `k` of a gate call on the old stack: `osp + k * gs/8` in the old stack's address
size (R161; log 28). -/
def paramOffset (s : State) (gs : Size) (k : Nat) : Word :=
  cut s.stackSize (s.sp + BitVec.ofNat 32 (k * sizeBytes gs))

/-- Parameter `k` of a gate call lies in the old stack segment (R55, R160 M9). -/
def paramReadable (s : State) (gs : Size) (k : Nat) : Bool :=
  readable s.mode s.segs.ss (paramOffset s gs k) (sizeBytes gs)

/-- The bytes of parameter `k` of a gate call translate (R57). -/
def paramTranslates (s : State) (gs : Size) (k : Nat) : Bool :=
  translates s .read s.cpl (linear s.segs.ss (paramOffset s gs k)) (sizeBytes gs)

/-! ## Invariants -/

/-- The addresses are at least `lo` and strictly rising. -/
def addrsSorted : Nat → List Nat → Bool
  | _, [] => true
  | lo, a :: as => decide (lo ≤ a) && addrsSorted (a + 1) as

/-- Memory and the record of written addresses are in canonical form. -/
def storageCanonical (s : State) : Prop := Memory.wf s.mem = true ∧ addrsSorted 0 s.written = true

/-- CPL agrees with CS and SS in Protected Mode, is 3 in Virtual 8086 Mode and 0 in Real Address Mode
(R25, D25). -/
def privilegeCoherent (s : State) : Prop :=
  match s.mode with
  | .prot => selRpl s.segs.cs.sel = s.cpl ∧ selRpl s.segs.ss.sel = s.cpl
  | .v86 => s.cpl = 3
  | .real => s.cpl = 0

/-- The segment limits of Real Address Mode and Virtual 8086 Mode (R54, R231). -/
def realLimitsHold (s : State) : Prop := s.mode ≠ .prot → realLimits s.segs = true

/-! ## Frames -/

/-- What no CALL writes: the flags and control registers, the table registers, TR, the debug registers, the
launch parameters (R26 to R29, R39, R166, R214). -/
def sameSystem (s t : State) : Prop :=
  t.eflags = s.eflags ∧ t.cr0 = s.cr0 ∧ t.cr2 = s.cr2 ∧ t.cr3 = s.cr3 ∧ t.gdtr = s.gdtr ∧ t.idtr = s.idtr ∧
    t.ldtr = s.ldtr ∧ t.tr = s.tr ∧ t.dr = s.dr ∧ t.params = s.params

/-- Every general register but ESP is unchanged (R21). -/
def sameRegsButEsp (s t : State) : Prop := ∀ r : Reg, r ≠ .esp → t.regs.get r = s.regs.get r

/-- The data segment registers are unchanged (R23, R161). -/
def sameDataSegs (s t : State) : Prop :=
  t.segs.es = s.segs.es ∧ t.segs.ds = s.segs.ds ∧ t.segs.fs = s.segs.fs ∧ t.segs.gs = s.segs.gs

end Sys2Proof.Machine
end

