-- ==== Sys2Proof/Certificates/Slice0/Obligations.lean ====
section
/-! DEFINITION. The statements for the provers, from the numbered rules of spec/. -/

open Sys2Proof Sys2Proof.Machine

/-! ## Reset, launch and fetch -/

/-- R36: the values it gives for reset, and the linear address of the first fetch. That EAX is 0 is the model's choice:
R36 gives 0 if the self-test passed, and the model takes it as passed (DESIGN CHOICE, log 1). -/
def Obligations.ResetHoldsTheValuesOfTheTable : Prop :=
  let s := State.reset
  s.eip = 0xFFF0 ∧ s.segs.cs.sel = 0xF000 ∧ s.segs.cs.base = 0xFFFF0000 ∧ s.segs.cs.limit = 0xFFFF ∧
  (∀ n : SegName, n ≠ .cs →
    (s.segs.get n).sel = 0 ∧ (s.segs.get n).base = 0 ∧ (s.segs.get n).limit = 0xFFFF) ∧
  s.pe = false ∧ s.pg = false ∧ s.eflags.extractLsb' 0 18 = 2 ∧ s.cpl = 0 ∧
  s.idtr.base = 0 ∧ s.idtr.limit = 0x3FF ∧ s.regs.eax = 0 ∧ s.mode = .real ∧
  linear s.segs.cs s.eip = 0xFFFFFFF0

/-- The three invariants below hold at reset (R25, R54, log 4). -/
def Obligations.ResetMeetsTheInvariants : Prop :=
  storageCanonical State.reset ∧ privilegeCoherent State.reset ∧ realLimitsHold State.reset

/-- R16, R17: when the bytes at CS:EIP decode to an instruction, the step is that instruction's meaning. The `k`-th byte
fetched is the byte of memory at the translation of CS base + EIP + `k`, inside the code limit (R80, R94, R57), and
with the spec's decision for pushed code not one a CALL has written (R63; log 12). The sizes are 16 outside Protected
Mode, which is `PE = 1` and `VM = 0`, and in it those of CS's D bit (R5, R7). -/
def Obligations.StepRunsTheDecodedInstruction : Prop :=
  (∀ (s : State) (bs : List Byte) (i : Instr), launchCheck s = .ok () → fetchable s bs →
    bs.length ≤ 15 → decode s.codeSize bs = .ok (i, []) → step s = exec i s) ∧
  (∀ (s : State) (k : Nat) (b : Byte),
    (fetchInLimit s k = true ↔ s.eip.toNat + k ≤ if s.mode = .prot then s.segs.cs.limit.toNat else 0xFFFF) ∧
    (fetchByte s k = .ok b ↔ fetchInLimit s k = true ∧
      ∃ p, translate s (s.segs.cs.base + s.eip + BitVec.ofNat 32 k) .read s.cpl = .ok p ∧
        (s.params.pushedCode = .refuse → p.toNat ∉ s.written) ∧ b = memRead s.mem p.toNat)) ∧
  (∀ s : State,
    (s.mode = .real ↔ s.cr0.getLsbD 0 = false) ∧
    (s.mode = .v86 ↔ s.cr0.getLsbD 0 = true ∧ s.eflags.getLsbD 17 = true) ∧
    (s.mode = .prot ↔ s.cr0.getLsbD 0 = true ∧ s.eflags.getLsbD 17 = false) ∧
    s.codeSize = if s.mode = .prot ∧ s.segs.cs.db = true then .w32 else .w16)

/-- R90, R92, R89, R87: bytes that decode to no CALL stop the step: illegal encodings with the
invalid-opcode exception, the others refused by name. -/
def Obligations.StepStopsOnWhatIsNoCall : Prop :=
  ∀ (s : State) (bs : List Byte) (d : DecodeStop), launchCheck s = .ok () → fetchable s bs →
    bs.length ≤ 15 → decode s.codeSize bs = .error d → d ≠ .truncated →
    step s = match d with
      | .truncated => .refused .tooLong
      | .notCall b => .refused (.notCall b)
      | .notCallDigit r => .refused (.notCallDigit r)
      | .repeatedPrefix => .refused .repeatedPrefix
      | .twoOverrides => .refused .twoOverrides
      | .repPrefix => .refused .repPrefix
      | .scaledNoIndex => .refused .scaledNoIndex
      | .invalidOpcode => .fault .ud

/-- R94: a CALL one of whose bytes lies beyond the code segment limit is not run: when the bytes `bs` inside it
(none, for one whose first byte is beyond) do not make up an instruction and the next lies beyond, the step is
`#GP(0)` in Protected Mode and Virtual 8086 Mode, whose limit is 0FFFFH, and Interrupt 13 in Real Address Mode. (That
bytes the instruction does not need are never missed is DEDUCED, log 32.) -/
def Obligations.FetchBeyondTheLimitFaults : Prop :=
  ∀ (s : State) (bs : List Byte), launchCheck s = .ok () → fetchable s bs → bs.length < 15 →
    decode s.codeSize bs = .error .truncated →
    (s.mode = .prot → s.segs.cs.limit.toNat < s.eip.toNat + bs.length → step s = .fault (.gp 0)) ∧
    (s.mode = .v86 → 0xFFFF < s.eip.toNat + bs.length → step s = .fault (.gp 0)) ∧
    (s.mode = .real → 0xFFFF < s.eip.toNat + bs.length → step s = .fault .interrupt13)

/-- R7, R54: the launch states the spec refuses are refused by every step, and they are the only ones the check before
the fetch refuses (log 20, log 35). -/
def Obligations.RefusedLaunchStatesDoNotStep : Prop :=
  ∀ s : State,
    (s.pe = false →
      (s.vm = true → step s = .refused .realModeWithVm) ∧
      (s.vm = false → realLimits s.segs = false → step s = .refused .realModeLimit)) ∧
    (realLimits s.segs = true ↔ ∀ n : SegName, (s.segs.get n).limit = 0xFFFF) ∧
    (launchCheck s = .ok () ↔ s.cr0.getLsbD 0 = true ∨
      (s.eflags.getLsbD 17 = false ∧ ∀ n : SegName, (s.segs.get n).limit = 0xFFFF))

/-- R63, D16: with the spec's decision for pushed code, an instruction any of whose bytes a CALL has written is
refused: when the bytes `bs` before that byte (none, for the first) do not make up an instruction. The refusal falls
on the fetch (DESIGN CHOICE, log 12). -/
def Obligations.FetchOfAPushedByteIsRefused : Prop :=
  ∀ (s : State) (bs : List Byte) (p : Word), launchCheck s = .ok () → fetchable s bs → bs.length < 15 →
    decode s.codeSize bs = .error .truncated → fetchInLimit s bs.length = true →
    translate s (linear s.segs.cs s.eip + BitVec.ofNat 32 bs.length) .read s.cpl = .ok p → p.toNat ∈ s.written →
    s.params.pushedCode = .refuse → step s = .refused .pushedCodeFetched

/-! ## Encoding -/

/-- Words written out from the encoding tables (R81 to R92) and the bytes of 95_test_vectors.md; the whole `rm`
column of R86, the register numbers of R21 and the segment overrides of R88 among them. -/
def Obligations.SpecWordsDecode : Prop :=
  decode .w16 [0xE8, 0x34, 0x12] = .ok (.callRel16 ⟨false, false, none⟩ 0x1234, []) ∧
  decode .w32 [0x66, 0xE8, 0x10, 0x00] = .ok (.callRel16 ⟨true, false, none⟩ 0x0010, []) ∧
  decode .w32 [0xE8, 0xFB, 0xFF, 0xFF, 0xFF] = .ok (.callRel32 ⟨false, false, none⟩ 0xFFFFFFFB, []) ∧
  decode .w16 [0xFF, 0xD3] = .ok (.callRm16 ⟨false, false, none⟩ (.reg .ebx), []) ∧
  decode .w16 [0x2E, 0xFF, 0x16, 0x00, 0x30] =
    .ok (.callRm16 ⟨false, false, some .cs⟩ (.mem (.direct16 0x3000)), []) ∧
  decode .w32 [0xFF, 0x14, 0x8D, 0x00, 0x20, 0x40, 0x00] =
    .ok (.callRm32 ⟨false, false, none⟩ (.mem (.sibNoBase 2 (some .ecx) 0x402000)), []) ∧
  decode .w16 [0x9A, 0x78, 0x56, 0x34, 0x12] = .ok (.callPtr1616 ⟨false, false, none⟩ 0x1234 0x5678, []) ∧
  decode .w16 [0x66, 0x9A, 0x78, 0x56, 0x00, 0x00, 0x34, 0x12] =
    .ok (.callPtr1632 ⟨true, false, none⟩ 0x1234 0x5678, []) ∧
  decode .w16 [0xFF, 0x1E, 0x10, 0x00] = .ok (.callM1616 ⟨false, false, none⟩ (.direct16 0x10), []) ∧
  decode .w32 [0xFF, 0x1B] = .ok (.callM1632 ⟨false, false, none⟩ (.based32 .ebx .none), []) ∧
  decode .w16 [0xFF, 0xD8] = .error .invalidOpcode ∧
  decode .w16 [0xF0, 0xE8, 0x00, 0x00] = .error .invalidOpcode ∧
  decode .w16 [0xF3, 0xE8, 0x00, 0x00] = .error .repPrefix ∧
  decode .w32 [0xFF, 0x15, 0x00, 0x20, 0x40, 0x00] =
    .ok (.callRm32 ⟨false, false, none⟩ (.mem (.direct32 0x402000)), []) ∧
  (∀ x ∈ [((0x50 : Byte), Base16.bxSi), (0x51, .bxDi), (0x52, .bpSi), (0x53, .bpDi), (0x54, .si), (0x55, .di),
      (0x56, .bp), (0x57, .bx)],
    decode .w16 [0xFF, x.1, 0x80] = .ok (.callRm16 ⟨false, false, none⟩ (.mem (.based16 x.2 (.d8 0x80))), [])) ∧
  (∀ x ∈ [((0xD0 : Byte), Reg.eax), (0xD1, .ecx), (0xD2, .edx), (0xD3, .ebx), (0xD4, .esp), (0xD5, .ebp),
      (0xD6, .esi), (0xD7, .edi)],
    decode .w32 [0xFF, x.1] = .ok (.callRm32 ⟨false, false, none⟩ (.reg x.2), [])) ∧
  (∀ x ∈ [((0x26 : Byte), SegName.es), (0x2E, .cs), (0x36, .ss), (0x3E, .ds), (0x64, .fs), (0x65, .gs)],
    decode .w16 [x.1, 0xFF, 0x1E, 0x10, 0x00] = .ok (.callM1616 ⟨false, false, some x.2⟩ (.direct16 0x10), []))

/-- Decode and encode agree for every well-formed instruction, whatever follows it (R80 to R92). -/
def Obligations.DecodeOfEncodeIsTheInstruction : Prop :=
  ∀ (i : Instr) (rest : List Byte), i.wellFormed = true →
    decode i.defaultSize (encode i ++ rest) = .ok (i, rest)

/-- What the decoder answers is well-formed, is of the code segment's size, and took exactly its length of
R91 (R91, R94). -/
def Obligations.DecodedInstructionsAreWellFormed : Prop :=
  ∀ (d : Size) (bs rest : List Byte) (i : Instr), decode d bs = .ok (i, rest) →
    i.wellFormed = true ∧ i.defaultSize = d ∧ bs.length = instrLength i + rest.length

/-- The bytes after an instruction do not change what it is (R80). -/
def Obligations.DecodeReadsOnlyTheInstruction : Prop :=
  ∀ (d : Size) (bs rest more : List Byte) (i : Instr), decode d bs = .ok (i, rest) →
    decode d (bs ++ more) = .ok (i, rest ++ more)

/-- R92: the order of distinct bytes before the opcode does not matter. -/
def Obligations.OrderBeforeTheOpcodeDoesNotMatter : Prop :=
  ∀ (d : Size) (before after : List Byte) (a b : Byte) (r : Instr × List Byte),
    (∀ x ∈ before, (prefixByte x).isSome) → (prefixByte a).isSome → (prefixByte b).isSome →
    decode d (before ++ a :: b :: after) = .ok r → decode d (before ++ b :: a :: after) = .ok r

/-- R92, R67: LOCK at any place among the bytes before the opcode of a CALL that carries none, first or last or
between, is the invalid opcode; F2 or F3 there is refused. -/
def Obligations.LockAndRepeatNeverRun : Prop :=
  ∀ (d : Size) (before after rest : List Byte) (i : Instr), (∀ x ∈ before, (prefixByte x).isSome) →
    decode d (before ++ after) = .ok (i, rest) →
    decode d (before ++ 0xF0 :: after) = .error .invalidOpcode ∧
    decode d (before ++ 0xF2 :: after) = .error .repPrefix ∧
    decode d (before ++ 0xF3 :: after) = .error .repPrefix

/-- R89, R90: an opcode byte other than E8, 9A, FF, and a reg field other than 2 or 3, are no CALL; `FF /3`
with `mod = 3` is the invalid opcode. -/
def Obligations.OtherOpcodesAreRefused : Prop :=
  (∀ (d : Size) (b : Byte) (rest : List Byte), prefixByte b = none → b ≠ 0xE8 → b ≠ 0x9A → b ≠ 0xFF →
    decode d (b :: rest) = .error (.notCall b)) ∧
  (∀ (d : Size) (md : BitVec 2) (reg rm : BitVec 3) (rest : List Byte), reg ≠ 2 → reg ≠ 3 →
    decode d (0xFF :: fieldsByte md reg rm :: rest) = .error (.notCallDigit reg)) ∧
  (∀ (d : Size) (rm : BitVec 3) (rest : List Byte),
    decode d (0xFF :: fieldsByte 3 3 rm :: rest) = .error .invalidOpcode)

/-! ## Near calls -/

/-- R94: NextEIP is EIP plus the length modulo 2^32 outside the corner of a 16-bit code segment past 0FFFFH;
in the corner every form is refused, or carries, or wraps, as the launch parameter says (log 13). -/
def Obligations.NextEipOfEveryForm : Prop :=
  ∀ (s : State) (len : Nat),
    (¬ (s.codeSize = .w16 ∧ 0xFFFF < s.eip.toNat + len) →
      nextEip s len = .ok (s.eip + BitVec.ofNat 32 len)) ∧
    (s.codeSize = .w16 → 0xFFFF < s.eip.toNat + len →
      (s.params.nextEip = .carry → nextEip s len = .ok (s.eip + BitVec.ofNat 32 len)) ∧
      (s.params.nextEip = .wrap → nextEip s len = .ok (zext32 (low16 (s.eip + BitVec.ofNat 32 len)))) ∧
      (s.params.nextEip = .refuse → ∀ i : Instr, instrLength i = len →
        exec i s = .refused .nextEipPast64K))

/-- R110: `CALL rel16` completes: the return offset's low half is pushed, the target is taken modulo 2^16. -/
def Obligations.CallRel16Completes : Prop :=
  ∀ (s : State) (p : Prefixes) (rel : Half) (next : Word),
    nextEip s (instrLength (.callRel16 p rel)) = .ok next →
    inCodeLimit s.mode s.segs.cs.limit (zext32 (low16 next + rel)) = true → pushFits s s.cpl 2 1 = true →
    exec (.callRel16 p rel) s =
      .next ((pushedState s s.cpl (bytesOfHalf (low16 next))).withEip (zext32 (low16 next + rel)))

/-- R111: `CALL rel32` completes: NextEIP is pushed whole, the target is taken modulo 2^32. -/
def Obligations.CallRel32Completes : Prop :=
  ∀ (s : State) (p : Prefixes) (rel : Word) (next : Word),
    nextEip s (instrLength (.callRel32 p rel)) = .ok next →
    inCodeLimit s.mode s.segs.cs.limit (next + rel) = true → pushFits s s.cpl 4 1 = true →
    exec (.callRel32 p rel) s =
      .next ((pushedState s s.cpl (bytesOfWord next)).withEip (next + rel))

/-- R112, R116: `CALL r/m16` completes: the target is the register's low half or the word in memory, read
before the push. -/
def Obligations.CallRm16Completes : Prop :=
  ∀ (s : State) (p : Prefixes) (o : Rm) (next v : Word),
    nextEip s (instrLength (.callRm16 p o)) = .ok next →
    shapeAllowed s (rmUsesEsp o) = true →
    (match o with
      | .reg r => v = zext32 (low16 (s.regs.get r))
      | .mem m => segRead s (operandSegment p m) (effectiveAddress s.regs m) 2 = .ok v) →
    overlapAllowed s (rmRange s p .w16 o) 2 1 = true →
    inCodeLimit s.mode s.segs.cs.limit v = true → pushFits s s.cpl 2 1 = true →
    exec (.callRm16 p o) s = .next ((pushedState s s.cpl (bytesOfHalf (low16 next))).withEip v)

/-- R113, R116: `CALL r/m32` completes: the target is the register or the doubleword in memory. -/
def Obligations.CallRm32Completes : Prop :=
  ∀ (s : State) (p : Prefixes) (o : Rm) (next v : Word),
    nextEip s (instrLength (.callRm32 p o)) = .ok next →
    shapeAllowed s (rmUsesEsp o) = true →
    (match o with
      | .reg r => v = s.regs.get r
      | .mem m => segRead s (operandSegment p m) (effectiveAddress s.regs m) 4 = .ok v) →
    overlapAllowed s (rmRange s p .w32 o) 4 1 = true →
    inCodeLimit s.mode s.segs.cs.limit v = true → pushFits s s.cpl 4 1 = true →
    exec (.callRm32 p o) s = .next ((pushedState s s.cpl (bytesOfWord next)).withEip v)

/-- R114, R115: the two checks of every near call. The order of the two when both fail is open (U3); outside
Protected Mode the number of the fault is open (D19, log 18). -/
def Obligations.NearCallChecks : Prop :=
  ∀ (s : State) (i : Instr) (next : Word) (sz : Size) (target : Word),
    nextEip s (instrLength i) = .ok next → nearForm s next i = some (sz, target) →
    (s.mode = .prot →
      (s.segs.cs.limit.toNat < target.toNat → s.room (sizeBytes sz) 1 = true → exec i s = .fault (.gp 0)) ∧
      (target.toNat ≤ s.segs.cs.limit.toNat → s.room (sizeBytes sz) 1 = false →
        exec i s = .fault (.ss 0)) ∧
      (s.segs.cs.limit.toNat < target.toNat → s.room (sizeBytes sz) 1 = false →
        exec i s = .fault (.gp 0) ∨ exec i s = .fault (.ss 0))) ∧
    (s.mode ≠ .prot → 0xFFFF < target.toNat ∨ s.room (sizeBytes sz) 1 = false →
      exec i s = .fault .realLimit)

/-- R55, R115: a memory operand of a near indirect call that fails its segment's check: `#SS(0)` in SS and
`#GP(0)` elsewhere in Protected Mode, Interrupt 13 outside it (in V86 mode as raised, not as delivered, log 24). -/
def Obligations.NearOperandFaults : Prop :=
  ∀ (s : State) (p : Prefixes) (m : Mem) (next : Word), shapeAllowed s (memUsesEsp m) = true →
    (nextEip s (instrLength (.callRm16 p (.mem m))) = .ok next →
      readable s.mode (s.segs.get (operandSegment p m)) (effectiveAddress s.regs m) 2 = false →
      exec (.callRm16 p (.mem m)) s = .fault (match s.mode with
        | .prot => if operandSegment p m = .ss then .ss 0 else .gp 0
        | .real => .interrupt13
        | .v86 => .interrupt13)) ∧
    (nextEip s (instrLength (.callRm32 p (.mem m))) = .ok next →
      readable s.mode (s.segs.get (operandSegment p m)) (effectiveAddress s.regs m) 4 = false →
      exec (.callRm32 p (.mem m)) s = .fault (match s.mode with
        | .prot => if operandSegment p m = .ss then .ss 0 else .gp 0
        | .real => .interrupt13
        | .v86 => .interrupt13))

/-- R57, R205, R208, D8: an access whose address `Translate` does not map ends the step in `#PF` (or, with paging
on and no `Translate` supplied, in the refusal of U24): the instruction's bytes, a near operand, a far pointer, the
push of a near call, the pushes of a far call outside Protected Mode, the descriptor a far call names, and the
writes of a far call that stays on its stack, its accessed bit (a DESIGN CHOICE, log 19) among them. Those of
gates and of the new stack are in CallGateChecks, TaskGateChecks and NewStackChecks. And what `Translate` answers: the
linear address itself unless PE and PG are 1; then what the first mapping supplied that covers the access says (the
form of the mappings is the model's, log 8). -/
def Obligations.UntranslatedAccessesPageFault : Prop :=
  (∀ (s : State) (lin : Word) (kind : AccessKind) (cpl : BitVec 2),
    (s.paging = true ↔ s.cr0.getLsbD 0 = true ∧ s.cr0.getLsbD 31 = true) ∧
    (s.paging = false → translate s lin kind cpl = .ok lin) ∧
    (s.paging = true →
      (s.params.translation = none → translate s lin kind cpl = .error (.refuse .translateNotSupplied)) ∧
      (∀ ms, s.params.translation = some ms →
        translate s lin kind cpl =
          match ms.find? (fun m => decide (m.kind = kind ∧ m.cpl = cpl ∧
            m.lo.toNat ≤ lin.toNat ∧ lin.toNat ≤ m.hi.toNat)) with
          | some m => .ok (m.phys + (lin - m.lo))
          | none => .error (.fault .pf)))) ∧
  (∀ (s : State) (bs : List Byte), launchCheck s = .ok () → fetchable s bs → bs.length < 15 →
    decode s.codeSize bs = .error .truncated → fetchInLimit s bs.length = true →
    translatesAt s .read s.cpl (linear s.segs.cs s.eip + BitVec.ofNat 32 bs.length) = false →
    step s = pageStop s) ∧
  (∀ (s : State) (p : Prefixes) (m : Mem) (next : Word),
    let seg := s.segs.get (operandSegment p m)
    let ea := effectiveAddress s.regs m
    (shapeAllowed s (memUsesEsp m) = true →
      (nextEip s (instrLength (.callRm16 p (.mem m))) = .ok next → readable s.mode seg ea 2 = true →
        translates s .read s.cpl (linear seg ea) 2 = false → exec (.callRm16 p (.mem m)) s = pageStop s) ∧
      (nextEip s (instrLength (.callRm32 p (.mem m))) = .ok next → readable s.mode seg ea 4 = true →
        translates s .read s.cpl (linear seg ea) 4 = false → exec (.callRm32 p (.mem m)) s = pageStop s)) ∧
    (nextEip s (instrLength (.callM1616 p m)) = .ok next → readable s.mode seg ea 4 = true →
      translates s .read s.cpl (linear seg ea) 4 = false → exec (.callM1616 p m) s = pageStop s) ∧
    (nextEip s (instrLength (.callM1632 p m)) = .ok next → readable s.mode seg ea 6 = true →
      translates s .read s.cpl (linear seg ea) 6 = false → exec (.callM1632 p m) s = pageStop s)) ∧
  (∀ (s : State) (i : Instr) (next : Word) (sz : Size) (target : Word),
    nextEip s (instrLength i) = .ok next → nearForm s next i = some (sz, target) →
    inCodeLimit s.mode s.segs.cs.limit target = true → s.room (sizeBytes sz) 1 = true →
    pushFits s s.cpl (sizeBytes sz) 1 = false → exec i s = pageStop s) ∧
  (∀ (s : State) (i : Instr) (next : Word) (sz : Size) (sel : Half) (off : Word) (opnd : OperandRange),
    s.mode ≠ .prot → nextEip s (instrLength i) = .ok next → farForm s i = some (sz, sel, off, opnd) →
    overlapAllowed s opnd (sizeBytes sz) 2 = true → s.room (sizeBytes sz) 2 = true → off.toNat ≤ 0xFFFF →
    pushFits s s.cpl (sizeBytes sz) 2 = false → exec i s = pageStop s) ∧
  (∀ (s : State) (i : Instr) (next : Word) (sz : Size) (sel : Half) (off : Word) (opnd : OperandRange),
    farInProt s i next sz sel off opnd →
    (selNull sel = false → selInTable s sel = true → translates s .read 0 (descAddr s sel) 8 = false →
      exec i s = pageStop s) ∧
    (∀ d, names s sel d → codeCallOk s sel d → s.room (sizeBytes sz) 2 = true →
      (cut sz off).toNat ≤ (descLimit d).toNat → overlapAllowed s opnd (sizeBytes sz) 2 = true →
      sameStackFits s opnd sz sel d = false → exec i s = pageStop s) ∧
    (∀ g cd gs, names s sel g → descKind (descAr g) = .callGate → gateOpen s sel g = true →
      names s (gateSelector g) cd → gateCodeOk s cd = true → toMorePrivilege s cd = false →
      gateSize s sz g = .ok gs → s.room (sizeBytes gs) 2 = true →
      (gateEntry gs g).toNat ≤ (descLimit cd).toNat → overlapAllowed s opnd (sizeBytes gs) 2 = true →
      sameStackFits s opnd gs (gateSelector g) cd = false → exec i s = pageStop s))

/-- R116, R132, D12: with the spec's decision for stack-dependent operands all four shapes are refused: `CALL SP`,
`CALL ESP`, every near operand addressed through ESP, and an operand or far pointer that shares a byte with those
the call pushes. A far pointer addressed through ESP is read as any other (R132; log 11). Where among the checks
the refusal falls is the model's (log 26); an operand that overlaps the pushes on a new stack is in NewStackChecks.
An operand is addressed through ESP when ESP is its register or its base, and overlaps when a byte of it and a byte
pushed translate to the same physical address. -/
def Obligations.StackDependentShapesAreRefused : Prop :=
  (∀ o : Rm, rmUsesEsp o = true ↔ o = .reg .esp ∨ (∃ d, o = .mem (.based32 .esp d)) ∨
    ∃ scale index d, o = .mem (.sib scale index .esp d)) ∧
  (∀ (s : State) (kind : AccessKind) (cpl : BitVec 2) (lin : Word) (n a : Nat),
    a ∈ physAddrs s kind cpl lin n ↔
      ∃ k p, k < n ∧ translate s (lin + BitVec.ofNat 32 k) kind cpl = .ok p ∧ a = p.toNat) ∧
  (∀ (s : State) (opnd : OperandRange) (base : Word) (slots : List Word) (n : Nat) (cpl : BitVec 2),
    operandOverlaps s opnd base slots n cpl = true ↔
      ∃ lin len off a, opnd = some (lin, len) ∧ off ∈ slots ∧ a ∈ physAddrs s .read s.cpl lin len ∧
        a ∈ physAddrs s .write cpl (base + off) n) ∧
  ∀ s : State, s.params.stackOperand = .refuse →
    (∀ (p : Prefixes) (o : Rm) (next : Word), rmUsesEsp o = true →
      (nextEip s (instrLength (.callRm16 p o)) = .ok next →
        exec (.callRm16 p o) s = .refused .stackDependentOperand) ∧
      (nextEip s (instrLength (.callRm32 p o)) = .ok next →
        exec (.callRm32 p o) s = .refused .stackDependentOperand)) ∧
    (∀ (p : Prefixes) (o : Rm) (next v : Word),
      (nextEip s (instrLength (.callRm16 p o)) = .ok next → readRm s p .w16 o = .ok v →
        operandOverlaps s (rmRange s p .w16 o) s.segs.ss.base (s.slots 2 1) 2 s.cpl = true →
        exec (.callRm16 p o) s = .refused .stackDependentOperand) ∧
      (nextEip s (instrLength (.callRm32 p o)) = .ok next → readRm s p .w32 o = .ok v →
        operandOverlaps s (rmRange s p .w32 o) s.segs.ss.base (s.slots 4 1) 4 s.cpl = true →
        exec (.callRm32 p o) s = .refused .stackDependentOperand)) ∧
    (∀ (i : Instr) (next : Word) (sz : Size) (sel : Half) (off : Word) (opnd : OperandRange),
      nextEip s (instrLength i) = .ok next → farForm s i = some (sz, sel, off, opnd) → s.mode ≠ .prot →
      operandOverlaps s opnd s.segs.ss.base (s.slots (sizeBytes sz) 2) (sizeBytes sz) s.cpl = true →
      exec i s = .refused .stackDependentOperand) ∧
    (∀ (i : Instr) (next : Word) (sz : Size) (sel : Half) (off : Word) (opnd : OperandRange),
      farInProt s i next sz sel off opnd →
      (∀ d, names s sel d → codeCallOk s sel d → s.room (sizeBytes sz) 2 = true →
        (cut sz off).toNat ≤ (descLimit d).toNat →
        operandOverlaps s opnd s.segs.ss.base (s.slots (sizeBytes sz) 2) (sizeBytes sz) s.cpl = true →
        exec i s = .refused .stackDependentOperand) ∧
      (∀ g cd gs, names s sel g → descKind (descAr g) = .callGate → gateOpen s sel g = true →
        names s (gateSelector g) cd → gateCodeOk s cd = true → toMorePrivilege s cd = false →
        gateSize s sz g = .ok gs → s.room (sizeBytes gs) 2 = true →
        (gateEntry gs g).toNat ≤ (descLimit cd).toNat →
        operandOverlaps s opnd s.segs.ss.base (s.slots (sizeBytes gs) 2) (sizeBytes gs) s.cpl = true →
        exec i s = .refused .stackDependentOperand))

/-- R117, R39: what a near call leaves alone: every register but ESP (and ESP's upper half on a 16-bit
stack), every segment register, CPL, the system registers, and every byte of memory but the 2 or 4 it
pushes. -/
def Obligations.NearCallFrame : Prop :=
  ∀ (s t : State) (i : Instr), isNear i = true → Memory.wf s.mem = true → exec i s = .next t →
    sameSystem s t ∧ sameRegsButEsp s t ∧ t.segs = s.segs ∧ t.cpl = s.cpl ∧ t.draws = s.draws ∧
    (s.stackSize = .w16 → t.regs.esp.extractLsb' 16 16 = s.regs.esp.extractLsb' 16 16) ∧
    (∀ a, a ∉ physAddrs s .write s.cpl
        (linear s.segs.ss (stackDown s.stackSize s.sp (sizeBytes i.opSize))) (sizeBytes i.opSize) →
      memRead t.mem a = memRead s.mem a)

/-! ## The stack -/

/-- R56, R51, R61: with paging off, the value a push leaves below the old stack pointer is read back at the
new one. -/
def Obligations.PushedValueReadsBack : Prop :=
  ∀ (s : State) (sz : Size) (v : Word), s.paging = false → Memory.wf s.mem = true →
    readWord (pushedState s s.cpl (bytesOf sz v)) s.cpl
      (linear s.segs.ss (pushedState s s.cpl (bytesOf sz v)).sp) (sizeBytes sz) = .ok (cut sz v)

/-- R134, R157, R162, R56: with paging off, the two pushes of a far call leave the return offset at the new
stack pointer and the old CS selector in the slot above it, whatever the padding of a 32-bit push. -/
def Obligations.FarReturnAddressReadsBack : Prop :=
  ∀ (s : State) (sz : Size) (next : Word), s.paging = false → Memory.wf s.mem = true →
    let t := farPushedState s sz next
    t.sp = stackDown s.stackSize s.sp (2 * sizeBytes sz) ∧
    readWord t t.cpl (linear t.segs.ss t.sp) (sizeBytes sz) = .ok (cut sz next) ∧
    readWord t t.cpl (linear t.segs.ss (stackDown s.stackSize s.sp (sizeBytes sz))) 2 =
      .ok (zext32 s.segs.cs.sel)

/-- R54, R56: outside Protected Mode the only pushes without room are those that cross offset 0FFFFH: SP = 1
before 2 bytes, SP = 1, 2 or 3 before 4. -/
def Obligations.RealModePushFailsOnlyAcrossTheTop : Prop :=
  ∀ s : State, s.mode ≠ .prot →
    (s.room 2 1 = false ↔ low16 s.regs.esp = 1) ∧
    (s.room 4 1 = false ↔ low16 s.regs.esp = 1 ∨ low16 s.regs.esp = 2 ∨ low16 s.regs.esp = 3)

/-- R53: the limit check of a code or expand-up segment, and of an expand-down one, on unbounded integers. R55: what
may be read and written: in Protected Mode no null register, no execute-only code segment, and only a writable data
segment to write, within the limit; R54: elsewhere what ends by 0FFFFH. R53, D23: the code limit of a target. R22, R56,
R65: where the pushes to come would lie, modulo the stack's address size, and that there is room for them when each
could be written. -/
def Obligations.LimitChecksDoNotWrap : Prop :=
  (∀ (seg : Seg) (off : Word) (n : Nat), 0 < n →
    (inLimit seg off n = true ↔
      if arData seg.ar = true ∧ arExpandDown seg.ar = true then
        seg.limit.toNat < off.toNat ∧ off.toNat + n ≤ (if seg.db then 2 ^ 32 else 2 ^ 16)
      else off.toNat + n ≤ seg.limit.toNat + 1) ∧
    (readable .prot seg off n = true ↔ 3 < seg.sel.toNat ∧
      ¬ (seg.ar.getLsbD 4 = true ∧ seg.ar.getLsbD 3 = true ∧ seg.ar.getLsbD 1 = false) ∧ inLimit seg off n = true) ∧
    (writable .prot seg off n = true ↔ 3 < seg.sel.toNat ∧
      (seg.ar.getLsbD 4 = true ∧ seg.ar.getLsbD 3 = false ∧ seg.ar.getLsbD 1 = true) ∧ inLimit seg off n = true) ∧
    (∀ md : Mode, md ≠ .prot →
      (readable md seg off n = true ↔ off.toNat + n ≤ 2 ^ 16) ∧
      (writable md seg off n = true ↔ off.toNat + n ≤ 2 ^ 16))) ∧
  (∀ (md : Mode) (limit target : Word),
    inCodeLimit md limit target = true ↔ target.toNat ≤ if md = .prot then limit.toNat else 0xFFFF) ∧
  (∀ (s : State) (n k : Nat),
    (s.stackSize = if s.mode = .prot ∧ s.segs.ss.db = true then .w32 else .w16) ∧
    (s.sp = if s.stackSize = .w32 then s.regs.esp else 0#16 ++ s.regs.esp.extractLsb' 0 16) ∧
    s.slots n k = (List.range k).map (fun j =>
      if s.stackSize = .w32 then s.regs.esp - BitVec.ofNat 32 ((j + 1) * n)
      else 0#16 ++ (s.regs.esp.extractLsb' 0 16 - BitVec.ofNat 16 ((j + 1) * n))) ∧
    (s.room n k = true ↔ ∀ off ∈ s.slots n k, writable s.mode s.segs.ss off n = true))

/-! ## Far calls: the pointer, Real Address Mode and Virtual 8086 Mode -/

/-- R137, R51: with paging off the far pointer is the offset's bytes, least significant first, and the selector's two
bytes after them. R55, R51: a near operand is the 2 or 4 bytes at its segment's base plus its offset, each at its own
translation, least significant first. Where a far pointer lies, as every memory operand: the sums of R86, modulo 2^16, and of R87, modulo 2^32, here
on integers, `disp8` as a signed number and the index times two to the scale; and the segment, the override of R88 or
the default, SS for a base of BP, EBP or ESP and DS otherwise. -/
def Obligations.FarPointerIsOffsetThenSelector : Prop :=
  (∀ (s : State) (p : Prefixes) (m : Mem), s.paging = false →
    let lin := linear (s.segs.get (operandSegment p m)) (effectiveAddress s.regs m)
    let byte := fun k : Nat => memRead s.mem (lin + BitVec.ofNat 32 k).toNat
    (readable s.mode (s.segs.get (operandSegment p m)) (effectiveAddress s.regs m) 4 = true →
      readFarPointer s p .w16 m = .ok (byte 3 ++ byte 2, zext32 (byte 1 ++ byte 0))) ∧
    (readable s.mode (s.segs.get (operandSegment p m)) (effectiveAddress s.regs m) 6 = true →
      readFarPointer s p .w32 m = .ok (byte 5 ++ byte 4, byte 3 ++ byte 2 ++ byte 1 ++ byte 0))) ∧
  (∀ (s : State) (cpl : BitVec 2) (lin : Word) (p : Nat → Word),
    let byte := fun k : Nat => memRead s.mem (p k).toNat
    ((∀ k, k < 2 → translate s (lin + BitVec.ofNat 32 k) .read cpl = .ok (p k)) →
      readWord s cpl lin 2 = .ok (0#16 ++ (byte 1 ++ byte 0))) ∧
    ((∀ k, k < 4 → translate s (lin + BitVec.ofNat 32 k) .read cpl = .ok (p k)) →
      readWord s cpl lin 4 = .ok (byte 3 ++ byte 2 ++ byte 1 ++ byte 0))) ∧
  (∀ (s : State) (name : SegName) (off : Word) (n : Nat), readable s.mode (s.segs.get name) off n = true →
    segRead s name off n = readWord s s.cpl ((s.segs.get name).base + off) n) ∧
  (∀ (r : Regs) (m : Mem),
    let x : Reg → Int := fun q => match q with
      | .eax => r.eax.toNat
      | .ecx => r.ecx.toNat
      | .edx => r.edx.toNat
      | .ebx => r.ebx.toNat
      | .esp => r.esp.toNat
      | .ebp => r.ebp.toNat
      | .esi => r.esi.toNat
      | .edi => r.edi.toNat
    let x16 : Reg → Int := fun q => x q % 2 ^ 16
    let disp16 : Disp16 → Int := fun d => match d with
      | .none => 0
      | .d8 b => b.toInt
      | .d16 h => h.toNat
    let disp32 : Disp32 → Int := fun d => match d with
      | .none => 0
      | .d8 b => b.toInt
      | .d32 w => w.toNat
    let index : BitVec 2 → Option Reg → Int := fun scale i => match i with
      | none => 0
      | some q => x q * 2 ^ scale.toNat
    ((effectiveAddress r m).toNat : Int) = match m with
      | .direct16 d => d.toNat
      | .based16 .bxSi d => (x16 .ebx + x16 .esi + disp16 d) % 2 ^ 16
      | .based16 .bxDi d => (x16 .ebx + x16 .edi + disp16 d) % 2 ^ 16
      | .based16 .bpSi d => (x16 .ebp + x16 .esi + disp16 d) % 2 ^ 16
      | .based16 .bpDi d => (x16 .ebp + x16 .edi + disp16 d) % 2 ^ 16
      | .based16 .si d => (x16 .esi + disp16 d) % 2 ^ 16
      | .based16 .di d => (x16 .edi + disp16 d) % 2 ^ 16
      | .based16 .bp d => (x16 .ebp + disp16 d) % 2 ^ 16
      | .based16 .bx d => (x16 .ebx + disp16 d) % 2 ^ 16
      | .direct32 d => d.toNat
      | .based32 b d => (x b + disp32 d) % 2 ^ 32
      | .sib scale i b d => (x b + index scale i + disp32 d) % 2 ^ 32
      | .sibNoBase scale i d => (index scale i + d.toNat) % 2 ^ 32) ∧
  (∀ (g : Segs) (p : Prefixes) (m : Mem),
    g.get (operandSegment p m) = match p.seg with
      | some .es => g.es
      | some .cs => g.cs
      | some .ss => g.ss
      | some .ds => g.ds
      | some .fs => g.fs
      | some .gs => g.gs
      | none => match m with
        | .direct16 _ => g.ds
        | .based16 b _ => if b = .bpSi ∨ b = .bpDi ∨ b = .bp then g.ss else g.ds
        | .direct32 _ => g.ds
        | .based32 b _ => if b = .ebp ∨ b = .esp then g.ss else g.ds
        | .sib _ _ b _ => if b = .ebp ∨ b = .esp then g.ss else g.ds
        | .sibNoBase _ _ _ => g.ds)

/-- R137, R135: a far pointer that is not wholly inside its segment faults, 4 bytes for `m16:16` and 6 for
`m16:32`; in V86 mode the Interrupt 13 raised is recorded, not what is delivered (log 24). -/
def Obligations.FarPointerFaults : Prop :=
  ∀ (s : State) (p : Prefixes) (m : Mem) (next : Word),
    (nextEip s (instrLength (.callM1616 p m)) = .ok next →
      readable s.mode (s.segs.get (operandSegment p m)) (effectiveAddress s.regs m) 4 = false →
      exec (.callM1616 p m) s = .fault (match s.mode with
        | .prot => if operandSegment p m = .ss then .ss 0 else .gp 0
        | .real => .interrupt13
        | .v86 => .interrupt13)) ∧
    (nextEip s (instrLength (.callM1632 p m)) = .ok next →
      readable s.mode (s.segs.get (operandSegment p m)) (effectiveAddress s.regs m) 6 = false →
      exec (.callM1632 p m) s = .fault (match s.mode with
        | .prot => if operandSegment p m = .ss then .ss 0 else .gp 0
        | .real => .interrupt13
        | .v86 => .interrupt13))

/-- R134, R136, R24: a far call outside Protected Mode completes in every form: old CS and return offset
pushed, CS loaded with base sixteen times the selector, EIP loaded. -/
def Obligations.FarCallOutsideProtectedModeCompletes : Prop :=
  ∀ (s : State) (i : Instr) (next : Word) (sz : Size) (sel : Half) (off : Word) (opnd : OperandRange),
    s.mode ≠ .prot → nextEip s (instrLength i) = .ok next → farForm s i = some (sz, sel, off, opnd) →
    overlapAllowed s opnd (sizeBytes sz) 2 = true → off.toNat ≤ 0xFFFF →
    pushFits s s.cpl (sizeBytes sz) 2 = true →
    ∃ t, exec i s = .next t ∧
      t = { farPushedState s sz next with
            eip := off
            segs := { s.segs with cs := { s.segs.cs with
              sel := sel
              base := zext32 sel * 16
              limit := if s.mode = .v86 then 0xFFFF else s.segs.cs.limit } } }

/-- R134, D19: outside Protected Mode a far call without room for its pushes, or with an offset above 0FFFFH,
faults; the number of the fault is open (log 18). -/
def Obligations.FarCallOutsideProtectedModeFaults : Prop :=
  ∀ (s : State) (i : Instr) (next : Word) (sz : Size) (sel : Half) (off : Word) (opnd : OperandRange),
    s.mode ≠ .prot → nextEip s (instrLength i) = .ok next → farForm s i = some (sz, sel, off, opnd) →
    overlapAllowed s opnd (sizeBytes sz) 2 = true →
    s.room (sizeBytes sz) 2 = false ∨ 0xFFFF < off.toNat → exec i s = .fault .realLimit

/-- R134, R39: what a far call outside Protected Mode leaves alone. -/
def Obligations.FarCallOutsideProtectedModeFrame : Prop :=
  ∀ (s t : State) (i : Instr), isNear i = false → s.mode ≠ .prot → Memory.wf s.mem = true →
    exec i s = .next t →
    sameSystem s t ∧ sameRegsButEsp s t ∧ sameDataSegs s t ∧ t.segs.ss = s.segs.ss ∧ t.cpl = s.cpl ∧
    t.regs.esp.extractLsb' 16 16 = s.regs.esp.extractLsb' 16 16 ∧
    t.segs.cs.ar = s.segs.cs.ar ∧ t.segs.cs.db = s.segs.cs.db ∧
    (∀ a, (∀ off ∈ s.slots (sizeBytes i.opSize) 2,
        a ∉ physAddrs s .write s.cpl (linear s.segs.ss off) (sizeBytes i.opSize)) →
      memRead t.mem a = memRead s.mem a)

/-! ## Far calls in Protected Mode -/

/-- R151: a null selector, bits 15:2 zero, raises `#GP(0)`. -/
def Obligations.NullSelectorFaults : Prop :=
  ∀ (s : State) (i : Instr) (next : Word) (sz : Size) (sel : Half) (off : Word) (opnd : OperandRange),
    farInProt s i next sz sel off opnd → sel.extractLsb' 2 14 = 0 → exec i s = .fault (.gp 0)

/-- R152, R30, R207: a selector outside its table, the LDT when bit 2 is set and the GDT otherwise, raises
`#GP(selector)`, and so does an LDT selector when LDTR holds no table (U26, DEDUCED, log 29). That the code is the
selector with its two low bits clear is the spec's decision D21 (log 33), and that the validity bit alone says whether
LDTR holds a table is the model's choice (log 35). -/
def Obligations.SelectorOutsideItsTableFaults : Prop :=
  ∀ (s : State) (i : Instr) (next : Word) (sz : Size) (sel : Half) (off : Word) (opnd : OperandRange),
    farInProt s i next sz sel off opnd → sel.extractLsb' 2 14 ≠ 0 →
    (if sel.getLsbD 2 then
      s.ldtr.valid = false ∨ s.ldtr.limit.toNat < (sel.extractLsb' 3 13).toNat * 8 + 7
     else s.gdtr.limit.toNat < (sel.extractLsb' 3 13).toNat * 8 + 7) →
    exec i s = .fault (.gp (sel &&& 0xFFFC))

/-- R154, R35: a descriptor that is no code segment, call gate, task gate or TSS raises `#GP(selector)`. -/
def Obligations.IllegalDescriptorFaults : Prop :=
  ∀ (s : State) (i : Instr) (next : Word) (sz : Size) (sel : Half) (off : Word) (opnd : OperandRange)
    (d : Desc), farInProt s i next sz sel off opnd → names s sel d →
    descKind (descAr d) = .illegal → exec i s = .fault (.gp (ec sel))

/-- R35: the classification of an AR byte, and that the present bit is no part of it. That a busy TSS counts
as a TSS is the spec's own inference. And every field the far call reads, in terms of bytes: of a selector (R30), of a
descriptor (R31), of a gate (R32, R33), of the stack pointers of a TSS (R34), and where the bytes of a descriptor and
of a TSS's stack pointer lie: each at its own linear address, read with supervisor rights, byte 0 lowest. That an LDTR's
validity bit alone says whether it holds a table is the model's choice (log 35). -/
def Obligations.DescriptorKinds : Prop :=
  (∀ ar : Byte,
    (descKind ar = .conformingCode ↔ ar.getLsbD 4 = true ∧ ar.getLsbD 3 = true ∧ ar.getLsbD 2 = true) ∧
    (descKind ar = .nonConformingCode ↔ ar.getLsbD 4 = true ∧ ar.getLsbD 3 = true ∧ ar.getLsbD 2 = false) ∧
    (descKind ar = .callGate ↔ ar.getLsbD 4 = false ∧ (arType ar = 4 ∨ arType ar = 0xC)) ∧
    (descKind ar = .taskGate ↔ ar.getLsbD 4 = false ∧ arType ar = 5) ∧
    (descKind ar = .tss ↔ ar.getLsbD 4 = false ∧
      (arType ar = 1 ∨ arType ar = 3 ∨ arType ar = 9 ∨ arType ar = 0xB)) ∧
    (ar.getLsbD 4 = true ∧ ar.getLsbD 3 = false → descKind ar = .illegal) ∧
    (ar.getLsbD 4 = false ∧
      (arType ar = 0 ∨ arType ar = 2 ∨ arType ar = 6 ∨ arType ar = 7 ∨ arType ar = 8 ∨ arType ar = 0xA ∨
        arType ar = 0xD ∨ arType ar = 0xE ∨ arType ar = 0xF) → descKind ar = .illegal) ∧
    descKind (ar ^^^ 0x80) = descKind ar ∧
    (arCode ar = true ↔ ar.getLsbD 4 = true ∧ ar.getLsbD 3 = true) ∧
    (arData ar = true ↔ ar.getLsbD 4 = true ∧ ar.getLsbD 3 = false) ∧
    arConforming ar = ar.getLsbD 2 ∧ arReadable ar = ar.getLsbD 1 ∧ arExpandDown ar = ar.getLsbD 2 ∧
    arWritable ar = ar.getLsbD 1 ∧ arAccessed ar = ar.getLsbD 0 ∧
    (availableTss ar = true ↔ ar.getLsbD 4 = false ∧ (ar.toNat % 16 = 1 ∨ ar.toNat % 16 = 9))) ∧
  (∀ b7 b6 b5 b4 b3 b2 b1 b0 : Byte,
    let d : Desc := b7 ++ b6 ++ b5 ++ b4 ++ b3 ++ b2 ++ b1 ++ b0
    let limit : Nat := b6.toNat % 16 * 65536 + b1.toNat * 256 + b0.toNat
    descAr d = b5 ∧ (descDpl d).toNat = b5.toNat / 32 % 4 ∧ descPresent d = b5.getLsbD 7 ∧
    descBase d = b7 ++ b4 ++ b3 ++ b2 ∧ descDb d = b6.getLsbD 6 ∧
    (descLimit d).toNat = (if b6.getLsbD 7 then limit * 4096 + 4095 else limit) ∧
    gateSelector d = b3 ++ b2 ∧ gateCount d = b4.toNat % 32 ∧
    (gateIs386 d = true ↔ b5.toNat % 16 = 12) ∧
    gateEntry .w16 d = 0#16 ++ (b1 ++ b0) ∧
    gateEntry .w32 d = (if b5.toNat % 16 = 12 then b7 ++ b6 ++ b1 ++ b0 else 0#16 ++ (b1 ++ b0))) ∧
  (∀ (sel : Half) (c : BitVec 2),
    (selNull sel = true ↔ sel.toNat ≤ 3) ∧ (selRpl sel).toNat = sel.toNat % 4 ∧ selLocal sel = sel.getLsbD 2 ∧
    (withRpl sel c).toNat = sel.toNat / 4 * 4 + c.toNat) ∧
  (∀ (s : State) (sel : Half),
    let base : Word := if sel.getLsbD 2 then s.ldtr.base else s.gdtr.base
    (selInTable s sel = true ↔
      if sel.getLsbD 2 then s.ldtr.valid = true ∧ sel.toNat / 8 * 8 + 7 ≤ s.ldtr.limit.toNat
      else sel.toNat / 8 * 8 + 7 ≤ s.gdtr.limit.toNat) ∧
    (selInGdt s sel = true ↔ sel.toNat / 8 * 8 + 7 ≤ s.gdtr.limit.toNat) ∧
    descAddr s sel = base + BitVec.ofNat 32 (sel.toNat / 8 * 8) ∧
    (∀ p : Nat → Word,
      (∀ k, k < 8 → translate s (base + BitVec.ofNat 32 (sel.toNat / 8 * 8 + k)) .read 0 = .ok (p k)) →
      let byte := fun k : Nat => memRead s.mem (p k).toNat
      readDescriptor s sel =
        .ok (byte 7 ++ byte 6 ++ byte 5 ++ byte 4 ++ byte 3 ++ byte 2 ++ byte 1 ++ byte 0))) ∧
  (∀ (s : State) (n : Nat) (p : Nat → Word),
    let byte := fun k : Nat => memRead s.mem (p k).toNat
    (s.tr.kind = .tss386 → 8 * n + 9 ≤ s.tr.limit.toNat →
      (∀ k, 8 * n + 4 ≤ k → k ≤ 8 * n + 9 → translate s (s.tr.base + BitVec.ofNat 32 k) .read 0 = .ok (p k)) →
      tssStack s n = .ok (byte (8 * n + 9) ++ byte (8 * n + 8),
        byte (8 * n + 7) ++ byte (8 * n + 6) ++ byte (8 * n + 5) ++ byte (8 * n + 4))) ∧
    (s.tr.kind = .tss286 → 4 * n + 5 ≤ s.tr.limit.toNat →
      (∀ k, 4 * n + 2 ≤ k → k ≤ 4 * n + 5 → translate s (s.tr.base + BitVec.ofNat 32 k) .read 0 = .ok (p k)) →
      tssStack s n = .ok (byte (4 * n + 5) ++ byte (4 * n + 4), 0#16 ++ (byte (4 * n + 3) ++ byte (4 * n + 2))))) ∧
  (∀ n : Nat,
    tssSpOffset .tss386 n = 8 * n + 4 ∧ tssSsOffset .tss386 n = 8 * n + 8 ∧ tssSpBytes .tss386 = 4 ∧
    tssSpOffset .tss286 n = 4 * n + 2 ∧ tssSsOffset .tss286 n = 4 * n + 4 ∧ tssSpBytes .tss286 = 2)

/-- R155, R157: a far call to a conforming code segment completes, CPL unchanged, when K1 to K4 hold and its
writes fit. That CS gets RPL = CPL on this path is the spec's decision D13 (log 29, unsafe); that the descriptor's
accessed bit is written when it was 0 is a DESIGN CHOICE between R66's two (D14, log 19). -/
def Obligations.ConformingCallCompletes : Prop :=
  ∀ (s : State) (i : Instr) (next : Word) (sz : Size) (sel : Half) (off : Word) (opnd : OperandRange)
    (d : Desc), farInProt s i next sz sel off opnd → names s sel d →
    descKind (descAr d) = .conformingCode → (descDpl d).ule s.cpl = true → descPresent d = true →
    (cut sz off).toNat ≤ (descLimit d).toNat → sameStackFits s opnd sz sel d = true →
    ∃ t, exec i s = .next t ∧ t = sameStackState s sz next sel d (cut sz off) ∧ t.cpl = s.cpl ∧
      t.segs.cs.sel = withRpl sel s.cpl ∧ t.segs.cs.base = descBase d ∧ t.segs.cs.limit = descLimit d ∧
      t.segs.ss = s.segs.ss

/-- R155, R169: the checks of a direct call to a conforming code segment; the first that fails is reported.
The RPL of the selector is not among them. -/
def Obligations.ConformingCallChecks : Prop :=
  ∀ (s : State) (i : Instr) (next : Word) (sz : Size) (sel : Half) (off : Word) (opnd : OperandRange)
    (d : Desc), farInProt s i next sz sel off opnd → names s sel d →
    descKind (descAr d) = .conformingCode →
    (s.cpl.ult (descDpl d) = true → exec i s = .fault (.gp (ec sel))) ∧
    ((descDpl d).ule s.cpl = true →
      (descPresent d = false → exec i s = .fault (.np (ec sel))) ∧
      (descPresent d = true →
        (s.room (sizeBytes sz) 2 = false → exec i s = .fault (.ss 0)) ∧
        (s.room (sizeBytes sz) 2 = true → (descLimit d).toNat < (cut sz off).toNat →
          exec i s = .fault (.gp 0))))

/-- R156, R157, R66: a direct call to a non-conforming code segment: N1 to N5 in order, then the writes of R157
(when the operand is not refused as stack-dependent and the writes translate); CPL does not change. That the
descriptor's accessed bit is written when it was 0 is a DESIGN CHOICE between R66's two (D14, log 19); the codes'
low bits are D21 (log 33). -/
def Obligations.NonConformingCall : Prop :=
  ∀ (s : State) (i : Instr) (next : Word) (sz : Size) (sel : Half) (off : Word) (opnd : OperandRange)
    (d : Desc), farInProt s i next sz sel off opnd → names s sel d →
    descKind (descAr d) = .nonConformingCode →
    (s.cpl.toNat < (selRpl sel).toNat → exec i s = .fault (.gp (ec sel))) ∧
    ((selRpl sel).toNat ≤ s.cpl.toNat → descDpl d ≠ s.cpl → exec i s = .fault (.gp (ec sel))) ∧
    ((selRpl sel).toNat ≤ s.cpl.toNat → descDpl d = s.cpl → descPresent d = false →
      exec i s = .fault (.np (ec sel))) ∧
    ((selRpl sel).toNat ≤ s.cpl.toNat → descDpl d = s.cpl → descPresent d = true →
      s.room (sizeBytes sz) 2 = false → exec i s = .fault (.ss 0)) ∧
    ((selRpl sel).toNat ≤ s.cpl.toNat → descDpl d = s.cpl → descPresent d = true →
      s.room (sizeBytes sz) 2 = true → (descLimit d).toNat < (cut sz off).toNat →
      exec i s = .fault (.gp 0)) ∧
    ((selRpl sel).toNat ≤ s.cpl.toNat → descDpl d = s.cpl → descPresent d = true →
      (cut sz off).toNat ≤ (descLimit d).toNat → sameStackFits s opnd sz sel d = true →
      ∃ t, exec i s = .next t ∧ t = sameStackState s sz next sel d (cut sz off) ∧ t.cpl = s.cpl ∧
        t.segs.cs.sel = withRpl sel s.cpl ∧ t.segs.cs.base = descBase d ∧ t.segs.cs.limit = descLimit d ∧
        t.segs.ss = s.segs.ss ∧ t.eip = cut sz off)

/-- R158, R169: the checks of a call gate; the first that fails is reported. G8 is not on the page (U6, log 29).
A code segment's descriptor that does not translate is `#PF` (R57, R205). -/
def Obligations.CallGateChecks : Prop :=
  ∀ (s : State) (i : Instr) (next : Word) (sz : Size) (gsel : Half) (off : Word) (opnd : OperandRange)
    (g : Desc), farInProt s i next sz gsel off opnd → names s gsel g → descKind (descAr g) = .callGate →
    let csel := gateSelector g
    ((descDpl g).ult s.cpl = true ∨ (descDpl g).ult (selRpl gsel) = true →
      exec i s = .fault (.gp (ec gsel))) ∧
    (s.cpl.ule (descDpl g) = true → (selRpl gsel).ule (descDpl g) = true →
      (descPresent g = false → exec i s = .fault (.np (ec gsel))) ∧
      (descPresent g = true →
        (selNull csel = true → exec i s = .fault (.gp 0)) ∧
        (selNull csel = false → selInTable s csel = false → exec i s = .fault (.gp (ec csel))) ∧
        (selNull csel = false → selInTable s csel = true →
          translates s .read 0 (descAddr s csel) 8 = false → exec i s = pageStop s) ∧
        (∀ cd, names s csel cd →
          (arCode (descAr cd) = false ∨ s.cpl.ult (descDpl cd) = true →
            exec i s = .fault (.gp (ec csel))) ∧
          (arCode (descAr cd) = true → (descDpl cd).ule s.cpl = true → descPresent cd = false →
            exec i s = .fault (.np (ec csel))))))

/-- R162, R159: a call through a gate to the same privilege completes: the pushes are of the gate call's
size, EIP is the gate's entry point, the pointer's offset is not used, CPL does not change. That the code
descriptor's accessed bit is written when it was 0 is a DESIGN CHOICE between R66's two (D14, log 19). -/
def Obligations.SamePrivilegeGateCompletes : Prop :=
  ∀ (s : State) (i : Instr) (next : Word) (sz gs : Size) (gsel : Half) (off : Word) (opnd : OperandRange)
    (g cd : Desc), farInProt s i next sz gsel off opnd → names s gsel g →
    descKind (descAr g) = .callGate → gateOpen s gsel g = true → names s (gateSelector g) cd →
    gateCodeOk s cd = true → toMorePrivilege s cd = false → gateSize s sz g = .ok gs →
    (gateEntry gs g).toNat ≤ (descLimit cd).toNat → sameStackFits s opnd gs (gateSelector g) cd = true →
    ∃ t, exec i s = .next t ∧ t = sameStackState s gs next (gateSelector g) cd (gateEntry gs g) ∧
      t.cpl = s.cpl ∧ t.segs.ss = s.segs.ss ∧ t.eip = gateEntry gs g

/-- R159, R162, D10: the checks of a gate call to the same privilege. One whose operand size and gate type
differ is refused under the spec's default, a launch parameter (log 10); one without room for its two pushes
raises `#SS(0)`; one whose entry point is beyond the limit raises `#GP(0)`. The size of every gate call: the operand
size and the gate type's size, 32 for type C and 16 for type 4, where they agree; where they differ, the one the
launch parameter names, or the refusal. -/
def Obligations.SamePrivilegeGateChecks : Prop :=
  (∀ (s : State) (sz : Size) (g : Desc),
    let gt : Size := if arType (descAr g) = 0xC then .w32 else .w16
    (sz = gt → gateSize s sz g = .ok sz) ∧
    (sz ≠ gt →
      (s.params.gateSize = .refuseMixed → gateSize s sz g = .error (.refuse .mixedGateSize)) ∧
      (s.params.gateSize = .operandSize → gateSize s sz g = .ok sz) ∧
      (s.params.gateSize = .gateType → gateSize s sz g = .ok gt))) ∧
  (∀ (s : State) (i : Instr) (next : Word) (sz : Size) (gsel : Half) (off : Word) (opnd : OperandRange)
    (g cd : Desc), farInProt s i next sz gsel off opnd → names s gsel g →
    descKind (descAr g) = .callGate → gateOpen s gsel g = true → names s (gateSelector g) cd →
    gateCodeOk s cd = true → toMorePrivilege s cd = false →
    (s.params.gateSize = .refuseMixed → (sz = .w16 ↔ gateIs386 g = true) →
      exec i s = .refused .mixedGateSize) ∧
    (∀ gs, gateSize s sz g = .ok gs →
      (s.room (sizeBytes gs) 2 = false → exec i s = .fault (.ss 0)) ∧
      (s.room (sizeBytes gs) 2 = true → (descLimit cd).toNat < (gateEntry gs g).toNat →
        exec i s = .fault (.gp 0))))

/-- R160, R34, R169: the checks of the new stack; the first that fails is reported. Beside the list: a 286 TSS's
pointer for a 32-bit stack is refused under the default parameter (U8, log 14), and so is a gate call whose operand
size and gate type differ (R159, D10, log 10), both after M6 (log 26); a parameter outside the old stack segment is
`#SS(0)` (M9, U7, log 28); an access that does not translate is `#PF` (R57, refused without a `Translate`), the
writes of both descriptors' accessed bits, when 0, among them: that they are written is a DESIGN CHOICE between R66's
two (D14, log 19), and the privilege the pushes translate at is a free value (log 9); an operand that overlaps the
pushes is refused (R132, log 11). -/
def Obligations.NewStackChecks : Prop :=
  ∀ (s : State) (i : Instr) (next : Word) (sz : Size) (gsel : Half) (off : Word) (opnd : OperandRange)
    (g cd : Desc), farInProt s i next sz gsel off opnd → names s gsel g →
    descKind (descAr g) = .callGate → gateOpen s gsel g = true → names s (gateSelector g) cd →
    gateCodeOk s cd = true → toMorePrivilege s cd = true →
    let n := (descDpl cd).toNat
    (s.tr.limit.toNat < tssSsOffset s.tr.kind n + 1 → exec i s = .fault (.ts (ec s.tr.sel))) ∧
    (tssSsOffset s.tr.kind n + 1 ≤ s.tr.limit.toNat →
      translates s .read 0 (s.tr.base + BitVec.ofNat 32 (tssSpOffset s.tr.kind n)) (tssSpBytes s.tr.kind) = false ∨
        translates s .read 0 (s.tr.base + BitVec.ofNat 32 (tssSsOffset s.tr.kind n)) 2 = false →
      exec i s = pageStop s) ∧
    (∀ nss tsp, tssStack s n = .ok (nss, tsp) →
      (selNull nss = true → exec i s = .fault (.ts 0)) ∧
      (selNull nss = false → selInTable s nss = false ∨ selRpl nss ≠ descDpl cd →
        exec i s = .fault (.ts (ec nss))) ∧
      (selNull nss = false → selInTable s nss = true → selRpl nss = descDpl cd →
        translates s .read 0 (descAddr s nss) 8 = false → exec i s = pageStop s) ∧
      (∀ sd, names s nss sd → selRpl nss = descDpl cd →
        (descDpl sd ≠ descDpl cd ∨ (arData (descAr sd) && arWritable (descAr sd)) = false →
          exec i s = .fault (.ts (ec nss))) ∧
        (descDpl sd = descDpl cd → (arData (descAr sd) && arWritable (descAr sd)) = true →
          descPresent sd = false → exec i s = .fault (.ss (ec nss))) ∧
        (stackDescOk cd sd = true →
          (s.tr.kind = .tss286 → descDb sd = true → s.params.tss286Wide = .refuse →
            exec i s = .refused .tss286WideStack) ∧
          (∀ s' nsp, newStackPointer s tsp sd = .ok (s', nsp) →
            (s.params.gateSize = .refuseMixed → (sz = .w16 ↔ gateIs386 g = true) →
              exec i s = .refused .mixedGateSize) ∧
            (∀ gs, gateSize s sz g = .ok gs →
              (newStackRoom gs (gateCount g) nss sd nsp = false → exec i s = .fault (.ss 0)) ∧
              (newStackRoom gs (gateCount g) nss sd nsp = true →
                (descLimit cd).toNat < (gateEntry gs g).toNat → exec i s = .fault (.gp 0)) ∧
              (newStackRoom gs (gateCount g) nss sd nsp = true →
                (gateEntry gs g).toNat ≤ (descLimit cd).toNat →
                (∀ k, k < gateCount g →
                  (∀ j, j < k → paramReadable s gs j = true ∧ paramTranslates s gs j = true) →
                  (paramReadable s gs k = false → exec i s = .fault (.ss 0)) ∧
                  (paramReadable s gs k = true → paramTranslates s gs k = false → exec i s = pageStop s)) ∧
                (∀ params, readParams s' gs 0 (gateCount g) = .ok params →
                  (newStackOverlapAllowed s' opnd gs (gateCount g) cd sd nsp = false →
                    exec i s = .refused .stackDependentOperand) ∧
                  (newStackOverlapAllowed s' opnd gs (gateCount g) cd sd nsp = true →
                    morePrivilegeFits (oldStackPointer s' gs).1 (sizeBytes gs) (4 + gateCount g) nss sd nsp
                      (gateSelector g) cd = false → exec i s = pageStop s))))))))

/-- R160, R161: a call through a gate to more privilege completes: the stack of the TSS, the old stack
pointer, the parameters in their order, the return address, and CPL the code segment's DPL. The model's own in it:
both descriptors' accessed bits are written when 0 (DESIGN CHOICE, log 19), ESP's upper half stays on a 16-bit new
stack (DEDUCED, log 25), the parameters' addresses wrap in the old stack's address size (log 28). What
newStackPointer, oldStackPointer and readParams answer is in MorePrivilegeStateFields. -/
def Obligations.MorePrivilegeGateCompletes : Prop :=
  ∀ (s s' : State) (i : Instr) (next : Word) (sz gs : Size) (gsel nss : Half) (off tsp nsp : Word)
    (opnd : OperandRange) (g cd sd : Desc) (params : List Word),
    farInProt s i next sz gsel off opnd → names s gsel g →
    descKind (descAr g) = .callGate → gateOpen s gsel g = true → names s (gateSelector g) cd →
    gateCodeOk s cd = true → toMorePrivilege s cd = true →
    tssStack s (descDpl cd).toNat = .ok (nss, tsp) → names s nss sd → selRpl nss = descDpl cd →
    stackDescOk cd sd = true → newStackPointer s tsp sd = .ok (s', nsp) → gateSize s sz g = .ok gs →
    newStackRoom gs (gateCount g) nss sd nsp = true → (gateEntry gs g).toNat ≤ (descLimit cd).toNat →
    readParams s' gs 0 (gateCount g) = .ok params →
    newStackOverlapAllowed s' opnd gs (gateCount g) cd sd nsp = true →
    morePrivilegeFits (oldStackPointer s' gs).1 (sizeBytes gs) (4 + gateCount g) nss sd nsp
      (gateSelector g) cd = true →
    exec i s = .next (morePrivilegeState s' gs next nss sd nsp (gateSelector g) cd params (gateEntry gs g))

/-- R161: what the state after a call to more privilege holds: CPL, CS and SS at the new level, the entry
point, the stack pointer `(4 + count)` pushes below the TSS's, the rest of the registers untouched. With paging off,
what the new stack holds from the stack pointer up: NextEIP, old CS, the parameters in their order, the old stack
pointer, old SS. Parameter `k` is what lay at the old stack pointer plus `k` slots (its offset wraps in the old
stack's address size, log 28). The TSS's pointer is the new one, but for a 286 TSS and a 32-bit stack (U8): refused, or
by the launch parameter a free upper half (log 14). The old pointer pushed is SP or ESP cut to the gate call's size;
only of a 16-bit stack's pointer pushed as 32 bits is the upper half free (log 16). -/
def Obligations.MorePrivilegeStateFields : Prop :=
  (∀ (s : State) (gs : Size) (next nsp entry : Word) (nss csel : Half) (sd cd : Desc) (params : List Word),
    s.mode = .prot →
    let t := morePrivilegeState s gs next nss sd nsp csel cd params entry
    t.cpl = descDpl cd ∧ t.eip = entry ∧
    t.segs.ss = ⟨nss, descBase sd, descLimit sd, descAr sd, descDb sd⟩ ∧
    t.segs.cs = ⟨withRpl csel (descDpl cd), descBase cd, descLimit cd, descAr cd, descDb cd⟩ ∧
    selRpl t.segs.cs.sel = t.cpl ∧
    t.sp = cut (descStackSize sd) (nsp - BitVec.ofNat 32 ((4 + params.length) * sizeBytes gs)) ∧
    sameSystem s t ∧ sameRegsButEsp s t ∧ sameDataSegs s t ∧
    (s.paging = false → Memory.wf s.mem = true → params.length ≤ 31 →
      let slot : Nat → Word := fun j =>
        let off := t.sp + BitVec.ofNat 32 (j * sizeBytes gs)
        descBase sd + if descDb sd then off else 0#16 ++ off.extractLsb' 0 16
      readWord t t.cpl (slot 0) (sizeBytes gs) = .ok (cut gs next) ∧
      readWord t t.cpl (slot 1) 2 = .ok (zext32 s.segs.cs.sel) ∧
      (∀ k v, params[k]? = some v → readWord t t.cpl (slot (2 + k)) (sizeBytes gs) = .ok (cut gs v)) ∧
      (∃ v, readWord t t.cpl (slot (2 + params.length)) (sizeBytes gs) = .ok v ∧
        low16 v = low16 s.regs.esp ∧ (gs = .w16 → v = zext32 (low16 s.regs.esp)) ∧
        (gs = .w32 → s.stackSize = .w32 → v = s.regs.esp)) ∧
      readWord t t.cpl (slot (3 + params.length)) 2 = .ok (zext32 s.segs.ss.sel))) ∧
  (∀ (s : State) (gs : Size) (n : Nat),
    (∀ params, readParams s gs 0 n = .ok params ↔ params.length = n ∧
      ∀ k v, params[k]? = some v →
        let off : Word := if s.stackSize = .w32 then s.regs.esp + BitVec.ofNat 32 (k * sizeBytes gs)
          else 0#16 ++ (s.regs.esp.extractLsb' 0 16 + BitVec.ofNat 16 (k * sizeBytes gs))
        readable s.mode s.segs.ss off (sizeBytes gs) = true ∧ cut gs v = v ∧
        readWord s s.cpl (s.segs.ss.base + off) (sizeBytes gs) = .ok v) ∧
    ((∀ k, k < n → paramReadable s gs k = true ∧ paramTranslates s gs k = true) →
      ∃ params, readParams s gs 0 n = .ok params)) ∧
  (∀ (s : State) (tsp : Word) (sd : Desc),
    (¬ (s.tr.kind = .tss286 ∧ descDb sd = true) → newStackPointer s tsp sd = .ok (s, tsp)) ∧
    (s.tr.kind = .tss286 → descDb sd = true →
      (s.params.tss286Wide = .refuse → newStackPointer s tsp sd = .error (.refuse .tss286WideStack)) ∧
      (s.params.tss286Wide = .freeHigh →
        ∃ high : Half, newStackPointer s tsp sd = .ok (s.withDraws (s.draws + 1), high ++ low16 tsp)))) ∧
  (∀ (s : State) (gs : Size),
    (¬ (s.stackSize = .w16 ∧ gs = .w32) →
      (oldStackPointer s gs).1 = s ∧ cut gs (oldStackPointer s gs).2 = cut gs s.regs.esp) ∧
    (s.stackSize = .w16 → gs = .w32 → (oldStackPointer s gs).1 = s.withDraws (s.draws + 1) ∧
      ∃ high : Half, (oldStackPointer s gs).2 = high ++ low16 s.regs.esp))

/-- R157, R66, R39: what a direct far call to a code segment leaves alone: CPL, SS, the data segments, every
register but ESP (and ESP's upper half on a 16-bit stack), the system registers, and every byte of memory but
its two pushes and the descriptor byte that holds an accessed bit not set before (log 19). -/
def Obligations.CodeSegmentCallFrame : Prop :=
  ∀ (s t : State) (i : Instr) (next : Word) (sz : Size) (sel : Half) (off : Word) (opnd : OperandRange)
    (d : Desc), farInProt s i next sz sel off opnd → names s sel d →
    descKind (descAr d) = .conformingCode ∨ descKind (descAr d) = .nonConformingCode →
    Memory.wf s.mem = true → exec i s = .next t →
    sameSystem s t ∧ sameRegsButEsp s t ∧ sameDataSegs s t ∧ t.segs.ss = s.segs.ss ∧ t.cpl = s.cpl ∧
    t.draws = s.draws + selectorDraws sz ∧
    (s.stackSize = .w16 → t.regs.esp.extractLsb' 16 16 = s.regs.esp.extractLsb' 16 16) ∧
    (∀ a, (∀ off ∈ s.slots (sizeBytes sz) 2,
        a ∉ physAddrs s .write s.cpl (linear s.segs.ss off) (sizeBytes sz)) →
      (arAccessed (descAr d) = false → a ∉ physAddrs s .write 0 (descAddr s sel + 5) 1) →
      memRead t.mem a = memRead s.mem a)

/-- R162, R66, R39: what a call through a gate to the same privilege leaves alone; the accessed bit (log 19) is
that of the gate's code segment. -/
def Obligations.SamePrivilegeGateFrame : Prop :=
  ∀ (s t : State) (i : Instr) (next : Word) (sz gs : Size) (gsel : Half) (off : Word) (opnd : OperandRange)
    (g cd : Desc), farInProt s i next sz gsel off opnd → names s gsel g →
    descKind (descAr g) = .callGate → names s (gateSelector g) cd → toMorePrivilege s cd = false →
    gateSize s sz g = .ok gs → Memory.wf s.mem = true → exec i s = .next t →
    sameSystem s t ∧ sameRegsButEsp s t ∧ sameDataSegs s t ∧ t.segs.ss = s.segs.ss ∧ t.cpl = s.cpl ∧
    t.draws = s.draws + selectorDraws gs ∧
    (s.stackSize = .w16 → t.regs.esp.extractLsb' 16 16 = s.regs.esp.extractLsb' 16 16) ∧
    (∀ a, (∀ off ∈ s.slots (sizeBytes gs) 2,
        a ∉ physAddrs s .write s.cpl (linear s.segs.ss off) (sizeBytes gs)) →
      (arAccessed (descAr cd) = false → a ∉ physAddrs s .write 0 (descAddr s (gateSelector g) + 5) 1) →
      memRead t.mem a = memRead s.mem a)

/-- R161, R66, R39: what a call through a gate to more privilege leaves alone: the data segments, every
register but ESP, the system registers, and every byte of memory but the pushes on the new stack and the two
descriptor bytes that hold an accessed bit not set before (log 19). That ESP's upper half stays when the new stack is
a 16-bit one is DEDUCED (log 25). -/
def Obligations.MorePrivilegeGateFrame : Prop :=
  ∀ (s s' t : State) (i : Instr) (next : Word) (sz gs : Size) (gsel nss : Half) (off tsp nsp : Word)
    (opnd : OperandRange) (g cd sd : Desc), farInProt s i next sz gsel off opnd → names s gsel g →
    descKind (descAr g) = .callGate → names s (gateSelector g) cd → toMorePrivilege s cd = true →
    tssStack s (descDpl cd).toNat = .ok (nss, tsp) → names s nss sd →
    newStackPointer s tsp sd = .ok (s', nsp) → gateSize s sz g = .ok gs →
    Memory.wf s.mem = true → exec i s = .next t →
    sameSystem s t ∧ sameRegsButEsp s t ∧ sameDataSegs s t ∧
    (descDb sd = false → t.regs.esp.extractLsb' 16 16 = s.regs.esp.extractLsb' 16 16) ∧
    (∀ a, (∀ off ∈ pushSlots (descStackSize sd) (sizeBytes gs) (cut (descStackSize sd) nsp) (4 + gateCount g),
        a ∉ physAddrs s .write (newStackCpl s.cpl (descDpl cd)) (descBase sd + off) (sizeBytes gs)) →
      (arAccessed (descAr sd) = false → a ∉ physAddrs s .write 0 (descAddr s nss + 5) 1) →
      (arAccessed (descAr cd) = false → a ∉ physAddrs s .write 0 (descAddr s (gateSelector g) + 5) 1) →
      memRead t.mem a = memRead s.mem a)

/-- R163, R165: a task gate's checks in order; when all pass, the task switch is refused, not run. A TSS
descriptor that does not translate is `#PF` (R57, R205). A null TSS selector is `#TS(0)` whatever the GDT's entry 0
holds (R163 says it fails T6; that nothing is read is DEDUCED, log 34). -/
def Obligations.TaskGateChecks : Prop :=
  ∀ (s : State) (i : Instr) (next : Word) (sz : Size) (gsel : Half) (off : Word) (opnd : OperandRange)
    (g : Desc), farInProt s i next sz gsel off opnd → names s gsel g → descKind (descAr g) = .taskGate →
    let tsel := gateSelector g
    ((descDpl g).ult s.cpl = true ∨ (descDpl g).ult (selRpl gsel) = true →
      exec i s = .fault (.ts (ec gsel))) ∧
    (s.cpl.ule (descDpl g) = true → (selRpl gsel).ule (descDpl g) = true →
      (descPresent g = false → exec i s = .fault (.np (ec gsel))) ∧
      (descPresent g = true →
        (selLocal tsel = true ∨ selInGdt s tsel = false → exec i s = .fault (.ts (ec tsel))) ∧
        (selNull tsel = true → exec i s = .fault (.ts 0)) ∧
        (selNull tsel = false → selLocal tsel = false → selInGdt s tsel = true →
          translates s .read 0 (descAddr s tsel) 8 = false → exec i s = pageStop s) ∧
        (∀ td, selLocal tsel = false → names s tsel td →
          (availableTss (descAr td) = false → exec i s = .fault (.ts (ec tsel))) ∧
          (availableTss (descAr td) = true → descPresent td = false → exec i s = .fault (.np (ec tsel))) ∧
          (availableTss (descAr td) = true → descPresent td = true → exec i s = .refused .taskSwitch))))

/-- R164, R165: the checks of a direct call to a TSS in order; when all pass, the task switch is refused;
through the local table the call is refused (U10). -/
def Obligations.TssChecks : Prop :=
  ∀ (s : State) (i : Instr) (next : Word) (sz : Size) (tsel : Half) (off : Word) (opnd : OperandRange)
    (td : Desc), farInProt s i next sz tsel off opnd → names s tsel td → descKind (descAr td) = .tss →
    (selLocal tsel = true → exec i s = .refused .tssInLdt) ∧
    (selLocal tsel = false →
      ((descDpl td).ult s.cpl = true ∨ (descDpl td).ult (selRpl tsel) = true ∨
        availableTss (descAr td) = false → exec i s = .fault (.ts (ec tsel))) ∧
      (s.cpl.ule (descDpl td) = true → (selRpl tsel).ule (descDpl td) = true →
        availableTss (descAr td) = true →
        (descPresent td = false → exec i s = .fault (.np (ec tsel))) ∧
        (descPresent td = true → exec i s = .refused .taskSwitch)))

/-- R207: the error code of a selector has its index and table indicator, and zeros below. -/
def Obligations.ErrorCodeOfASelector : Prop :=
  ∀ sel : Half, (ec sel).extractLsb' 2 14 = sel.extractLsb' 2 14 ∧ (ec sel).extractLsb' 0 2 = 0

/-! ## The whole machine -/

/-- R39, R27, R166, R214: no CALL writes a flag, a control, table, task or debug register, a data segment
register or a general register other than ESP. -/
def Obligations.EveryCallLeavesTheSystemState : Prop :=
  ∀ (s t : State) (i : Instr), exec i s = .next t →
    sameSystem s t ∧ sameRegsButEsp s t ∧ sameDataSegs s t ∧ t.mode = s.mode

/-- R61, R63: every byte of memory that a step changes is recorded as written, and no record is lost. -/
def Obligations.EveryChangedByteIsRecorded : Prop :=
  ∀ s t : State, Memory.wf s.mem = true → step s = .next t →
    (∀ a ∈ s.written, a ∈ t.written) ∧
    (∀ a, a ∉ t.written → memRead t.mem a = memRead s.mem a)

/-- R213, R156, R158: no CALL moves to less privilege; CPL changes only in Protected Mode, by a far call through a
call gate that is open, to a present non-conforming code segment of a DPL below CPL, and becomes that DPL. -/
def Obligations.NoCallLosesPrivilege : Prop :=
  ∀ (s t : State) (i : Instr), exec i s = .next t →
    t.cpl.ule s.cpl = true ∧
    (t.cpl ≠ s.cpl → s.mode = .prot ∧ isNear i = false ∧
      ∃ next sz sel off opnd g cd, farInProt s i next sz sel off opnd ∧ gateToMore s sel g cd ∧
        t.cpl = descDpl cd)

/-- R25: every step keeps CPL equal to the RPL of CS and of SS in Protected Mode, 3 in Virtual 8086 Mode and
0 in Real Address Mode. -/
def Obligations.StepKeepsPrivilegeCoherent : Prop :=
  ∀ s t : State, privilegeCoherent s → step s = .next t → privilegeCoherent t

/-- Every step keeps memory and the record of written addresses in canonical form (R61, log 4). -/
def Obligations.StepKeepsStorageCanonical : Prop :=
  ∀ s t : State, storageCanonical s → step s = .next t → storageCanonical t

/-- R54: every step keeps the limits 0FFFFH outside Protected Mode. -/
def Obligations.StepKeepsRealLimits : Prop :=
  ∀ s t : State, realLimitsHold s → step s = .next t → realLimitsHold t

/-- R27: no CALL writes a flag, and none reads a flag but VM: with other flags and the same VM, every
instruction does the same. -/
def Obligations.CallReadsNoFlagButVm : Prop :=
  ∀ (s : State) (i : Instr) (f : Word), f.getLsbD 17 = s.eflags.getLsbD 17 →
    (∀ t, exec i s = .next t → t.eflags = s.eflags) ∧
    exec i { s with eflags := f } =
      match exec i s with
      | .next t => .next { t with eflags := f }
      | .fault x => .fault x
      | .refused x => .refused x

/-- R166: no flags are affected if a task switch does not occur: no CALL that answers, and no step, writes a flag.
(A call that would switch tasks does not answer: TaskGateChecks, TssChecks.) -/
def Obligations.NoFlagIsAffectedWithoutTaskSwitch : Prop :=
  (∀ (s t : State) (i : Instr), exec i s = .next t → t.eflags = s.eflags) ∧
  (∀ s t : State, step s = .next t → t.eflags = s.eflags)
end

