-- ==== Sys2Proof/Laws/Memory.lean ====
section
/-! SUPPORT. Memory: a read after a write, and every memory operation keeps the canonical form. -/

namespace Sys2Proof.Machine

/-! ## Reading after writing -/

/-- An address below a sorted memory is not listed. -/
theorem memRead_below {m : Memory} : ∀ {lo a : Nat}, memSorted lo m = true → a < lo →
    memRead m a = Config.unlistedByte := by
  induction m with
  | nil => intros; rfl
  | cons c m ih =>
    intro lo a h ha
    obtain ⟨k, b⟩ := c
    simp only [memSorted, Bool.and_eq_true, decide_eq_true_eq] at h
    have hk : k ≠ a := by omega
    simp only [memRead, hk, if_false]
    exact ih h.2 (by omega)

/-- Storing keeps the canonical form (log 4). -/
theorem memSorted_memWrite {m : Memory} : ∀ {lo a : Nat} {v : Byte}, memSorted lo m = true → lo ≤ a →
    memSorted lo (memWrite m a v) = true := by
  induction m with
  | nil =>
    intro lo a v _ ha
    by_cases hv : v = Config.unlistedByte <;> simp [memWrite, memSorted, hv, ha]
  | cons c m ih =>
    intro lo a v h ha
    obtain ⟨k, b⟩ := c
    simp only [memSorted, Bool.and_eq_true, decide_eq_true_eq] at h
    obtain ⟨⟨h1, h2⟩, h3⟩ := h
    simp only [memWrite]
    split
    · split
      · simp [memSorted, h1, h2, h3]
      · rename_i hv; simp [memSorted, h2, h3, hv, ha]; omega
    · split
      · subst_vars
        split
        · have mono : ∀ (m : Memory) (x y : Nat), x ≤ y → memSorted y m = true → memSorted x m = true := by
            intro m x y hxy hm
            cases m with
            | nil => rfl
            | cons c m =>
              simp only [memSorted, Bool.and_eq_true, decide_eq_true_eq] at hm ⊢
              exact ⟨⟨by omega, hm.1.2⟩, hm.2⟩
          exact mono _ _ _ (by omega) h3
        · rename_i hv; simp [memSorted, h1, h3, hv]
      · simp only [memSorted, Bool.and_eq_true, decide_eq_true_eq]
        exact ⟨⟨h1, h2⟩, ih h3 (by omega)⟩

/-- A read after a write to the same place gives the value written; a write leaves every other place
alone (R61). -/
theorem memRead_memWrite {m : Memory} : ∀ {lo a : Nat} {v : Byte}, memSorted lo m = true →
    ∀ x, memRead (memWrite m a v) x = if x = a then v else memRead m x := by
  induction m with
  | nil =>
    intro lo a v _ x
    by_cases hx : x = a
    · by_cases hv : v = Config.unlistedByte <;> simp [memWrite, memRead, hv, hx]
    · by_cases hv : v = Config.unlistedByte <;> simp [memWrite, memRead, hv, hx, Ne.symm hx]
  | cons c m ih =>
    intro lo a v h x
    obtain ⟨k, b⟩ := c
    simp only [memSorted, Bool.and_eq_true, decide_eq_true_eq] at h
    obtain ⟨⟨h1, h2⟩, h3⟩ := h
    simp only [memWrite]
    split
    · rename_i hak
      split
      · by_cases hx : x = a
        · subst hx
          have hk : k ≠ x := by omega
          rename_i hv
          simp [memRead, hk, memRead_below h3 (show x < k + 1 by omega), hv]
        · simp [hx]
      · by_cases hx : x = a
        · simp [memRead, hx]
        · simp [memRead, hx, Ne.symm hx]
    · split
      · rename_i hak; subst hak
        split
        · rename_i hv
          by_cases hx : x = a
          · subst hx; simp [memRead_below h3 (show x < x + 1 by omega), hv]
          · simp [memRead, hx, Ne.symm hx]
        · by_cases hx : x = a
          · simp [memRead, hx]
          · simp [memRead, hx, Ne.symm hx]
      · rename_i h4 h5
        simp only [memRead]
        rw [ih h3 x]
        by_cases hk : k = x
        · subst hk
          simp [Ne.symm h5]
        · simp [hk]

/-- The canonical memory, unfolded once. -/
theorem wf_memWrite {m : Memory} {a : Nat} {v : Byte} (h : Memory.wf m = true) :
    Memory.wf (memWrite m a v) = true := memSorted_memWrite h (Nat.zero_le a)

/-! ## The written addresses -/

theorem addrsSorted_addrInsert {w : List Nat} : ∀ {lo a : Nat}, addrsSorted lo w = true → lo ≤ a →
    addrsSorted lo (addrInsert w a) = true := by
  induction w with
  | nil => intro lo a _ ha; simp [addrInsert, addrsSorted, ha]
  | cons k w ih =>
    intro lo a h ha
    simp only [addrsSorted, Bool.and_eq_true, decide_eq_true_eq] at h
    simp only [addrInsert]
    split
    · simp [addrsSorted, ha, h.2]; omega
    · split
      · simp [addrsSorted, h.1, h.2]
      · simp only [addrsSorted, Bool.and_eq_true, decide_eq_true_eq]
        exact ⟨h.1, ih h.2 (by omega)⟩

theorem mem_addrInsert {w : List Nat} {a x : Nat} : x ∈ addrInsert w a ↔ x = a ∨ x ∈ w := by
  induction w with
  | nil => simp [addrInsert]
  | cons k w ih =>
    simp only [addrInsert]
    split
    · simp
    · split
      · rename_i h; simp [h]
      · simp only [List.mem_cons, ih]
        tauto

/-! ## Storing cells -/

theorem wf_storeMem {cs : List (Nat × Byte)} : ∀ {m : Memory}, Memory.wf m = true →
    Memory.wf (storeMem m cs) = true := by
  induction cs with
  | nil => exact id
  | cons c cs ih => exact fun h => ih (wf_memWrite h)

/-- What a byte reads as after storing cells (R61). -/
theorem memRead_storeMem {cs : List (Nat × Byte)} : ∀ {m : Memory}, Memory.wf m = true →
    ∀ a, memRead (storeMem m cs) a = overlay cs (memRead m a) a := by
  induction cs with
  | nil => intros; rfl
  | cons c cs ih =>
    intro m h a
    rw [storeMem, ih (wf_memWrite h), memRead_memWrite h a, overlay]
    simp [eq_comm]

theorem addrsSorted_storeAddrs {cs : List (Nat × Byte)} : ∀ {w : List Nat}, addrsSorted 0 w = true →
    addrsSorted 0 (storeAddrs w cs) = true := by
  induction cs with
  | nil => exact id
  | cons c cs ih => exact fun h => ih (addrsSorted_addrInsert h (Nat.zero_le _))

theorem mem_storeAddrs {cs : List (Nat × Byte)} : ∀ {w : List Nat} {x : Nat},
    x ∈ storeAddrs w cs ↔ x ∈ w ∨ x ∈ cs.map Prod.fst := by
  induction cs with
  | nil => simp [storeAddrs]
  | cons c cs ih =>
    intro w x
    rw [storeAddrs, ih, mem_addrInsert]
    simp only [List.map_cons, List.mem_cons]
    tauto

/-- A byte at an address that no cell names reads as before. -/
theorem overlay_of_not_mem {cs : List (Nat × Byte)} : ∀ {old : Byte} {a : Nat}, a ∉ cs.map Prod.fst →
    overlay cs old a = old := by
  induction cs with
  | nil => intros; rfl
  | cons c cs ih =>
    intro old a h
    simp only [List.map_cons, List.mem_cons, not_or] at h
    rw [overlay, ih h.2, if_neg (Ne.symm h.1)]

/-- Storing cells keeps memory and the written addresses in canonical form. -/
theorem storageCanonical_storeCells {s : State} {cs : List (Nat × Byte)} (h : storageCanonical s) :
    storageCanonical (storeCells s cs) :=
  ⟨wf_storeMem h.1, addrsSorted_storeAddrs h.2⟩

/-- The memory after reset is in canonical form. -/
theorem wf_reset : Memory.wf State.reset.mem = true := rfl

theorem storeMem_append (m : Memory) (xs ys : List (Nat × Byte)) :
    storeMem m (xs ++ ys) = storeMem (storeMem m xs) ys := by
  induction xs generalizing m with
  | nil => rfl
  | cons c xs ih => exact ih _

theorem storeAddrs_append (w : List Nat) (xs ys : List (Nat × Byte)) :
    storeAddrs w (xs ++ ys) = storeAddrs (storeAddrs w xs) ys := by
  induction xs generalizing w with
  | nil => rfl
  | cons c xs ih => exact ih _

/-- A placed program keeps memory in canonical form. -/
theorem wf_placeBytes {bs : List Byte} : ∀ {s : State} {k : Nat}, Memory.wf s.mem = true →
    Memory.wf (placeBytes s k bs).mem = true := by
  induction bs with
  | nil => exact id
  | cons b bs ih =>
    intro s k h
    simp only [placeBytes]
    split
    · exact ih (wf_memWrite h)
    · exact ih h

end Sys2Proof.Machine
end

