-- ==== Sys2Proof/Laws/State.lean ====
section
/-! SUPPORT. The fields of a state after each named update, one lemma per field and update. -/

namespace Sys2Proof.Machine

/-! ## `storeByte`: memory and the written addresses -/

@[simp] theorem storeByte_eip (s : State) (a : Nat) (b : Byte) : (storeByte s a b).eip = s.eip := rfl
@[simp] theorem storeByte_regs (s : State) (a : Nat) (b : Byte) : (storeByte s a b).regs = s.regs := rfl
@[simp] theorem storeByte_segs (s : State) (a : Nat) (b : Byte) : (storeByte s a b).segs = s.segs := rfl
@[simp] theorem storeByte_cpl (s : State) (a : Nat) (b : Byte) : (storeByte s a b).cpl = s.cpl := rfl
@[simp] theorem storeByte_cr0 (s : State) (a : Nat) (b : Byte) : (storeByte s a b).cr0 = s.cr0 := rfl
@[simp] theorem storeByte_cr2 (s : State) (a : Nat) (b : Byte) : (storeByte s a b).cr2 = s.cr2 := rfl
@[simp] theorem storeByte_cr3 (s : State) (a : Nat) (b : Byte) : (storeByte s a b).cr3 = s.cr3 := rfl
@[simp] theorem storeByte_eflags (s : State) (a : Nat) (b : Byte) : (storeByte s a b).eflags = s.eflags := rfl
@[simp] theorem storeByte_gdtr (s : State) (a : Nat) (b : Byte) : (storeByte s a b).gdtr = s.gdtr := rfl
@[simp] theorem storeByte_idtr (s : State) (a : Nat) (b : Byte) : (storeByte s a b).idtr = s.idtr := rfl
@[simp] theorem storeByte_ldtr (s : State) (a : Nat) (b : Byte) : (storeByte s a b).ldtr = s.ldtr := rfl
@[simp] theorem storeByte_tr (s : State) (a : Nat) (b : Byte) : (storeByte s a b).tr = s.tr := rfl
@[simp] theorem storeByte_dr (s : State) (a : Nat) (b : Byte) : (storeByte s a b).dr = s.dr := rfl
@[simp] theorem storeByte_mem (s : State) (a : Nat) (b : Byte) :
    (storeByte s a b).mem = memWrite s.mem a b := rfl
@[simp] theorem storeByte_params (s : State) (a : Nat) (b : Byte) : (storeByte s a b).params = s.params := rfl
@[simp] theorem storeByte_written (s : State) (a : Nat) (b : Byte) :
    (storeByte s a b).written = addrInsert s.written a := rfl
@[simp] theorem storeByte_draws (s : State) (a : Nat) (b : Byte) : (storeByte s a b).draws = s.draws := rfl

/-! ## `storeCells` -/

@[simp] theorem storeCells_eip (s : State) (cs : List (Nat × Byte)) : (storeCells s cs).eip = s.eip := rfl
@[simp] theorem storeCells_regs (s : State) (cs : List (Nat × Byte)) : (storeCells s cs).regs = s.regs := rfl
@[simp] theorem storeCells_segs (s : State) (cs : List (Nat × Byte)) : (storeCells s cs).segs = s.segs := rfl
@[simp] theorem storeCells_cpl (s : State) (cs : List (Nat × Byte)) : (storeCells s cs).cpl = s.cpl := rfl
@[simp] theorem storeCells_cr0 (s : State) (cs : List (Nat × Byte)) : (storeCells s cs).cr0 = s.cr0 := rfl
@[simp] theorem storeCells_cr2 (s : State) (cs : List (Nat × Byte)) : (storeCells s cs).cr2 = s.cr2 := rfl
@[simp] theorem storeCells_cr3 (s : State) (cs : List (Nat × Byte)) : (storeCells s cs).cr3 = s.cr3 := rfl
@[simp] theorem storeCells_eflags (s : State) (cs : List (Nat × Byte)) : (storeCells s cs).eflags = s.eflags := rfl
@[simp] theorem storeCells_gdtr (s : State) (cs : List (Nat × Byte)) : (storeCells s cs).gdtr = s.gdtr := rfl
@[simp] theorem storeCells_idtr (s : State) (cs : List (Nat × Byte)) : (storeCells s cs).idtr = s.idtr := rfl
@[simp] theorem storeCells_ldtr (s : State) (cs : List (Nat × Byte)) : (storeCells s cs).ldtr = s.ldtr := rfl
@[simp] theorem storeCells_tr (s : State) (cs : List (Nat × Byte)) : (storeCells s cs).tr = s.tr := rfl
@[simp] theorem storeCells_dr (s : State) (cs : List (Nat × Byte)) : (storeCells s cs).dr = s.dr := rfl
@[simp] theorem storeCells_mem (s : State) (cs : List (Nat × Byte)) :
    (storeCells s cs).mem = storeMem s.mem cs := rfl
@[simp] theorem storeCells_params (s : State) (cs : List (Nat × Byte)) : (storeCells s cs).params = s.params := rfl
@[simp] theorem storeCells_written (s : State) (cs : List (Nat × Byte)) :
    (storeCells s cs).written = storeAddrs s.written cs := rfl
@[simp] theorem storeCells_draws (s : State) (cs : List (Nat × Byte)) : (storeCells s cs).draws = s.draws := rfl

/-! ## `pushedState`: memory, the written addresses and the stack pointer -/

@[simp] theorem pushedState_eip (s : State) (cpl : BitVec 2) (bs : List Byte) : (pushedState s cpl bs).eip = s.eip := rfl
@[simp] theorem pushedState_regs (s : State) (cpl : BitVec 2) (bs : List Byte) :
    (pushedState s cpl bs).regs = setStackPointer s.stackSize s.regs (stackDown s.stackSize s.sp bs.length) := rfl
@[simp] theorem pushedState_segs (s : State) (cpl : BitVec 2) (bs : List Byte) : (pushedState s cpl bs).segs = s.segs := rfl
@[simp] theorem pushedState_cpl (s : State) (cpl : BitVec 2) (bs : List Byte) : (pushedState s cpl bs).cpl = s.cpl := rfl
@[simp] theorem pushedState_cr0 (s : State) (cpl : BitVec 2) (bs : List Byte) : (pushedState s cpl bs).cr0 = s.cr0 := rfl
@[simp] theorem pushedState_cr2 (s : State) (cpl : BitVec 2) (bs : List Byte) : (pushedState s cpl bs).cr2 = s.cr2 := rfl
@[simp] theorem pushedState_cr3 (s : State) (cpl : BitVec 2) (bs : List Byte) : (pushedState s cpl bs).cr3 = s.cr3 := rfl
@[simp] theorem pushedState_eflags (s : State) (cpl : BitVec 2) (bs : List Byte) : (pushedState s cpl bs).eflags = s.eflags := rfl
@[simp] theorem pushedState_gdtr (s : State) (cpl : BitVec 2) (bs : List Byte) : (pushedState s cpl bs).gdtr = s.gdtr := rfl
@[simp] theorem pushedState_idtr (s : State) (cpl : BitVec 2) (bs : List Byte) : (pushedState s cpl bs).idtr = s.idtr := rfl
@[simp] theorem pushedState_ldtr (s : State) (cpl : BitVec 2) (bs : List Byte) : (pushedState s cpl bs).ldtr = s.ldtr := rfl
@[simp] theorem pushedState_tr (s : State) (cpl : BitVec 2) (bs : List Byte) : (pushedState s cpl bs).tr = s.tr := rfl
@[simp] theorem pushedState_dr (s : State) (cpl : BitVec 2) (bs : List Byte) : (pushedState s cpl bs).dr = s.dr := rfl
@[simp] theorem pushedState_params (s : State) (cpl : BitVec 2) (bs : List Byte) : (pushedState s cpl bs).params = s.params := rfl
@[simp] theorem pushedState_draws (s : State) (cpl : BitVec 2) (bs : List Byte) : (pushedState s cpl bs).draws = s.draws := rfl

/-! ## `loadCsReal`, `loadCs`, `loadSs` -/

@[simp] theorem loadCsReal_eip (s : State) (sel : Half) : (loadCsReal s sel).eip = s.eip := rfl
@[simp] theorem loadCsReal_regs (s : State) (sel : Half) : (loadCsReal s sel).regs = s.regs := rfl
@[simp] theorem loadCsReal_cpl (s : State) (sel : Half) : (loadCsReal s sel).cpl = s.cpl := rfl
@[simp] theorem loadCsReal_cr0 (s : State) (sel : Half) : (loadCsReal s sel).cr0 = s.cr0 := rfl
@[simp] theorem loadCsReal_cr2 (s : State) (sel : Half) : (loadCsReal s sel).cr2 = s.cr2 := rfl
@[simp] theorem loadCsReal_cr3 (s : State) (sel : Half) : (loadCsReal s sel).cr3 = s.cr3 := rfl
@[simp] theorem loadCsReal_eflags (s : State) (sel : Half) : (loadCsReal s sel).eflags = s.eflags := rfl
@[simp] theorem loadCsReal_gdtr (s : State) (sel : Half) : (loadCsReal s sel).gdtr = s.gdtr := rfl
@[simp] theorem loadCsReal_idtr (s : State) (sel : Half) : (loadCsReal s sel).idtr = s.idtr := rfl
@[simp] theorem loadCsReal_ldtr (s : State) (sel : Half) : (loadCsReal s sel).ldtr = s.ldtr := rfl
@[simp] theorem loadCsReal_tr (s : State) (sel : Half) : (loadCsReal s sel).tr = s.tr := rfl
@[simp] theorem loadCsReal_dr (s : State) (sel : Half) : (loadCsReal s sel).dr = s.dr := rfl
@[simp] theorem loadCsReal_mem (s : State) (sel : Half) : (loadCsReal s sel).mem = s.mem := rfl
@[simp] theorem loadCsReal_params (s : State) (sel : Half) : (loadCsReal s sel).params = s.params := rfl
@[simp] theorem loadCsReal_written (s : State) (sel : Half) : (loadCsReal s sel).written = s.written := rfl
@[simp] theorem loadCsReal_draws (s : State) (sel : Half) : (loadCsReal s sel).draws = s.draws := rfl

@[simp] theorem loadCs_eip (s : State) (sel : Half) (d : Desc) (c : BitVec 2) : (loadCs s sel d c).eip = s.eip := rfl
@[simp] theorem loadCs_regs (s : State) (sel : Half) (d : Desc) (c : BitVec 2) : (loadCs s sel d c).regs = s.regs := rfl
@[simp] theorem loadCs_segs (s : State) (sel : Half) (d : Desc) (c : BitVec 2) :
    (loadCs s sel d c).segs = { s.segs with cs := segOfDesc (withRpl sel c) d } := rfl
@[simp] theorem loadCs_cpl (s : State) (sel : Half) (d : Desc) (c : BitVec 2) : (loadCs s sel d c).cpl = s.cpl := rfl
@[simp] theorem loadCs_cr0 (s : State) (sel : Half) (d : Desc) (c : BitVec 2) : (loadCs s sel d c).cr0 = s.cr0 := rfl
@[simp] theorem loadCs_cr2 (s : State) (sel : Half) (d : Desc) (c : BitVec 2) : (loadCs s sel d c).cr2 = s.cr2 := rfl
@[simp] theorem loadCs_cr3 (s : State) (sel : Half) (d : Desc) (c : BitVec 2) : (loadCs s sel d c).cr3 = s.cr3 := rfl
@[simp] theorem loadCs_eflags (s : State) (sel : Half) (d : Desc) (c : BitVec 2) : (loadCs s sel d c).eflags = s.eflags := rfl
@[simp] theorem loadCs_gdtr (s : State) (sel : Half) (d : Desc) (c : BitVec 2) : (loadCs s sel d c).gdtr = s.gdtr := rfl
@[simp] theorem loadCs_idtr (s : State) (sel : Half) (d : Desc) (c : BitVec 2) : (loadCs s sel d c).idtr = s.idtr := rfl
@[simp] theorem loadCs_ldtr (s : State) (sel : Half) (d : Desc) (c : BitVec 2) : (loadCs s sel d c).ldtr = s.ldtr := rfl
@[simp] theorem loadCs_tr (s : State) (sel : Half) (d : Desc) (c : BitVec 2) : (loadCs s sel d c).tr = s.tr := rfl
@[simp] theorem loadCs_dr (s : State) (sel : Half) (d : Desc) (c : BitVec 2) : (loadCs s sel d c).dr = s.dr := rfl
@[simp] theorem loadCs_mem (s : State) (sel : Half) (d : Desc) (c : BitVec 2) : (loadCs s sel d c).mem = s.mem := rfl
@[simp] theorem loadCs_params (s : State) (sel : Half) (d : Desc) (c : BitVec 2) : (loadCs s sel d c).params = s.params := rfl
@[simp] theorem loadCs_written (s : State) (sel : Half) (d : Desc) (c : BitVec 2) : (loadCs s sel d c).written = s.written := rfl
@[simp] theorem loadCs_draws (s : State) (sel : Half) (d : Desc) (c : BitVec 2) : (loadCs s sel d c).draws = s.draws := rfl

@[simp] theorem loadSs_eip (s : State) (sel : Half) (d : Desc) (v : Word) : (loadSs s sel d v).eip = s.eip := rfl
@[simp] theorem loadSs_segs (s : State) (sel : Half) (d : Desc) (v : Word) :
    (loadSs s sel d v).segs = { s.segs with ss := segOfDesc sel d } := rfl
@[simp] theorem loadSs_cpl (s : State) (sel : Half) (d : Desc) (v : Word) : (loadSs s sel d v).cpl = s.cpl := rfl
@[simp] theorem loadSs_cr0 (s : State) (sel : Half) (d : Desc) (v : Word) : (loadSs s sel d v).cr0 = s.cr0 := rfl
@[simp] theorem loadSs_cr2 (s : State) (sel : Half) (d : Desc) (v : Word) : (loadSs s sel d v).cr2 = s.cr2 := rfl
@[simp] theorem loadSs_cr3 (s : State) (sel : Half) (d : Desc) (v : Word) : (loadSs s sel d v).cr3 = s.cr3 := rfl
@[simp] theorem loadSs_eflags (s : State) (sel : Half) (d : Desc) (v : Word) : (loadSs s sel d v).eflags = s.eflags := rfl
@[simp] theorem loadSs_gdtr (s : State) (sel : Half) (d : Desc) (v : Word) : (loadSs s sel d v).gdtr = s.gdtr := rfl
@[simp] theorem loadSs_idtr (s : State) (sel : Half) (d : Desc) (v : Word) : (loadSs s sel d v).idtr = s.idtr := rfl
@[simp] theorem loadSs_ldtr (s : State) (sel : Half) (d : Desc) (v : Word) : (loadSs s sel d v).ldtr = s.ldtr := rfl
@[simp] theorem loadSs_tr (s : State) (sel : Half) (d : Desc) (v : Word) : (loadSs s sel d v).tr = s.tr := rfl
@[simp] theorem loadSs_dr (s : State) (sel : Half) (d : Desc) (v : Word) : (loadSs s sel d v).dr = s.dr := rfl
@[simp] theorem loadSs_mem (s : State) (sel : Half) (d : Desc) (v : Word) : (loadSs s sel d v).mem = s.mem := rfl
@[simp] theorem loadSs_params (s : State) (sel : Half) (d : Desc) (v : Word) : (loadSs s sel d v).params = s.params := rfl
@[simp] theorem loadSs_written (s : State) (sel : Half) (d : Desc) (v : Word) : (loadSs s sel d v).written = s.written := rfl
@[simp] theorem loadSs_draws (s : State) (sel : Half) (d : Desc) (v : Word) : (loadSs s sel d v).draws = s.draws := rfl

/-! ## `withEip`, `withCpl`, `withRegs`, `withDraws` -/

@[simp] theorem withEip_eip (s : State) (v : Word) : (s.withEip v).eip = v := rfl
@[simp] theorem withEip_regs (s : State) (v : Word) : (s.withEip v).regs = s.regs := rfl
@[simp] theorem withEip_segs (s : State) (v : Word) : (s.withEip v).segs = s.segs := rfl
@[simp] theorem withEip_cpl (s : State) (v : Word) : (s.withEip v).cpl = s.cpl := rfl
@[simp] theorem withEip_cr0 (s : State) (v : Word) : (s.withEip v).cr0 = s.cr0 := rfl
@[simp] theorem withEip_cr2 (s : State) (v : Word) : (s.withEip v).cr2 = s.cr2 := rfl
@[simp] theorem withEip_cr3 (s : State) (v : Word) : (s.withEip v).cr3 = s.cr3 := rfl
@[simp] theorem withEip_eflags (s : State) (v : Word) : (s.withEip v).eflags = s.eflags := rfl
@[simp] theorem withEip_gdtr (s : State) (v : Word) : (s.withEip v).gdtr = s.gdtr := rfl
@[simp] theorem withEip_idtr (s : State) (v : Word) : (s.withEip v).idtr = s.idtr := rfl
@[simp] theorem withEip_ldtr (s : State) (v : Word) : (s.withEip v).ldtr = s.ldtr := rfl
@[simp] theorem withEip_tr (s : State) (v : Word) : (s.withEip v).tr = s.tr := rfl
@[simp] theorem withEip_dr (s : State) (v : Word) : (s.withEip v).dr = s.dr := rfl
@[simp] theorem withEip_mem (s : State) (v : Word) : (s.withEip v).mem = s.mem := rfl
@[simp] theorem withEip_params (s : State) (v : Word) : (s.withEip v).params = s.params := rfl
@[simp] theorem withEip_written (s : State) (v : Word) : (s.withEip v).written = s.written := rfl
@[simp] theorem withEip_draws (s : State) (v : Word) : (s.withEip v).draws = s.draws := rfl

@[simp] theorem withCpl_eip (s : State) (v : BitVec 2) : (s.withCpl v).eip = s.eip := rfl
@[simp] theorem withCpl_regs (s : State) (v : BitVec 2) : (s.withCpl v).regs = s.regs := rfl
@[simp] theorem withCpl_segs (s : State) (v : BitVec 2) : (s.withCpl v).segs = s.segs := rfl
@[simp] theorem withCpl_cpl (s : State) (v : BitVec 2) : (s.withCpl v).cpl = v := rfl
@[simp] theorem withCpl_cr0 (s : State) (v : BitVec 2) : (s.withCpl v).cr0 = s.cr0 := rfl
@[simp] theorem withCpl_cr2 (s : State) (v : BitVec 2) : (s.withCpl v).cr2 = s.cr2 := rfl
@[simp] theorem withCpl_cr3 (s : State) (v : BitVec 2) : (s.withCpl v).cr3 = s.cr3 := rfl
@[simp] theorem withCpl_eflags (s : State) (v : BitVec 2) : (s.withCpl v).eflags = s.eflags := rfl
@[simp] theorem withCpl_gdtr (s : State) (v : BitVec 2) : (s.withCpl v).gdtr = s.gdtr := rfl
@[simp] theorem withCpl_idtr (s : State) (v : BitVec 2) : (s.withCpl v).idtr = s.idtr := rfl
@[simp] theorem withCpl_ldtr (s : State) (v : BitVec 2) : (s.withCpl v).ldtr = s.ldtr := rfl
@[simp] theorem withCpl_tr (s : State) (v : BitVec 2) : (s.withCpl v).tr = s.tr := rfl
@[simp] theorem withCpl_dr (s : State) (v : BitVec 2) : (s.withCpl v).dr = s.dr := rfl
@[simp] theorem withCpl_mem (s : State) (v : BitVec 2) : (s.withCpl v).mem = s.mem := rfl
@[simp] theorem withCpl_params (s : State) (v : BitVec 2) : (s.withCpl v).params = s.params := rfl
@[simp] theorem withCpl_written (s : State) (v : BitVec 2) : (s.withCpl v).written = s.written := rfl
@[simp] theorem withCpl_draws (s : State) (v : BitVec 2) : (s.withCpl v).draws = s.draws := rfl

@[simp] theorem withRegs_eip (s : State) (v : Regs) : (s.withRegs v).eip = s.eip := rfl
@[simp] theorem withRegs_regs (s : State) (v : Regs) : (s.withRegs v).regs = v := rfl
@[simp] theorem withRegs_segs (s : State) (v : Regs) : (s.withRegs v).segs = s.segs := rfl
@[simp] theorem withRegs_cpl (s : State) (v : Regs) : (s.withRegs v).cpl = s.cpl := rfl
@[simp] theorem withRegs_cr0 (s : State) (v : Regs) : (s.withRegs v).cr0 = s.cr0 := rfl
@[simp] theorem withRegs_cr2 (s : State) (v : Regs) : (s.withRegs v).cr2 = s.cr2 := rfl
@[simp] theorem withRegs_cr3 (s : State) (v : Regs) : (s.withRegs v).cr3 = s.cr3 := rfl
@[simp] theorem withRegs_eflags (s : State) (v : Regs) : (s.withRegs v).eflags = s.eflags := rfl
@[simp] theorem withRegs_gdtr (s : State) (v : Regs) : (s.withRegs v).gdtr = s.gdtr := rfl
@[simp] theorem withRegs_idtr (s : State) (v : Regs) : (s.withRegs v).idtr = s.idtr := rfl
@[simp] theorem withRegs_ldtr (s : State) (v : Regs) : (s.withRegs v).ldtr = s.ldtr := rfl
@[simp] theorem withRegs_tr (s : State) (v : Regs) : (s.withRegs v).tr = s.tr := rfl
@[simp] theorem withRegs_dr (s : State) (v : Regs) : (s.withRegs v).dr = s.dr := rfl
@[simp] theorem withRegs_mem (s : State) (v : Regs) : (s.withRegs v).mem = s.mem := rfl
@[simp] theorem withRegs_params (s : State) (v : Regs) : (s.withRegs v).params = s.params := rfl
@[simp] theorem withRegs_written (s : State) (v : Regs) : (s.withRegs v).written = s.written := rfl
@[simp] theorem withRegs_draws (s : State) (v : Regs) : (s.withRegs v).draws = s.draws := rfl

@[simp] theorem withDraws_eip (s : State) (v : Nat) : (s.withDraws v).eip = s.eip := rfl
@[simp] theorem withDraws_regs (s : State) (v : Nat) : (s.withDraws v).regs = s.regs := rfl
@[simp] theorem withDraws_segs (s : State) (v : Nat) : (s.withDraws v).segs = s.segs := rfl
@[simp] theorem withDraws_cpl (s : State) (v : Nat) : (s.withDraws v).cpl = s.cpl := rfl
@[simp] theorem withDraws_cr0 (s : State) (v : Nat) : (s.withDraws v).cr0 = s.cr0 := rfl
@[simp] theorem withDraws_cr2 (s : State) (v : Nat) : (s.withDraws v).cr2 = s.cr2 := rfl
@[simp] theorem withDraws_cr3 (s : State) (v : Nat) : (s.withDraws v).cr3 = s.cr3 := rfl
@[simp] theorem withDraws_eflags (s : State) (v : Nat) : (s.withDraws v).eflags = s.eflags := rfl
@[simp] theorem withDraws_gdtr (s : State) (v : Nat) : (s.withDraws v).gdtr = s.gdtr := rfl
@[simp] theorem withDraws_idtr (s : State) (v : Nat) : (s.withDraws v).idtr = s.idtr := rfl
@[simp] theorem withDraws_ldtr (s : State) (v : Nat) : (s.withDraws v).ldtr = s.ldtr := rfl
@[simp] theorem withDraws_tr (s : State) (v : Nat) : (s.withDraws v).tr = s.tr := rfl
@[simp] theorem withDraws_dr (s : State) (v : Nat) : (s.withDraws v).dr = s.dr := rfl
@[simp] theorem withDraws_mem (s : State) (v : Nat) : (s.withDraws v).mem = s.mem := rfl
@[simp] theorem withDraws_params (s : State) (v : Nat) : (s.withDraws v).params = s.params := rfl
@[simp] theorem withDraws_written (s : State) (v : Nat) : (s.withDraws v).written = s.written := rfl
@[simp] theorem withDraws_draws (s : State) (v : Nat) : (s.withDraws v).draws = v := rfl

end Sys2Proof.Machine
end

