-- ==== Sys2Proof/Laws/Ops.lean ====
section
/-! SUPPORT. What the shared operations do, said once for each: sequencing, checks, translation, linear
accesses, the push, the pushes of a far call, and the accessed bit. -/

namespace Sys2Proof.Machine

/-! ## Sequencing and checks -/

section sequencing
variable {α β : Type} {a : α} {f : α → Except Stop β} {x : Except Stop α} {b : β} {e : Stop}

@[simp] theorem ok_bind : (Except.ok a >>= f) = f a := rfl

@[simp] theorem error_bind : ((Except.error e : Except Stop α) >>= f) = .error e := rfl

/-- A sequence answers when its first part answers and its second answers on that. -/
theorem bind_eq_ok : (x >>= f) = .ok b ↔ ∃ a, x = .ok a ∧ f a = .ok b := by
  cases x <;> simp

end sequencing

@[simp] theorem require_true (f : Fault) : require true f = .ok () := rfl

theorem require_false (f : Fault) : require false f = .error (.fault f) := rfl

theorem require_eq_ok {b : Bool} {f : Fault} {u : Unit} : require b f = .ok u ↔ b = true := by
  cases b <;> simp [require, raise]

/-- A check and then the rest: the check holds and the rest answers. -/
theorem check_bind_eq_ok {β : Type} {x : Except Stop Unit} {f : Unit → Except Stop β} {b : β} :
    (x >>= f) = .ok b ↔ x = .ok () ∧ f () = .ok b := by
  rw [bind_eq_ok]
  exact ⟨fun ⟨(), h⟩ => h, fun h => ⟨(), h⟩⟩

theorem require_bind_eq_ok {β : Type} {c : Bool} {r : Fault} {f : Unit → Except Stop β} {b : β} :
    (require c r >>= f) = .ok b ↔ c = true ∧ f () = .ok b := by
  rw [check_bind_eq_ok, require_eq_ok]

theorem not_raise_ok {α : Type} {f : Fault} {a : α} : raise f ≠ .ok a := by simp [raise]

theorem not_refuse_ok {α : Type} {r : Refusal} {a : α} : refuse r ≠ .ok a := by simp [refuse]

/-- A next state comes from an answer. -/
theorem toOutcome_next {x : Except Stop State} {t : State} : toOutcome x = .next t ↔ x = .ok t := by
  cases x with
  | ok s => simp [toOutcome]
  | error e => cases e <;> simp [toOutcome]

/-! ## Register arithmetic -/

theorem low16_withLow16 (w : Word) (h : Half) : low16 (withLow16 w h) = h := by
  ext i hi
  simp only [low16, withLow16, BitVec.getElem_extractLsb', BitVec.getLsbD_append]
  simp [hi]

theorem withLow16_withLow16 (w : Word) (h k : Half) : withLow16 (withLow16 w h) k = withLow16 w k := by
  unfold withLow16
  congr 1
  ext i hi
  simp only [BitVec.getElem_extractLsb', BitVec.getLsbD_append]
  simp [hi]

theorem low16_zext32 (h : Half) : low16 (zext32 h) = h := by
  ext i hi
  simp [low16, zext32, BitVec.getLsbD_eq_getElem hi, show i < 32 by omega]

@[simp] theorem setStackPointer_twice (sz : Size) (r : Regs) (v w : Word) :
    setStackPointer sz (setStackPointer sz r v) w = setStackPointer sz r w := by
  cases sz with
  | w16 => simp only [setStackPointer, withLow16_withLow16]
  | w32 => rfl
theorem stackPointer_setStackPointer (sz : Size) (r : Regs) (v : Word) :
    stackPointer sz (setStackPointer sz r v) = cut sz v := by
  cases sz with
  | w16 => simp only [stackPointer, setStackPointer, cut, low16_withLow16]
  | w32 => rfl

@[simp] theorem cut_cut (sz : Size) (v : Word) : cut sz (cut sz v) = cut sz v := by
  cases sz with
  | w16 => simp only [cut, low16_zext32]
  | w32 => rfl

@[simp] theorem cut_stackDown (sz : Size) (sp : Word) (n : Nat) :
    cut sz (stackDown sz sp n) = stackDown sz sp n := cut_cut _ _

theorem setStackPointer_get {sz : Size} {r : Regs} {v : Word} {i : Reg} (h : i ≠ .esp) :
    (setStackPointer sz r v).get i = r.get i := by
  cases sz <;> cases i <;> first | rfl | exact absurd rfl h

/-! ## The attributes read only CR0, EFLAGS and the segment registers -/

theorem mode_congr {s t : State} (h0 : t.cr0 = s.cr0) (hf : t.eflags = s.eflags) : t.mode = s.mode := by
  have hp : t.pe = s.pe := by rw [State.pe, State.pe, h0]
  have hv : t.vm = s.vm := by rw [State.vm, State.vm, hf]
  rw [State.mode, State.mode, hp, hv]

theorem stackSize_congr {s t : State} (h0 : t.cr0 = s.cr0) (hf : t.eflags = s.eflags)
    (hs : t.segs.ss = s.segs.ss) : t.stackSize = s.stackSize := by
  rw [State.stackSize, State.stackSize, mode_congr h0 hf, hs]

theorem paging_congr {s t : State} (h0 : t.cr0 = s.cr0) : t.paging = s.paging := by
  rw [State.paging, State.paging, State.pe, State.pe, State.pg, State.pg, h0]

/-- Translation reads only CR0 and the launch parameters (R57). -/
theorem translate_congr {s t : State} (h0 : t.cr0 = s.cr0) (hp : t.params = s.params) :
    translate t = translate s := by
  funext lin kind cpl
  rw [translate, translate, paging_congr h0, hp]

theorem translatesAt_congr {s t : State} (h0 : t.cr0 = s.cr0) (hp : t.params = s.params) :
    translatesAt t = translatesAt s := by
  funext kind cpl lin
  simp only [translatesAt, translate_congr h0 hp]

theorem translates_congr {s t : State} (h0 : t.cr0 = s.cr0) (hp : t.params = s.params)
    (kind : AccessKind) (cpl : BitVec 2) (n : Nat) : ∀ lin, translates t kind cpl lin n =
    translates s kind cpl lin n := by
  induction n with
  | zero => intro _; rfl
  | succ n ih => intro lin; simp only [translates, translatesAt_congr h0 hp, ih]

theorem storedCells_congr {s t : State} (h0 : t.cr0 = s.cr0) (hp : t.params = s.params)
    (cpl : BitVec 2) (bs : List Byte) : ∀ lin, storedCells t cpl lin bs = storedCells s cpl lin bs := by
  induction bs with
  | nil => intro _; rfl
  | cons b bs ih => intro lin; simp only [storedCells, translate_congr h0 hp, ih]

/-- With paging off every address translates to itself (R57). -/
theorem translate_paging_off {s : State} (h : s.paging = false) (lin : Word) (kind : AccessKind)
    (cpl : BitVec 2) : translate s lin kind cpl = .ok lin := by
  simp [translate, h]

theorem translates_paging_off {s : State} (h : s.paging = false) (kind : AccessKind) (cpl : BitVec 2)
    (n : Nat) : ∀ lin, translates s kind cpl lin n = true := by
  induction n with
  | zero => intro _; rfl
  | succ n ih => intro lin; simp [translates, translatesAt, translate_paging_off h, Except.isOk, Except.toBool, ih]

/-! ## Linear writes -/

/-- Everything a linear write can do (R51, R57). -/
theorem writeBytes_eq_ok {bs : List Byte} : ∀ {s t : State} {cpl : BitVec 2} {lin : Word},
    writeBytes s cpl lin bs = .ok t ↔
      translates s .write cpl lin bs.length = true ∧ t = storeCells s (storedCells s cpl lin bs) := by
  induction bs with
  | nil =>
    intro s t cpl lin
    simp only [writeBytes, translates, storedCells, Except.ok.injEq, List.length_nil, true_and]
    exact eq_comm
  | cons b bs ih =>
    intro s t cpl lin
    simp only [writeBytes, List.length_cons, translates, translatesAt, storedCells]
    cases hp : translate s lin .write cpl with
    | error e => simp [Except.isOk, Except.toBool]
    | ok p =>
      have hs : ∀ l, translates (storeByte s p.toNat b) .write cpl l bs.length =
          translates s .write cpl l bs.length := translates_congr (by rfl) (by rfl) _ _ _
      have hc : ∀ l, storedCells (storeByte s p.toNat b) cpl l bs = storedCells s cpl l bs :=
        storedCells_congr (by rfl) (by rfl) _ _
      simp only [ok_bind, ih, hs, hc, Except.isOk, Except.toBool, Bool.true_and]
      rfl

/-! ## Pushes -/

@[simp] theorem length_bytesOf (sz : Size) (v : Word) : (bytesOf sz v).length = sizeBytes sz := by
  cases sz <;> rfl

@[simp] theorem length_selectorBytes (n : Nat) (sz : Size) (sel : Half) :
    (selectorBytes n sz sel).length = sizeBytes sz := by
  cases sz <;> rfl

theorem mode_pushedState (s : State) (cpl : BitVec 2) (bs : List Byte) :
    (pushedState s cpl bs).mode = s.mode := mode_congr rfl rfl

theorem stackSize_pushedState (s : State) (cpl : BitVec 2) (bs : List Byte) :
    (pushedState s cpl bs).stackSize = s.stackSize := stackSize_congr rfl rfl rfl

theorem sp_pushedState (s : State) (cpl : BitVec 2) (bs : List Byte) :
    (pushedState s cpl bs).sp = stackDown s.stackSize s.sp bs.length := by
  simp only [State.sp, stackSize_pushedState, pushedState_regs, stackPointer_setStackPointer,
    cut_stackDown]

/-- Room for one more push is room for that push and room for the rest after it (R65). -/
theorem pushFits_succ (s : State) (cpl : BitVec 2) (k : Nat) (bs : List Byte) :
    pushFits s cpl bs.length (k + 1) =
      (pushFits s cpl bs.length 1 && pushFits (pushedState s cpl bs) cpl bs.length k) := by
  have ht : ∀ lin, translates (pushedState s cpl bs) .write cpl lin bs.length =
      translates s .write cpl lin bs.length := translates_congr (by rfl) (by rfl) _ _ _
  simp only [pushFits, State.room, State.slots, stackRoom, pushSlots, List.all_cons, List.all_nil,
    mode_pushedState, stackSize_pushedState, sp_pushedState, pushedState_segs, ht, Bool.and_true]
  generalize writable s.mode s.segs.ss _ bs.length = w
  generalize translates s .write cpl _ bs.length = x
  cases w <;> cases x <;> simp

/-- What one fitting push needs (R56, R57). -/
theorem pushFits_one (s : State) (cpl : BitVec 2) (n : Nat) :
    pushFits s cpl n 1 = (writable s.mode s.segs.ss (stackDown s.stackSize s.sp n) n &&
      translates s .write cpl (linear s.segs.ss (stackDown s.stackSize s.sp n)) n) := by
  simp [pushFits, State.room, State.slots, stackRoom, pushSlots]

/-- Everything a push can do: it answers when it fits, with the pushed state (R56). -/
theorem push_eq_ok {s t : State} {cpl : BitVec 2} {sz : Size} {v : Word} :
    push s cpl sz v = .ok t ↔
      pushFits s cpl (sizeBytes sz) 1 = true ∧ t = pushedState s cpl (bytesOf sz v) := by
  simp only [push, stackWrite, bind_eq_ok, require_eq_ok, writeBytes_eq_ok, pushFits_one,
    length_bytesOf, Bool.and_eq_true]
  constructor
  · rintro ⟨s', ⟨_, hw, ht, rfl⟩, h⟩
    cases h
    refine ⟨⟨hw, ht⟩, ?_⟩
    simp only [pushedState, length_bytesOf, storeCells_regs]
  · rintro ⟨⟨hw, ht⟩, rfl⟩
    refine ⟨_, ⟨(), hw, ht, rfl⟩, ?_⟩
    simp only [pushedState, length_bytesOf, storeCells_regs]

/-- A push of the state with another draw count is the push with that draw count. -/
theorem pushedState_withDraws (s : State) (cpl : BitVec 2) (bs : List Byte) (n : Nat) :
    pushedState (s.withDraws n) cpl bs = (pushedState s cpl bs).withDraws n := by
  have hc : ∀ l, storedCells (s.withDraws n) cpl l bs = storedCells s cpl l bs :=
    storedCells_congr (by rfl) (by rfl) _ _
  rw [pushedState, hc]
  rfl

theorem pushFits_withDraws (s : State) (cpl : BitVec 2) (n k d : Nat) :
    pushFits (s.withDraws d) cpl n k = pushFits s cpl n k := by
  have ht : ∀ l, translates (s.withDraws d) .write cpl l n = translates s .write cpl l n :=
    translates_congr (by rfl) (by rfl) _ _ _
  simp only [pushFits, ht]
  rfl

/-- Everything the push of a selector can do (R56, D11). -/
theorem pushSelector_eq_ok {s t : State} {cpl : BitVec 2} {sz : Size} {sel : Half} :
    pushSelector s cpl sz sel = .ok t ↔
      pushFits s cpl (sizeBytes sz) 1 = true ∧
        t = (pushedState s cpl (selectorBytes s.draws sz sel)).withDraws (s.draws + selectorDraws sz) := by
  cases sz with
  | w16 =>
    simp only [pushSelector, push_eq_ok, selectorBytes, selectorDraws, bytesOf, low16_zext32]
    rfl
  | w32 =>
    simp only [pushSelector, push_eq_ok, selectorBytes, selectorDraws, bytesOf, pushFits_withDraws,
      pushedState_withDraws]

/-- Everything the two pushes of a far call that stays on its stack can do (R134, R157, R162). -/
theorem farPushes_eq_ok {s t : State} {sz : Size} {next : Word} :
    (pushSelector s s.cpl sz s.segs.cs.sel >>= fun s1 => push s1 s.cpl sz next) = .ok t ↔
      pushFits s s.cpl (sizeBytes sz) 2 = true ∧ t = farPushedState s sz next := by
  have h2 := pushFits_succ s s.cpl 1 (selectorBytes s.draws sz s.segs.cs.sel)
  rw [length_selectorBytes] at h2
  simp only [bind_eq_ok, pushSelector_eq_ok, push_eq_ok, h2, Bool.and_eq_true]
  constructor
  · rintro ⟨s1, ⟨h1, rfl⟩, h3, rfl⟩
    rw [pushFits_withDraws] at h3
    exact ⟨⟨h1, h3⟩, by rw [pushedState_withDraws]; rfl⟩
  · rintro ⟨⟨h1, h3⟩, rfl⟩
    refine ⟨_, ⟨h1, rfl⟩, by rwa [pushFits_withDraws], ?_⟩
    rw [pushedState_withDraws]; rfl

/-- Several pushes in order: they answer when they fit together (R56, R65). -/
theorem pushAll_eq_ok {sz : Size} {vs : List Word} : ∀ {s t : State} {cpl : BitVec 2},
    pushAll s cpl sz vs = .ok t ↔
      pushFits s cpl (sizeBytes sz) vs.length = true ∧
        t = pushedStates s cpl (vs.map (bytesOf sz)) := by
  induction vs with
  | nil =>
    intro s t cpl
    simp [pushAll, pushFits, State.room, State.slots, stackRoom, pushSlots, pushedStates, eq_comm]
  | cons v vs ih =>
    intro s t cpl
    have h2 := pushFits_succ s cpl vs.length (bytesOf sz v)
    rw [length_bytesOf] at h2
    simp only [pushAll, bind_eq_ok, push_eq_ok, ih, List.length_cons, h2, Bool.and_eq_true,
      List.map_cons, pushedStates]
    constructor
    · rintro ⟨s', ⟨h1, rfl⟩, h3, rfl⟩
      exact ⟨⟨h1, h3⟩, rfl⟩
    · rintro ⟨⟨h1, h3⟩, rfl⟩
      exact ⟨_, ⟨h1, rfl⟩, h3, rfl⟩

/-! ## The accessed bit -/

/-- Everything setting the accessed bit can do (R66). -/
theorem setAccessed_eq_ok {s t : State} {sel : Half} {d : Desc} :
    setAccessed s sel d = .ok t ↔ accessedFits s sel d = true ∧ t = accessedState s sel d := by
  simp only [setAccessed, accessedFits, accessedState]
  split
  · rename_i h; simp [h, eq_comm]
  · rename_i h
    simp only [writeBytes_eq_ok, translates, List.length_cons, List.length_nil, Bool.and_true, h,
      Bool.false_or]

end Sys2Proof.Machine
end

