-- ==== Sys2Proof/Laws/Calls.lean ====
section
/-! SUPPORT. What each path of a CALL does, said once: an inversion lemma for every shared procedure, and the
list of everything an instruction that answers can have done. -/

namespace Sys2Proof.Machine

/-! ## Small facts -/

theorem guardShape_eq_ok {s : State} {b : Bool} {u : Unit} :
    guardShape s b = .ok u ↔ shapeAllowed s b = true := by
  unfold guardShape shapeAllowed
  cases s.params.stackOperand <;> cases b <;> simp [refuse]

theorem guardOverlap_eq_ok {s : State} {o : OperandRange} {n k : Nat} {u : Unit} :
    guardOverlap s o s.segs.ss.base (s.slots n k) n s.cpl = .ok u ↔ overlapAllowed s o n k = true := by
  unfold guardOverlap overlapAllowed
  cases s.params.stackOperand
  · cases operandOverlaps s o s.segs.ss.base (s.slots n k) n s.cpl <;> simp [refuse]
  · simp

theorem room_of_pushFits {s : State} {cpl : BitVec 2} {n k : Nat} (h : pushFits s cpl n k = true) :
    s.room n k = true := by
  simp only [pushFits, Bool.and_eq_true] at h
  exact h.1

/-! ## Near calls -/

/-- Both checks of a near call hold when it answers (R114). -/
theorem nearCheck_eq_ok {s : State} {sz : Size} {target : Word} {u : Unit} :
    nearCheck s sz target = .ok u ↔
      inCodeLimit s.mode s.segs.cs.limit target = true ∧ s.room (sizeBytes sz) 1 = true := by
  unfold nearCheck
  cases inCodeLimit s.mode s.segs.cs.limit target <;> cases s.room (sizeBytes sz) 1 <;>
    simp [raise]
  split <;> simp

/-- Everything NearCall can do (R114). -/
theorem nearCall_eq_ok {s t : State} {sz : Size} {next target : Word} :
    nearCall s sz next target = .ok t ↔
      inCodeLimit s.mode s.segs.cs.limit target = true ∧ pushFits s s.cpl (sizeBytes sz) 1 = true ∧
        t = (pushedState s s.cpl (bytesOf sz next)).withEip target := by
  simp only [nearCall, bind_eq_ok, nearCheck_eq_ok, push_eq_ok]
  constructor
  · rintro ⟨_, ⟨h1, _⟩, s', ⟨h2, rfl⟩, h⟩
    cases h
    exact ⟨h1, h2, rfl⟩
  · rintro ⟨h1, h2, rfl⟩
    exact ⟨(), ⟨h1, room_of_pushFits h2⟩, _, ⟨h2, rfl⟩, rfl⟩

/-- Everything a near relative call can do (R110, R111). -/
theorem nearRelative_eq_ok {s t : State} {sz : Size} {len : Nat} {rel : Word} :
    nearRelative s sz len rel = .ok t ↔ ∃ next, nextEip s len = .ok next ∧
      nearCall s sz next (cut sz (next + rel)) = .ok t := by
  simp only [nearRelative, bind_eq_ok]

/-- Everything a near indirect call can do (R112, R113, R116). -/
theorem nearIndirect_eq_ok {s t : State} {sz : Size} {len : Nat} {p : Prefixes} {o : Rm} :
    nearIndirect s sz len p o = .ok t ↔ ∃ next target, nextEip s len = .ok next ∧
      shapeAllowed s (rmUsesEsp o) = true ∧ readRm s p sz o = .ok target ∧
      overlapAllowed s (rmRange s p sz o) (sizeBytes sz) 1 = true ∧
      nearCall s sz next target = .ok t := by
  simp only [nearIndirect, bind_eq_ok, guardShape_eq_ok, guardOverlap_eq_ok]
  constructor
  · rintro ⟨next, h1, _, h2, target, h3, _, h4, h5⟩
    exact ⟨next, target, h1, h2, h3, h4, h5⟩
  · rintro ⟨next, target, h1, h2, h3, h4, h5⟩
    exact ⟨next, h1, (), h2, target, h3, (), h4, h5⟩

/-! ## Far calls in Real Address Mode and Virtual 8086 Mode -/

/-- The two pushes of a far call, then anything. -/
theorem farPushes_bind_eq_ok {s t : State} {sz : Size} {next : Word} {f : State → Except Stop State} :
    (pushSelector s s.cpl sz s.segs.cs.sel >>= fun s1 => push s1 s.cpl sz next >>= f) = .ok t ↔
      pushFits s s.cpl (sizeBytes sz) 2 = true ∧ f (farPushedState s sz next) = .ok t := by
  have h := fun t' => @farPushes_eq_ok s t' sz next
  have e : (pushSelector s s.cpl sz s.segs.cs.sel >>= fun s1 => push s1 s.cpl sz next >>= f) =
      ((pushSelector s s.cpl sz s.segs.cs.sel >>= fun s1 => push s1 s.cpl sz next) >>= f) := by
    cases pushSelector s s.cpl sz s.segs.cs.sel <;> rfl
  rw [e, bind_eq_ok]
  constructor
  · rintro ⟨a, h1, h2⟩
    obtain ⟨h3, rfl⟩ := (h a).1 h1
    exact ⟨h3, h2⟩
  · rintro ⟨h1, h2⟩
    exact ⟨_, (h _).2 ⟨h1, rfl⟩, h2⟩

/-- Everything FarCallRealV86 can do (R134). -/
theorem farReal_eq_ok {s t : State} {c : FarCtx} {sel : Half} {off : Word} :
    farReal s c sel off = .ok t ↔
      overlapAllowed s c.opnd (sizeBytes c.sz) 2 = true ∧
      inCodeLimit s.mode s.segs.cs.limit off = true ∧ pushFits s s.cpl (sizeBytes c.sz) 2 = true ∧
        t = (loadCsReal (farPushedState s c.sz c.next) sel).withEip off := by
  simp only [farReal]
  rw [check_bind_eq_ok, guardOverlap_eq_ok, require_bind_eq_ok, require_bind_eq_ok, farPushes_bind_eq_ok]
  constructor
  · rintro ⟨h1, _, h3, h4, h5⟩
    cases h5
    exact ⟨h1, h3, h4, rfl⟩
  · rintro ⟨h1, h3, h4, rfl⟩
    exact ⟨h1, room_of_pushFits h4, h3, h4, rfl⟩

/-! ## Far calls in Protected Mode that stay on their stack -/

theorem accessedFits_congr {s t : State} (h0 : t.cr0 = s.cr0) (hp : t.params = s.params)
    (hg : t.gdtr = s.gdtr) (hl : t.ldtr = s.ldtr) (sel : Half) (d : Desc) :
    accessedFits t sel d = accessedFits s sel d := by
  rw [accessedFits, accessedFits, translatesAt_congr h0 hp, descAddr, descAddr, hg, hl]

/-- Everything the commit of a call that stays on its stack can do (R157, R162). -/
theorem sameStackCommit_eq_ok {s t : State} {c : FarCtx} {sz : Size} {sel : Half} {d : Desc}
    {target : Word} :
    sameStackCommit s c sz sel d target = .ok t ↔
      overlapAllowed s c.opnd (sizeBytes sz) 2 = true ∧ pushFits s s.cpl (sizeBytes sz) 2 = true ∧
      accessedFits s sel d = true ∧ t = sameStackState s sz c.next sel d target := by
  have ha : accessedFits (loadCs (farPushedState s sz c.next) sel d s.cpl) sel d = accessedFits s sel d :=
    accessedFits_congr (by rfl) (by rfl) (by rfl) (by rfl) _ _
  simp only [sameStackCommit]
  rw [check_bind_eq_ok, guardOverlap_eq_ok, farPushes_bind_eq_ok]
  simp only [bind_eq_ok, setAccessed_eq_ok, ha]
  constructor
  · rintro ⟨h1, h2, s3, ⟨h3, rfl⟩, h⟩
    cases h
    exact ⟨h1, h2, h3, rfl⟩
  · rintro ⟨h1, h2, h3, rfl⟩
    exact ⟨h1, h2, _, ⟨h3, rfl⟩, rfl⟩

/-- Everything a call to a conforming code segment can do (R155). -/
theorem callConforming_eq_ok {s t : State} {c : FarCtx} {sel : Half} {d : Desc} {off : Word} :
    callConforming s c sel d off = .ok t ↔
      (descDpl d).ule s.cpl = true ∧ descPresent d = true ∧
      (cut c.sz off).toNat ≤ (descLimit d).toNat ∧
      overlapAllowed s c.opnd (sizeBytes c.sz) 2 = true ∧ pushFits s s.cpl (sizeBytes c.sz) 2 = true ∧
      accessedFits s sel d = true ∧ t = sameStackState s c.sz c.next sel d (cut c.sz off) := by
  simp only [callConforming, require_bind_eq_ok, sameStackCommit_eq_ok, decide_eq_true_eq]
  constructor
  · rintro ⟨h1, h2, _, h4, h5⟩
    exact ⟨h1, h2, h4, h5⟩
  · rintro ⟨h1, h2, h4, h5, h6, h7⟩
    exact ⟨h1, h2, room_of_pushFits h6, h4, h5, h6, h7⟩

/-- Everything a call to a non-conforming code segment can do (R156). -/
theorem callNonConforming_eq_ok {s t : State} {c : FarCtx} {sel : Half} {d : Desc} {off : Word} :
    callNonConforming s c sel d off = .ok t ↔
      (selRpl sel).ule s.cpl = true ∧ (descDpl d == s.cpl) = true ∧ descPresent d = true ∧
      (cut c.sz off).toNat ≤ (descLimit d).toNat ∧
      overlapAllowed s c.opnd (sizeBytes c.sz) 2 = true ∧ pushFits s s.cpl (sizeBytes c.sz) 2 = true ∧
      accessedFits s sel d = true ∧ t = sameStackState s c.sz c.next sel d (cut c.sz off) := by
  simp only [callNonConforming, require_bind_eq_ok, sameStackCommit_eq_ok, decide_eq_true_eq]
  constructor
  · rintro ⟨h0, h1, h2, _, h4, h5⟩
    exact ⟨h0, h1, h2, h4, h5⟩
  · rintro ⟨h0, h1, h2, h4, h5, h6, h7⟩
    exact ⟨h0, h1, h2, room_of_pushFits h6, h4, h5, h6, h7⟩

/-- Everything SAME-PRIVILEGE can do (R162). -/
theorem callGateSame_eq_ok {s t : State} {c : FarCtx} {g : Desc} {csel : Half} {cd : Desc} :
    callGateSame s c g csel cd = .ok t ↔ ∃ gs, gateSize s c.sz g = .ok gs ∧
      (gateEntry gs g).toNat ≤ (descLimit cd).toNat ∧
      overlapAllowed s c.opnd (sizeBytes gs) 2 = true ∧ pushFits s s.cpl (sizeBytes gs) 2 = true ∧
      accessedFits s csel cd = true ∧ t = sameStackState s gs c.next csel cd (gateEntry gs g) := by
  simp only [callGateSame, bind_eq_ok (x := gateSize _ _ _), require_bind_eq_ok, sameStackCommit_eq_ok,
    decide_eq_true_eq]
  constructor
  · rintro ⟨gs, h1, _, h3, h4⟩
    exact ⟨gs, h1, h3, h4⟩
  · rintro ⟨gs, h1, h3, h4, h5, h6⟩
    exact ⟨gs, h1, room_of_pushFits h5, h3, h4, h5, h6⟩

/-! ## Far calls to more privilege -/

/-- Room for several values pushed in order is room for the first ones and then for the rest (R65). -/
theorem pushFits_append {n : Nat} {cpl : BitVec 2} (k : Nat) : ∀ (vals : List (List Byte)) (s : State),
    (∀ v ∈ vals, v.length = n) →
    pushFits s cpl n (vals.length + k) =
      (pushFits s cpl n vals.length && pushFits (pushedStates s cpl vals) cpl n k) := by
  intro vals
  induction vals with
  | nil =>
    intro s _
    have h0 : pushFits s cpl n 0 = true := by
      simp [pushFits, State.room, State.slots, stackRoom, pushSlots]
    simp [pushedStates, h0]
  | cons v vals ih =>
    intro s h
    obtain ⟨hv, hs⟩ : v.length = n ∧ ∀ w ∈ vals, w.length = n := by simpa using h
    subst hv
    have e : (v :: vals).length + k = (vals.length + k) + 1 := by simp only [List.length_cons]; omega
    rw [e, pushFits_succ, ih _ hs, List.length_cons, pushFits_succ s cpl vals.length v, Bool.and_assoc]
    rfl

theorem pushedStates_append (cpl : BitVec 2) (xs ys : List (List Byte)) : ∀ s,
    pushedStates s cpl (xs ++ ys) = pushedStates (pushedStates s cpl xs) cpl ys := by
  induction xs with
  | nil => intro _; rfl
  | cons x xs ih => intro s; exact ih _

theorem pushedStates_withDraws (cpl : BitVec 2) (n : Nat) (xs : List (List Byte)) : ∀ s : State,
    pushedStates (s.withDraws n) cpl xs = (pushedStates s cpl xs).withDraws n := by
  induction xs with
  | nil => intro _; rfl
  | cons x xs ih => intro s; rw [pushedStates, pushedState_withDraws, ih]; rfl

/-- Several pushes change memory, the written addresses and the stack pointer only. -/
theorem pushedStates_frame (cpl : BitVec 2) (xs : List (List Byte)) : ∀ s : State,
    ∃ m w r, pushedStates s cpl xs = { s with mem := m, written := w, regs := r } := by
  induction xs with
  | nil => intro s; exact ⟨_, _, _, rfl⟩
  | cons x xs ih =>
    intro s
    obtain ⟨m, w, r, h⟩ := ih (pushedState s cpl x)
    exact ⟨m, w, r, by rw [pushedStates, h]; rfl⟩

theorem pushedStates_draws (cpl : BitVec 2) (xs : List (List Byte)) (s : State) :
    (pushedStates s cpl xs).draws = s.draws := by
  obtain ⟨m, w, r, h⟩ := pushedStates_frame cpl xs s
  rw [h]

/-- The accessed bit of a descriptor: memory and the written addresses only. -/
theorem accessedState_frame (s : State) (sel : Half) (d : Desc) :
    ∃ m w, accessedState s sel d = { s with mem := m, written := w } := by
  unfold accessedState
  split
  · exact ⟨_, _, rfl⟩
  · exact ⟨_, _, rfl⟩

@[simp] theorem accessedState_draws (s : State) (sel : Half) (d : Desc) :
    (accessedState s sel d).draws = s.draws := by
  obtain ⟨m, w, h⟩ := accessedState_frame s sel d
  rw [h]

@[simp] theorem switchedState_draws (s : State) (nss : Half) (sd : Desc) (nsp : Word) (csel : Half)
    (cd : Desc) : (switchedState s nss sd nsp csel cd).draws = s.draws := by
  rw [switchedState, accessedState_draws, loadCs_draws, accessedState_draws, loadSs_draws]

/-- The old stack pointer's value is pushed from a state that differs in the draw count at most. -/
theorem oldStackPointer_frame (s : State) (sz : Size) :
    (oldStackPointer s sz).1 = s.withDraws (oldStackPointer s sz).1.draws := by
  unfold oldStackPointer
  split <;> rfl

theorem newStackPointer_frame {s s' : State} {sp nsp : Word} {sd : Desc}
    (h : newStackPointer s sp sd = .ok (s', nsp)) : s' = s.withDraws s'.draws := by
  unfold newStackPointer at h
  split at h
  · split at h
    · exact absurd h not_refuse_ok
    · cases h; rfl
  · cases h; rfl

/-- The seven kinds of write of a call to more privilege, in order, in the form the inversion uses. -/
theorem selector_rest_selector_eq_ok {s t : State} {cpl : BitVec 2} {gs : Size} {oss ocs : Half}
    {vs : List Word} {next : Word} :
    (pushSelector s cpl gs oss >>= fun a => pushAll a cpl gs vs >>= fun b =>
      pushSelector b cpl gs ocs >>= fun c => push c cpl gs next) = .ok t ↔
      pushFits s cpl (sizeBytes gs) (vs.length + 3) = true ∧
      t = (pushedStates s cpl ([selectorBytes s.draws gs oss] ++ vs.map (bytesOf gs) ++
        [selectorBytes (s.draws + selectorDraws gs) gs ocs, bytesOf gs next])).withDraws
          (s.draws + 2 * selectorDraws gs) := by
  have hlen : ∀ v ∈ vs.map (bytesOf gs), v.length = sizeBytes gs := by
    intro v hv
    obtain ⟨w, _, rfl⟩ := List.mem_map.1 hv
    exact length_bytesOf gs w
  have e1 := pushFits_succ s cpl (vs.length + 2) (selectorBytes s.draws gs oss)
  have e2 := pushFits_append (n := sizeBytes gs) (cpl := cpl) 2 (vs.map (bytesOf gs))
    (pushedState s cpl (selectorBytes s.draws gs oss)) hlen
  have e3 := pushFits_succ
    (pushedStates (pushedState s cpl (selectorBytes s.draws gs oss)) cpl (vs.map (bytesOf gs))) cpl 1
    (selectorBytes (s.draws + selectorDraws gs) gs ocs)
  rw [length_selectorBytes] at e1 e3
  rw [List.length_map] at e2
  have e : pushFits s cpl (sizeBytes gs) (vs.length + 3) = _ := e1
  rw [e, e2, e3]
  simp only [bind_eq_ok, pushSelector_eq_ok, pushAll_eq_ok, push_eq_ok, Bool.and_eq_true,
    pushedStates_append, pushedStates]
  constructor
  · rintro ⟨a, ⟨h1, rfl⟩, b, ⟨h2, rfl⟩, c, ⟨h3, rfl⟩, h4, rfl⟩
    simp only [pushFits_withDraws, pushedStates_withDraws, pushedState_withDraws, withDraws_draws] at h2 h3 h4 ⊢
    refine ⟨⟨h1, h2, h3, h4⟩, ?_⟩
    rw [show s.draws + 2 * selectorDraws gs = s.draws + selectorDraws gs + selectorDraws gs by omega]
    rfl
  · rintro ⟨⟨h1, h2, h3, h4⟩, rfl⟩
    refine ⟨_, ⟨h1, rfl⟩, _, ⟨by rwa [pushFits_withDraws], rfl⟩, _, ⟨?_, rfl⟩, ?_, ?_⟩
    · rwa [pushedStates_withDraws, pushFits_withDraws]
    · simp only [pushedStates_withDraws, pushedState_withDraws, withDraws_draws, pushFits_withDraws]
      exact h4
    · simp only [pushedStates_withDraws, pushedState_withDraws, withDraws_draws]
      rw [show s.draws + 2 * selectorDraws gs = s.draws + selectorDraws gs + selectorDraws gs by omega]
      rfl

theorem accessedFits_accessedState (s : State) (sel sel' : Half) (d d' : Desc) :
    accessedFits (accessedState s sel d) sel' d' = accessedFits s sel' d' := by
  obtain ⟨m, w, h⟩ := accessedState_frame s sel d
  rw [h]
  exact accessedFits_congr (by rfl) (by rfl) (by rfl) (by rfl) _ _

/-- Everything the commit of a call to more privilege can do (R161). -/
theorem morePrivilegeCommit_eq_ok {s t : State} {c : FarCtx} {gs : Size} {nss csel : Half}
    {sd cd : Desc} {nsp entry : Word} {params : List Word} :
    morePrivilegeCommit s c gs nss sd nsp csel cd params entry = .ok t ↔
      morePrivilegeFits (oldStackPointer s gs).1 (sizeBytes gs) (4 + params.length) nss sd nsp csel cd = true ∧
        t = morePrivilegeState s gs c.next nss sd nsp csel cd params entry := by
  have hcpl : (oldStackPointer s gs).1.cpl = s.cpl := by
    rw [oldStackPointer_frame, withDraws_cpl]
  generalize ho : oldStackPointer s gs = o at hcpl
  obtain ⟨s0, osp⟩ := o
  simp only at hcpl
  have hf1 : accessedFits (loadSs s0 nss sd nsp) nss sd = accessedFits s0 nss sd :=
    accessedFits_congr (by rfl) (by rfl) (by rfl) (by rfl) _ _
  have hf2 : accessedFits (loadCs (accessedState (loadSs s0 nss sd nsp) nss sd) csel cd (descDpl cd)) csel cd =
      accessedFits s0 csel cd := by
    rw [show accessedFits s0 csel cd = accessedFits (accessedState (loadSs s0 nss sd nsp) nss sd) csel cd by
      rw [accessedFits_accessedState]; exact accessedFits_congr (by rfl) (by rfl) (by rfl) (by rfl) _ _]
    exact accessedFits_congr (by rfl) (by rfl) (by rfl) (by rfl) _ _
  have hp := fun t' : State => @selector_rest_selector_eq_ok (switchedState s0 nss sd nsp csel cd) t'
    (newStackCpl s.cpl (descDpl cd)) gs s.segs.ss.sel s.segs.cs.sel (osp :: params.reverse) c.next
  simp only [morePrivilegeCommit, ho, morePrivilegeFits, hcpl, morePrivilegeState, Bool.and_eq_true]
  rw [bind_eq_ok]
  simp only [setAccessed_eq_ok, hf1]
  constructor
  · rintro ⟨s1, ⟨h1, rfl⟩, h⟩
    rw [bind_eq_ok] at h
    obtain ⟨s2, h2, h⟩ := h
    rw [setAccessed_eq_ok, hf2] at h2
    obtain ⟨h2, rfl⟩ := h2
    simp only [bind_eq_ok] at h
    obtain ⟨a, ha, b, hb, d, hd, e, he, h⟩ := h
    have hall := (hp e).1 (by simp only [bind_eq_ok]; exact ⟨a, ha, b, hb, d, hd, he⟩)
    obtain ⟨h3, rfl⟩ := hall
    cases h
    refine ⟨⟨⟨h1, h2⟩, ?_⟩, ?_⟩
    · have : 4 + params.length = (osp :: params.reverse).length + 3 := by simp; omega
      rw [this]; exact h3
    · simp only [switchedState_draws, morePrivilegePushes, List.map_cons, List.cons_append,
        List.nil_append]
  · rintro ⟨⟨⟨h1, h2⟩, h3⟩, rfl⟩
    refine ⟨_, ⟨h1, rfl⟩, ?_⟩
    rw [bind_eq_ok]
    refine ⟨_, setAccessed_eq_ok.2 ⟨hf2.trans h2, rfl⟩, ?_⟩
    have h4 := (hp _).2 ⟨by
      have : 4 + params.length = (osp :: params.reverse).length + 3 := by simp; omega
      rw [← this]; exact h3, rfl⟩
    simp only [bind_eq_ok] at h4 ⊢
    obtain ⟨a, ha, b, hb, d, hd, he⟩ := h4
    refine ⟨a, ha, b, hb, d, hd, _, he, ?_⟩
    simp only [switchedState_draws, morePrivilegePushes, List.map_cons, List.cons_append,
        List.nil_append]

theorem length_readParams {sz : Size} : ∀ {n k : Nat} {s : State} {vs : List Word},
    readParams s sz k n = .ok vs → vs.length = n := by
  intro n
  induction n with
  | zero => intro k s vs h; cases h; rfl
  | succ n ih =>
    intro k s vs h
    simp only [readParams, bind_eq_ok] at h
    obtain ⟨v, _, vs', h2, h3⟩ := h
    cases h3
    rw [List.length_cons, ih h2]

/-- The pushes of a call to more privilege are not refused as overlapping the operand (R132). -/
theorem guardOverlap_ok_iff {s : State} {o : OperandRange} {b : Word} {sl : List Word} {n : Nat}
    {c : BitVec 2} {u : Unit} : guardOverlap s o b sl n c = .ok u ↔
      (s.params.stackOperand == .readFirst || !operandOverlaps s o b sl n c) = true := by
  unfold guardOverlap
  cases s.params.stackOperand
  · cases operandOverlaps s o b sl n c <;> simp [refuse]
  · simp

/-- What MORE-PRIVILEGE can do when it answers: M1 to M9 hold, and the state is that of R161 (R160, R161). -/
theorem callGateMore_ok {s t : State} {c : FarCtx} {g : Desc} {csel : Half} {cd : Desc}
    (h : callGateMore s c g csel cd = .ok t) :
    ∃ nss tsp sd s' nsp gs params,
      tssStack s (descDpl cd).toNat = .ok (nss, tsp) ∧ selNull nss = false ∧ selInTable s nss = true ∧
      selRpl nss = descDpl cd ∧ readDescriptor s nss = .ok sd ∧ descDpl sd = descDpl cd ∧
      (arData (descAr sd) && arWritable (descAr sd)) = true ∧ descPresent sd = true ∧
      newStackPointer s tsp sd = .ok (s', nsp) ∧ gateSize s c.sz g = .ok gs ∧
      (gateEntry gs g).toNat ≤ (descLimit cd).toNat ∧
      readParams s' gs 0 (gateCount g) = .ok params ∧
      t = morePrivilegeState s' gs c.next nss sd nsp csel cd params (gateEntry gs g) := by
  simp only [callGateMore] at h
  rw [bind_eq_ok] at h
  obtain ⟨⟨nss, tsp⟩, h1, h⟩ := h
  rw [require_bind_eq_ok, require_bind_eq_ok, require_bind_eq_ok, bind_eq_ok] at h
  obtain ⟨h2, h3, h4, sd, h5, h⟩ := h
  rw [require_bind_eq_ok, require_bind_eq_ok, require_bind_eq_ok, bind_eq_ok] at h
  obtain ⟨h6, h7, h8, ⟨s', nsp⟩, h9, h⟩ := h
  rw [bind_eq_ok] at h
  obtain ⟨gs, h10, h⟩ := h
  rw [require_bind_eq_ok, require_bind_eq_ok, bind_eq_ok] at h
  obtain ⟨_, h12, params, h13, h⟩ := h
  rw [check_bind_eq_ok, morePrivilegeCommit_eq_ok] at h
  refine ⟨nss, tsp, sd, s', nsp, gs, params, h1, by simpa using h2, h3, by simpa using h4, h5,
    by simpa using h6, h7, h8, h9, h10, by simpa using h12, h13, h.2.2⟩

/-- What CALL-GATE can do when it answers: G1 to G8 hold, then one of its two paths (R158). -/
theorem callGate_ok {s t : State} {c : FarCtx} {gsel : Half} {g : Desc}
    (h : callGate s c gsel g = .ok t) :
    ∃ cd, s.cpl.ule (descDpl g) = true ∧ (selRpl gsel).ule (descDpl g) = true ∧
      descPresent g = true ∧ selNull (gateSelector g) = false ∧ selInTable s (gateSelector g) = true ∧
      readDescriptor s (gateSelector g) = .ok cd ∧ arCode (descAr cd) = true ∧
      (descDpl cd).ule s.cpl = true ∧ descPresent cd = true ∧
      ((arConforming (descAr cd) = false ∧ (descDpl cd).ult s.cpl = true ∧
          callGateMore s c g (gateSelector g) cd = .ok t) ∨
        callGateSame s c g (gateSelector g) cd = .ok t) := by
  simp only [callGate] at h
  rw [require_bind_eq_ok, require_bind_eq_ok, require_bind_eq_ok, require_bind_eq_ok,
    require_bind_eq_ok, bind_eq_ok] at h
  obtain ⟨h1, h2, h3, h4, h5, cd, h6, h⟩ := h
  rw [require_bind_eq_ok, require_bind_eq_ok, require_bind_eq_ok] at h
  obtain ⟨h7, h8, h9, h⟩ := h
  refine ⟨cd, h1, h2, h3, by simpa using h4, h5, h6, h7, h8, h9, ?_⟩
  split at h
  · rename_i hc
    exact Or.inl ⟨by simp_all, by simp_all, h⟩
  · exact Or.inr h

theorem callTaskGate_not_ok {s t : State} {gsel : Half} {g : Desc} : callTaskGate s gsel g ≠ .ok t := by
  simp only [callTaskGate, ne_eq, bind_eq_ok, not_refuse_ok, and_false, exists_false,
    not_false_eq_true]

theorem callTss_not_ok {s t : State} {sel : Half} {d : Desc} : callTss s sel d ≠ .ok t := by
  unfold callTss
  split
  · exact not_refuse_ok
  · simp only [ne_eq, require_bind_eq_ok, not_refuse_ok, and_false, not_false_eq_true]

/-- What FarCallProtected can do when it answers: stay on the stack with CPL unchanged, or go through a call
gate to more privilege (R150 to R162). -/
theorem farProtected_ok {s t : State} {c : FarCtx} {sel : Half} {off : Word}
    (h : farProtected s c sel off = .ok t) :
    (∃ sz csel cd target, t = sameStackState s sz c.next csel cd target) ∨
    (∃ nss tsp sd s' nsp gs csel cd params entry,
      (∃ g, gateToMore s sel g cd) ∧ (descDpl cd).ult s.cpl = true ∧ selRpl nss = descDpl cd ∧
      newStackPointer s tsp sd = .ok (s', nsp) ∧
      t = morePrivilegeState s' gs c.next nss sd nsp csel cd params entry) := by
  simp only [farProtected] at h
  rw [require_bind_eq_ok, require_bind_eq_ok, bind_eq_ok] at h
  obtain ⟨hn, ht, d, hd, h⟩ := h
  have hg : names s sel d := ⟨by simpa using hn, ht, hd⟩
  unfold farByKind at h
  split at h
  · exact Or.inl ⟨_, _, _, _, (callConforming_eq_ok.1 h).2.2.2.2.2.2⟩
  · exact Or.inl ⟨_, _, _, _, (callNonConforming_eq_ok.1 h).2.2.2.2.2.2.2⟩
  · rename_i hk
    obtain ⟨cd, g1, g2, g3, k1, k2, k3, g6, g7, g8, ⟨hc, hlt, h⟩ | h⟩ := callGate_ok h
    · obtain ⟨nss, tsp, sd, s', nsp, gs, params, _, _, _, hr, _, _, _, _, hn, _, _, _, ht⟩ :=
        callGateMore_ok h
      exact Or.inr ⟨nss, tsp, sd, s', nsp, gs, _, cd, params, _,
        ⟨d, hg, hk, by rw [gateOpen, g1, g2, g3, k1, k2]; rfl, ⟨k1, k2, k3⟩, by rw [gateCodeOk, g6, g7, g8]; rfl,
          by rw [toMorePrivilege, hc, hlt]; rfl⟩, hlt, hr, hn, ht⟩
    · obtain ⟨gs, _, _, _, _, _, ht⟩ := callGateSame_eq_ok.1 h
      exact Or.inl ⟨_, _, _, _, ht⟩
  · exact absurd h callTaskGate_not_ok
  · exact absurd h callTss_not_ok
  · exact absurd h not_raise_ok

/-! ## All instructions -/

/-- Everything a far call can have done when it answers (R136). -/
theorem farCall_ok {s t : State} {c : FarCtx} {sel : Half} {off : Word}
    (h : farCall s c sel off = .ok t) :
    (s.mode ≠ .prot ∧ ∃ sz next, t = (loadCsReal (farPushedState s sz next) sel).withEip off) ∨
    (s.mode = .prot ∧ ∃ sz next csel cd target, t = sameStackState s sz next csel cd target) ∨
    (s.mode = .prot ∧ ∃ nss tsp sd s' nsp gs next csel cd params entry,
      (∃ g, gateToMore s sel g cd) ∧ (descDpl cd).ult s.cpl = true ∧ selRpl nss = descDpl cd ∧
      newStackPointer s tsp sd = .ok (s', nsp) ∧
      t = morePrivilegeState s' gs next nss sd nsp csel cd params entry) := by
  unfold farCall at h
  split at h
  · rename_i hm
    exact Or.inl ⟨by simp [hm], _, _, (farReal_eq_ok.1 h).2.2.2⟩
  · rename_i hm
    exact Or.inl ⟨by simp [hm], _, _, (farReal_eq_ok.1 h).2.2.2⟩
  · rename_i hm
    rcases farProtected_ok h with ⟨sz, csel, cd, target, ht⟩ | ⟨nss, tsp, sd, s', nsp, gs, csel, cd, ps, e, h0, h1, h2, h3, ht⟩
    · exact Or.inr (Or.inl ⟨hm, sz, _, csel, cd, target, ht⟩)
    · exact Or.inr (Or.inr ⟨hm, nss, tsp, sd, s', nsp, gs, _, csel, cd, ps, e, h0, h1, h2, h3, ht⟩)

/-- Everything an instruction can have done when it answers: a near call pushes and jumps; a far call takes
one of the three shapes of `farCall_ok` with the pointer its form gives (R39). -/
theorem exec_next {i : Instr} {s t : State} (h : exec i s = .next t) :
    (isNear i = true ∧ ∃ sz next target, t = (pushedState s s.cpl (bytesOf sz next)).withEip target) ∨
    (isNear i = false ∧ ∃ next sz sel off opnd, nextEip s (instrLength i) = .ok next ∧
      farForm s i = some (sz, sel, off, opnd) ∧ farCall s ⟨sz, next, opnd⟩ sel off = .ok t) := by
  have near : ∀ {sz next target}, nearCall s sz next target = .ok t →
      ∃ sz next target, t = (pushedState s s.cpl (bytesOf sz next)).withEip target :=
    fun h => ⟨_, _, _, (nearCall_eq_ok.1 h).2.2⟩
  have direct : ∀ {sz len sel off}, farDirect s sz len sel off = .ok t →
      ∃ next, nextEip s len = .ok next ∧ farCall s ⟨sz, next, none⟩ sel off = .ok t := by
    intro sz len sel off h
    simp only [farDirect, bind_eq_ok] at h
    exact h
  have indirect : ∀ {sz len p m}, farIndirect s sz len p m = .ok t →
      ∃ next ptr, nextEip s len = .ok next ∧
        readFarPointer s p sz m = .ok ptr ∧
        farCall s ⟨sz, next, memRange s p m (sizeBytes sz + 2)⟩ ptr.1 ptr.2 = .ok t := by
    intro sz len p m h
    simp only [farIndirect] at h
    rw [bind_eq_ok] at h
    obtain ⟨next, h1, h⟩ := h
    rw [bind_eq_ok] at h
    obtain ⟨ptr, h2, h⟩ := h
    exact ⟨next, ptr, h1, h2, h⟩
  cases i with
  | callRel16 p rel =>
    obtain ⟨_, _, h⟩ := nearRelative_eq_ok.1 (toOutcome_next.1 h)
    exact Or.inl ⟨rfl, near h⟩
  | callRel32 p rel =>
    obtain ⟨_, _, h⟩ := nearRelative_eq_ok.1 (toOutcome_next.1 h)
    exact Or.inl ⟨rfl, near h⟩
  | callRm16 p o =>
    obtain ⟨_, _, _, _, _, _, h⟩ := nearIndirect_eq_ok.1 (toOutcome_next.1 h)
    exact Or.inl ⟨rfl, near h⟩
  | callRm32 p o =>
    obtain ⟨_, _, _, _, _, _, h⟩ := nearIndirect_eq_ok.1 (toOutcome_next.1 h)
    exact Or.inl ⟨rfl, near h⟩
  | callPtr1616 p sel off =>
    obtain ⟨next, h1, h⟩ := direct (toOutcome_next.1 h)
    exact Or.inr ⟨rfl, next, _, _, _, _, h1, rfl, h⟩
  | callPtr1632 p sel off =>
    obtain ⟨next, h1, h⟩ := direct (toOutcome_next.1 h)
    exact Or.inr ⟨rfl, next, _, _, _, _, h1, rfl, h⟩
  | callM1616 p m =>
    obtain ⟨next, ptr, h1, h2, h⟩ := indirect (toOutcome_next.1 h)
    exact Or.inr ⟨rfl, next, _, _, _, _, h1, by simp only [farForm, h2]; rfl, h⟩
  | callM1632 p m =>
    obtain ⟨next, ptr, h1, h2, h⟩ := indirect (toOutcome_next.1 h)
    exact Or.inr ⟨rfl, next, _, _, _, _, h1, by simp only [farForm, h2]; rfl, h⟩

/-- A step that answers ran an instruction it fetched (R16). -/
theorem step_next {s t : State} (h : step s = .next t) :
    ∃ i, launchCheck s = .ok () ∧ fetchInstr s = .ok i ∧ exec i s = .next t := by
  unfold step at h
  split at h
  · exact absurd (toOutcome_next.1 h) (by simp)
  · rename_i h1
    split at h
    · exact absurd (toOutcome_next.1 h) (by simp)
    · rename_i i h2
      exact ⟨i, h1, h2, h⟩

end Sys2Proof.Machine
end

