-- ==== Sys2Proof/Laws/Frames.lean ====
section
/-! SUPPORT. What the states a call leaves share with the state before it: registers, system state and every
byte of memory that is not stored to. -/

namespace Sys2Proof.Machine

/-! ## Register arithmetic -/

theorem low16_add (a b : Word) : low16 (a + b) = low16 a + low16 b := by
  simp only [low16]
  apply BitVec.eq_of_toNat_eq; simp

theorem low16_sub (a b : Word) : low16 (a - b) = low16 a - low16 b := by
  simp only [low16]
  apply BitVec.eq_of_toNat_eq; simp; omega

theorem low16_signExtend (h : Half) : low16 (h.signExtend 32) = h := by
  ext i hi
  simp only [low16, BitVec.getElem_extractLsb', Nat.zero_add, BitVec.getLsbD_signExtend, hi, if_true, show i < 32 by omega, decide_true, Bool.true_and]
  exact BitVec.getLsbD_eq_getElem hi

theorem esp_high_set (r : Regs) (v : Word) :
    (setStackPointer .w16 r v).esp.extractLsb' 16 16 = r.esp.extractLsb' 16 16 := by
  simp only [setStackPointer, withLow16]
  ext i hi
  simp only [BitVec.getElem_extractLsb', BitVec.getLsbD_append]
  simp [hi]

theorem selRpl_withRpl (sel : Half) (c : BitVec 2) : selRpl (withRpl sel c) = c := by
  simp only [selRpl, withRpl]
  ext i hi
  simp only [BitVec.getElem_extractLsb', BitVec.getLsbD_append]
  simp [hi]

theorem cut_sub (sz : Size) (a b : Word) : cut sz (cut sz a - b) = cut sz (a - b) := by
  cases sz
  · simp only [cut, low16_sub, low16_zext32]
  · rfl

/-! ## Pushes, accessed bits, far calls -/

/-- The addresses of stored cells are the physical addresses of the bytes. -/
theorem map_fst_storedCells {s : State} {cpl : BitVec 2} (bs : List Byte) : ∀ lin : Word,
    (storedCells s cpl lin bs).map Prod.fst = physAddrs s .write cpl lin bs.length := by
  induction bs with
  | nil => intro _; rfl
  | cons b bs ih =>
    intro lin
    simp only [storedCells, List.length_cons, physAddrs]
    cases translate s lin .write cpl <;> simp [ih]

/-- The addresses of bytes depend on CR0 and the launch parameters only (R57). -/
theorem physAddrs_congr {s t : State} (h0 : t.cr0 = s.cr0) (hp : t.params = s.params) (k : AccessKind)
    (cpl : BitVec 2) (n : Nat) : ∀ lin, physAddrs t k cpl lin n = physAddrs s k cpl lin n := by
  induction n with
  | zero => intro _; rfl
  | succ n ih => intro lin; simp only [physAddrs, translate_congr h0 hp, ih]

theorem wf_pushedState {s : State} {cpl : BitVec 2} {bs : List Byte} (h : Memory.wf s.mem = true) :
    Memory.wf (pushedState s cpl bs).mem = true := wf_storeMem h

/-- A push leaves every byte but its own (R56, R61). -/
theorem memRead_pushedState {s : State} {cpl : BitVec 2} {bs : List Byte} {a : Nat} (h : Memory.wf s.mem = true)
    (ha : a ∉ physAddrs s .write cpl (linear s.segs.ss (stackDown s.stackSize s.sp bs.length)) bs.length) :
    memRead (pushedState s cpl bs).mem a = memRead s.mem a := by
  show memRead (storeMem s.mem _) a = _
  rw [memRead_storeMem h, overlay_of_not_mem (by rw [map_fst_storedCells]; exact ha)]

theorem wf_pushedStates {cpl : BitVec 2} (xs : List (List Byte)) : ∀ {s : State}, Memory.wf s.mem = true →
    Memory.wf (pushedStates s cpl xs).mem = true := by
  induction xs with
  | nil => exact id
  | cons x xs ih => exact fun h => ih (wf_pushedState h)

/-- Several pushes leave every byte but those at their slots (R56, R65). -/
theorem memRead_pushedStates {cpl : BitVec 2} {n a : Nat} (xs : List (List Byte)) : ∀ {s : State},
    Memory.wf s.mem = true → (∀ x ∈ xs, x.length = n) →
    (∀ off ∈ pushSlots s.stackSize n s.sp xs.length, a ∉ physAddrs s .write cpl (linear s.segs.ss off) n) →
    memRead (pushedStates s cpl xs).mem a = memRead s.mem a := by
  induction xs with
  | nil => intros; rfl
  | cons x xs ih =>
    intro s h hl ha
    have hx : x.length = n := hl x (by simp)
    subst hx
    simp only [List.length_cons, pushSlots, List.mem_cons, forall_eq_or_imp] at ha
    rw [pushedStates, ih (wf_pushedState h) (fun y hy => hl y (by simp [hy])) ?_, memRead_pushedState h ha.1]
    intro off ho
    rw [stackSize_pushedState, sp_pushedState] at ho
    rw [physAddrs_congr (s := s) (by rfl) (by rfl)]
    exact ha.2 off ho

theorem wf_accessedState {s : State} {sel : Half} {d : Desc} (h : Memory.wf s.mem = true) :
    Memory.wf (accessedState s sel d).mem = true := by
  unfold accessedState
  split
  · exact h
  · exact wf_storeMem h

/-- The accessed bit leaves every byte but its own (R66). -/
theorem memRead_accessedState {s : State} {sel : Half} {d : Desc} {a : Nat} (h : Memory.wf s.mem = true)
    (ha : arAccessed (descAr d) = false → a ∉ physAddrs s .write 0 (descAddr s sel + 5) 1) :
    memRead (accessedState s sel d).mem a = memRead s.mem a := by
  unfold accessedState
  split
  · rfl
  · rename_i hc
    show memRead (storeMem s.mem _) a = _
    rw [memRead_storeMem h, overlay_of_not_mem (by rw [map_fst_storedCells]; exact ha (by simpa using hc))]

/-- Pushes on a 16-bit stack keep ESP's upper half (R22, R56). -/
theorem esp_high_pushedStates {cpl : BitVec 2} (xs : List (List Byte)) : ∀ {s : State}, s.stackSize = .w16 →
    (pushedStates s cpl xs).regs.esp.extractLsb' 16 16 = s.regs.esp.extractLsb' 16 16 := by
  induction xs with
  | nil => intros; rfl
  | cons x xs ih =>
    intro s h
    rw [pushedStates, ih ((stackSize_pushedState s cpl x).trans h), pushedState_regs, h, esp_high_set]

/-- Pushes write no register but ESP (R56). -/
theorem regs_pushedStates {cpl : BitVec 2} (xs : List (List Byte)) : ∀ {s : State} {r : Reg}, r ≠ .esp →
    (pushedStates s cpl xs).regs.get r = s.regs.get r := by
  induction xs with
  | nil => intros; rfl
  | cons x xs ih =>
    intro s r h
    rw [pushedStates, ih h, pushedState_regs, setStackPointer_get h]

/-- The stack pointer after several pushes of `n` bytes (R56). -/
theorem sp_pushedStates (cpl) (n : Nat) (xs : List (List Byte)) : ∀ {s : State} (base : Word), (∀ x ∈ xs, x.length = n) → s.sp = cut s.stackSize base →
   (pushedStates s cpl xs).sp = cut s.stackSize (base - BitVec.ofNat 32 (xs.length * n)) := by
  induction xs with
  | nil => intro s base _ h; simp [pushedStates, h]
  | cons x xs ih =>
    intro s base hl h
    have hx : x.length = n := hl x (by simp)
    rw [pushedStates, ih (base - BitVec.ofNat 32 n) (fun y hy => hl y (by simp [hy]))]
    · rw [stackSize_pushedState, List.length_cons]
      congr 1
      rw [Nat.add_mul, Nat.one_mul, BitVec.ofNat_add]
      generalize BitVec.ofNat 32 (xs.length * n) = u
      generalize BitVec.ofNat 32 n = v
      apply BitVec.eq_of_toNat_eq
      simp only [BitVec.toNat_sub, BitVec.toNat_add]
      omega
    · rw [sp_pushedState, stackSize_pushedState, stackDown, hx, h]
      exact cut_sub s.stackSize base (BitVec.ofNat 32 n)

/-- What the state of a far call that stays on its stack shares with the state before it (R157, R162). -/
theorem sameStackState_frame {s : State} {sz : Size} {next target : Word} {sel : Half} {d : Desc}
    (hw : Memory.wf s.mem = true) : let t := sameStackState s sz next sel d target
    sameSystem s t ∧ sameRegsButEsp s t ∧ sameDataSegs s t ∧ t.segs.ss = s.segs.ss ∧ t.cpl = s.cpl ∧
    t.draws = s.draws + selectorDraws sz ∧
    (s.stackSize = .w16 → t.regs.esp.extractLsb' 16 16 = s.regs.esp.extractLsb' 16 16) ∧
    (∀ a, (∀ off ∈ s.slots (sizeBytes sz) 2,
        a ∉ physAddrs s .write s.cpl (linear s.segs.ss off) (sizeBytes sz)) →
      (arAccessed (descAr d) = false → a ∉ physAddrs s .write 0 (descAddr s sel + 5) 1) →
      memRead t.mem a = memRead s.mem a) := by
  intro t
  obtain ⟨m, w, h⟩ := accessedState_frame (loadCs (farPushedState s sz next) sel d s.cpl) sel d
  have hm : t.mem = (accessedState (loadCs (farPushedState s sz next) sel d s.cpl) sel d).mem := rfl
  have ht : t = State.withEip { loadCs (farPushedState s sz next) sel d s.cpl with mem := m, written := w } target := by
    show sameStackState _ _ _ _ _ _ = _
    rw [sameStackState, h]
  refine ⟨by rw [ht]; exact ⟨rfl, rfl, rfl, rfl, rfl, rfl, rfl, rfl, rfl, rfl⟩, fun r hr => ?_, by rw [ht]; exact ⟨rfl, rfl, rfl, rfl⟩, by rw [ht]; rfl, by rw [ht]; rfl, by rw [ht]; rfl, fun h16 => ?_, fun a h1 h2 => ?_⟩
  · rw [ht]; exact regs_pushedStates (cpl := s.cpl) [selectorBytes s.draws sz s.segs.cs.sel, bytesOf sz next] hr
  · rw [ht]; exact esp_high_pushedStates (cpl := s.cpl) [selectorBytes s.draws sz s.segs.cs.sel, bytesOf sz next] h16
  · have hp : memRead (farPushedState s sz next).mem a = memRead s.mem a :=
      memRead_pushedStates (n := sizeBytes sz) [selectorBytes s.draws sz s.segs.cs.sel, bytesOf sz next] hw (by simp) h1
    rw [hm, memRead_accessedState]
    · exact hp
    · exact wf_pushedStates _ hw
    · intro hc
      rw [physAddrs_congr (s := s) (by rfl) (by rfl)]
      exact h2 hc

/-- CPL, the segment registers and EIP after a far call that stays on its stack (R157, R162). -/
theorem sameStackState_fields (s : State) (sz : Size) (next : Word) (sel : Half) (d : Desc) (target : Word) :
    let t := sameStackState s sz next sel d target
    t.cpl = s.cpl ∧ t.segs = { s.segs with cs := segOfDesc (withRpl sel s.cpl) d } ∧ t.eip = target := by
  obtain ⟨m, w, h⟩ := accessedState_frame (loadCs (farPushedState s sz next) sel d s.cpl) sel d
  simp only [sameStackState, h]
  exact ⟨rfl, rfl, rfl⟩

/-- Switching stacks and loading CS writes SS, CS, ESP and the accessed bits only (R161). -/
theorem switchedState_frame (s : State) (nss : Half) (sd : Desc) (nsp : Word) (csel : Half) (cd : Desc) :
    ∃ m w, switchedState s nss sd nsp csel cd = { loadCs (loadSs s nss sd nsp) csel cd (descDpl cd) with mem := m, written := w } := by
  obtain ⟨m, w, h⟩ := accessedState_frame (loadSs s nss sd nsp) nss sd
  obtain ⟨m2, w2, h2⟩ := accessedState_frame (loadCs (accessedState (loadSs s nss sd nsp) nss sd) csel cd (descDpl cd)) csel cd
  refine ⟨m2, w2, ?_⟩
  rw [switchedState, h2, h]
  rfl

/-- The stack after the switch is the one the new descriptor gives (R161). -/
theorem switchedState_stack {s : State} (hp : s.mode = .prot) (nss : Half) (sd : Desc) (nsp : Word) (csel : Half) (cd : Desc) :
    (switchedState s nss sd nsp csel cd).stackSize = descStackSize sd ∧
    (switchedState s nss sd nsp csel cd).sp = cut (descStackSize sd) nsp ∧
    (switchedState s nss sd nsp csel cd).segs.ss = segOfDesc nss sd ∧
    (switchedState s nss sd nsp csel cd).mode = .prot := by
  obtain ⟨m, w, h⟩ := switchedState_frame s nss sd nsp csel cd
  have hmode : (switchedState s nss sd nsp csel cd).mode = .prot := by rw [h]; exact (mode_congr rfl rfl).trans hp
  have hss : (switchedState s nss sd nsp csel cd).segs.ss = segOfDesc nss sd := by rw [h]; rfl
  have hsz : (switchedState s nss sd nsp csel cd).stackSize = descStackSize sd := by
    rw [State.stackSize, hmode, hss]; rfl
  refine ⟨hsz, ?_, hss, hmode⟩
  rw [State.sp, hsz, h]
  show stackPointer _ (setStackPointer (if descDb sd then .w32 else .w16) s.regs nsp) = _
  rw [descStackSize, stackPointer_setStackPointer]

/-- Switching stacks changes no byte but the two that hold accessed bits (R66, R161). -/
theorem memRead_switchedState {s : State} {nss : Half} {sd : Desc} {nsp : Word} {csel : Half} {cd : Desc} {a : Nat}
    (hw : Memory.wf s.mem = true)
    (h1 : arAccessed (descAr sd) = false → a ∉ physAddrs s .write 0 (descAddr s nss + 5) 1)
    (h2 : arAccessed (descAr cd) = false → a ∉ physAddrs s .write 0 (descAddr s csel + 5) 1) :
    memRead (switchedState s nss sd nsp csel cd).mem a = memRead s.mem a ∧
    Memory.wf (switchedState s nss sd nsp csel cd).mem = true := by
  have w1 : Memory.wf (accessedState (loadSs s nss sd nsp) nss sd).mem = true := wf_accessedState hw
  obtain ⟨m, w, hf⟩ := accessedState_frame (loadSs s nss sd nsp) nss sd
  refine ⟨?_, wf_accessedState w1⟩
  rw [switchedState, memRead_accessedState (s := loadCs (accessedState (loadSs s nss sd nsp) nss sd) csel cd (descDpl cd)) w1]
  · show memRead (accessedState (loadSs s nss sd nsp) nss sd).mem a = _
    rw [memRead_accessedState (s := loadSs s nss sd nsp) hw]
    · rfl
    · intro hc; rw [physAddrs_congr (s := s) (by rfl) (by rfl)]; exact h1 hc
  · intro hc
    rw [physAddrs_congr (s := s) (by rw [hf]; rfl) (by rw [hf]; rfl)]
    have : descAddr (loadCs (accessedState (loadSs s nss sd nsp) nss sd) csel cd (descDpl cd)) csel = descAddr s csel := by
      rw [hf]; rfl
    rw [this]; exact h2 hc

/-- What the state of a call to more privilege shares with the state before it (R161). -/
theorem morePrivilegeState_frame {s : State} (hp : s.mode = .prot) (hw : Memory.wf s.mem = true) {gs : Size} {next nsp entry : Word}
   {nss csel : Half} {sd cd : Desc} {params : List Word} : let t := morePrivilegeState s gs next nss sd nsp csel cd params entry
    sameSystem s t ∧ sameRegsButEsp s t ∧ sameDataSegs s t ∧
    (descDb sd = false → t.regs.esp.extractLsb' 16 16 = s.regs.esp.extractLsb' 16 16) ∧
    (∀ a, (∀ off ∈ pushSlots (descStackSize sd) (sizeBytes gs) (cut (descStackSize sd) nsp) (4 + params.length),
        a ∉ physAddrs s .write (newStackCpl s.cpl (descDpl cd)) (descBase sd + off) (sizeBytes gs)) →
      (arAccessed (descAr sd) = false → a ∉ physAddrs s .write 0 (descAddr s nss + 5) 1) →
      (arAccessed (descAr cd) = false → a ∉ physAddrs s .write 0 (descAddr s csel + 5) 1) →
      memRead t.mem a = memRead s.mem a) := by
  intro t
  have h0 := oldStackPointer_frame s gs
  have ht : t = morePrivilegeState s gs next nss sd nsp csel cd params entry := rfl
  rw [morePrivilegeState] at ht
  generalize hs0 : (oldStackPointer s gs).1 = s0 at ht h0
  generalize hpush : morePrivilegePushes s s0.draws gs (oldStackPointer s gs).2 params next = pushes at ht
  have hlen : pushes.length = 4 + params.length := by rw [← hpush]; simp [morePrivilegePushes]; omega
  have hall : ∀ x ∈ pushes, x.length = sizeBytes gs := by
    rw [← hpush]; intro x hx
    simp only [morePrivilegePushes, List.mem_append, List.mem_cons, List.mem_map, List.not_mem_nil, or_false] at hx
    rcases hx with ((rfl | rfl) | ⟨y, _, rfl⟩) | (rfl | rfl) <;> simp
  have hp0 : s0.mode = .prot := by rw [h0]; exact (mode_congr rfl rfl).trans hp
  obtain ⟨z1, z2, z3, z4⟩ := switchedState_stack hp0 nss sd nsp csel cd
  obtain ⟨m, w, hf⟩ := switchedState_frame s0 nss sd nsp csel cd
  obtain ⟨m2, w2, r2, hf2⟩ := pushedStates_frame (newStackCpl s.cpl (descDpl cd)) pushes (switchedState s0 nss sd nsp csel cd)
  have hregs : ∀ r : Reg, r ≠ .esp → t.regs.get r = s.regs.get r := by
    intro r hr
    rw [ht]
    show (pushedStates _ _ _).regs.get r = _
    rw [regs_pushedStates pushes hr, hf]
    show (setStackPointer _ s0.regs nsp).get r = _
    rw [setStackPointer_get hr, h0]; rfl
  refine ⟨?_, hregs, ?_, ?_, ?_⟩
  · rw [ht, hf2, hf, h0]; exact ⟨rfl, rfl, rfl, rfl, rfl, rfl, rfl, rfl, rfl, rfl⟩
  · rw [ht, hf2, hf, h0]; exact ⟨rfl, rfl, rfl, rfl⟩
  · intro hd
    have hz : (switchedState s0 nss sd nsp csel cd).stackSize = .w16 := by rw [z1, descStackSize, hd]; rfl
    rw [ht]
    show (pushedStates _ _ _).regs.esp.extractLsb' 16 16 = _
    rw [esp_high_pushedStates pushes hz, hf]
    show (setStackPointer (if descDb sd then .w32 else .w16) s0.regs nsp).esp.extractLsb' 16 16 = _
    rw [hd]
    simp only [Bool.false_eq_true, if_false]
    rw [esp_high_set, h0]; rfl
  · intro a h1 h2 h3
    have hw0 : Memory.wf s0.mem = true := by rw [h0]; exact hw
    have hc0 : ∀ k c n l, physAddrs s0 k c l n = physAddrs s k c l n := fun k c n l => physAddrs_congr (by rw [h0]; rfl) (by rw [h0]; rfl) k c n l
    have hd0 : ∀ x, descAddr s0 x = descAddr s x := fun x => by rw [h0]; rfl
    obtain ⟨y1, y2⟩ := memRead_switchedState (s := s0) (nss := nss) (sd := sd) (nsp := nsp) (csel := csel) (cd := cd) (a := a) hw0
      (by rw [hc0, hd0]; exact h2) (by rw [hc0, hd0]; exact h3)
    rw [ht]
    show memRead (pushedStates _ _ _).mem a = _
    rw [memRead_pushedStates (n := sizeBytes gs) pushes y2 hall, y1, h0]
    · rfl
    · rw [z1, z2, hlen, z3]
      intro off ho
      rw [physAddrs_congr (s := s) (by rw [hf, h0]; rfl) (by rw [hf, h0]; rfl)]
      exact h1 off ho

/-- CPL, SS, CS and EIP after a call to more privilege (R161). -/
theorem morePrivilegeState_fields (s : State) (gs next nss sd nsp csel cd ps e) :
   (morePrivilegeState s gs next nss sd nsp csel cd ps e).cpl = descDpl cd ∧
   (morePrivilegeState s gs next nss sd nsp csel cd ps e).segs.ss = segOfDesc nss sd ∧
   (morePrivilegeState s gs next nss sd nsp csel cd ps e).segs.cs = segOfDesc (withRpl csel (descDpl cd)) cd ∧
   (morePrivilegeState s gs next nss sd nsp csel cd ps e).eip = e := by
  rw [morePrivilegeState]
  generalize morePrivilegePushes s (oldStackPointer s gs).1.draws gs (oldStackPointer s gs).2 ps next = pushes
  obtain ⟨m2, w2, r2, hf2⟩ := pushedStates_frame (newStackCpl s.cpl (descDpl cd)) pushes (switchedState (oldStackPointer s gs).1 nss sd nsp csel cd)
  obtain ⟨m, w, hf⟩ := switchedState_frame (oldStackPointer s gs).1 nss sd nsp csel cd
  refine ⟨rfl, ?_, ?_, rfl⟩ <;> rw [hf2, hf] <;> rfl

end Sys2Proof.Machine
end

