-- ==== Sys2Proof/Laws/Forms.lean ====
section
/-! SUPPORT. From an instruction to the shared procedure it runs: one equation for the near forms, one for the
far forms, and those of the far paths in Protected Mode. -/

namespace Sys2Proof.Machine

theorem cut_rel16 (next : Word) (rel : Half) :
    cut .w16 (next + rel.signExtend 32) = zext32 (low16 next + rel) := by
  simp only [cut, low16_add, low16_signExtend]

/-- A near call whose operand can be read is `nearCall` of its target (R110 to R113). -/
theorem exec_nearForm {s : State} {i : Instr} {next target : Word} {sz : Size}
    (h1 : nextEip s (instrLength i) = .ok next) (h2 : nearForm s next i = some (sz, target)) :
    exec i s = toOutcome (nearCall s sz next target) := by
  have ind : ∀ (sz : Size) (len : Nat) (p : Prefixes) (o : Rm) (v : Word), nextEip s len = .ok next →
      shapeAllowed s (rmUsesEsp o) = true → readRm s p sz o = .ok v →
      overlapAllowed s (rmRange s p sz o) (sizeBytes sz) 1 = true →
      nearIndirect s sz len p o = nearCall s sz next v := by
    intro sz len p o v a b c d
    have b' := (guardShape_eq_ok (u := ())).2 b
    have d' := (guardOverlap_eq_ok (u := ())).2 d
    simp only [nearIndirect, a, b', c, d', ok_bind]
  cases i with
  | callRel16 p rel =>
    simp only [nearForm, Option.some.injEq, Prod.mk.injEq] at h2
    obtain ⟨rfl, rfl⟩ := h2
    simp only [exec, execCallRel16, nearRelative, h1, ok_bind, cut_rel16]
  | callRel32 p rel =>
    simp only [nearForm, Option.some.injEq, Prod.mk.injEq] at h2
    obtain ⟨rfl, rfl⟩ := h2
    simp only [exec, execCallRel32, nearRelative, h1, ok_bind]
    rfl
  | callRm16 p o =>
    simp only [nearForm] at h2
    split at h2
    · rename_i v hs hr
      split at h2
      · rename_i ho
        cases h2
        simp only [exec, execCallRm16, ind _ _ _ _ _ h1 hs hr ho]
      · cases h2
    · cases h2
  | callRm32 p o =>
    simp only [nearForm] at h2
    split at h2
    · rename_i v hs hr
      split at h2
      · rename_i ho
        cases h2
        simp only [exec, execCallRm32, ind _ _ _ _ _ h1 hs hr ho]
      · cases h2
    · cases h2
  | callPtr1616 => simp [nearForm] at h2
  | callPtr1632 => simp [nearForm] at h2
  | callM1616 => simp [nearForm] at h2
  | callM1632 => simp [nearForm] at h2

/-- A far call whose pointer can be read is `farCall` of it (R130 to R133). -/
theorem exec_farForm {s : State} {i : Instr} {next off : Word} {sz : Size} {sel : Half} {opnd : OperandRange}
    (h1 : nextEip s (instrLength i) = .ok next) (h2 : farForm s i = some (sz, sel, off, opnd)) :
    exec i s = toOutcome (farCall s ⟨sz, next, opnd⟩ sel off) := by
  cases i with
  | callPtr1616 p a b =>
    simp only [farForm, Option.some.injEq, Prod.mk.injEq] at h2
    obtain ⟨rfl, rfl, rfl, rfl⟩ := h2
    simp only [exec, execCallPtr1616, farDirect, h1, ok_bind]
  | callPtr1632 p a b =>
    simp only [farForm, Option.some.injEq, Prod.mk.injEq] at h2
    obtain ⟨rfl, rfl, rfl, rfl⟩ := h2
    simp only [exec, execCallPtr1632, farDirect, h1, ok_bind]
  | callM1616 p m =>
    simp only [farForm] at h2
    split at h2
    · rename_i ptr hr
      obtain ⟨a, b⟩ := ptr
      cases h2
      simp only [exec, execCallM1616, farIndirect, h1, hr, ok_bind]
      rfl
    · cases h2
  | callM1632 p m =>
    simp only [farForm] at h2
    split at h2
    · rename_i ptr hr
      obtain ⟨a, b⟩ := ptr
      cases h2
      simp only [exec, execCallM1632, farIndirect, h1, hr, ok_bind]
      rfl
    · cases h2
  | callRel16 => simp [farForm] at h2
  | callRel32 => simp [farForm] at h2
  | callRm16 => simp [farForm] at h2
  | callRm32 => simp [farForm] at h2

/-- A far call in Protected Mode takes the path of the descriptor its selector names (R150). -/
theorem exec_named {s : State} {i : Instr} {next off : Word} {sz : Size} {sel : Half} {opnd : OperandRange} {d : Desc}
    (h : farInProt s i next sz sel off opnd) (hn : names s sel d) :
    exec i s = toOutcome (farByKind s ⟨sz, next, opnd⟩ sel off d) := by
  obtain ⟨a, b, c⟩ := hn
  obtain ⟨hm, h1, h2⟩ := h
  rw [exec_farForm h1 h2]
  unfold farCall
  rw [hm]
  simp only [farProtected, a, b, c, ok_bind, Bool.not_false, require_true]

/-- A call through an open gate goes to the same or to more privilege (R158). -/
theorem exec_gateOpen {s : State} {i : Instr} {next off : Word} {sz : Size} {gsel : Half} {opnd : OperandRange} {g cd : Desc}
    (h : farInProt s i next sz gsel off opnd) (hn : names s gsel g) (hk : descKind (descAr g) = .callGate)
    (ho : gateOpen s gsel g = true) (hc : names s (gateSelector g) cd) (hg : gateCodeOk s cd = true) :
    exec i s = toOutcome (if toMorePrivilege s cd then callGateMore s ⟨sz, next, opnd⟩ g (gateSelector g) cd
      else callGateSame s ⟨sz, next, opnd⟩ g (gateSelector g) cd) := by
  rw [exec_named h hn]
  simp only [gateOpen, gateCodeOk, Bool.and_eq_true] at ho hg
  obtain ⟨⟨⟨⟨a, b⟩, c⟩, d⟩, e⟩ := ho
  obtain ⟨⟨x, y⟩, z⟩ := hg
  obtain ⟨_, _, f⟩ := hc
  simp only [farByKind, hk, callGate, a, b, c, d, e, f, x, y, z, require_true, ok_bind]
  rfl

/-- A direct call to a code segment whose checks pass is the commit of R157 (R155, R156). -/
theorem exec_codeCall {s : State} {i : Instr} {next off : Word} {sz : Size} {sel : Half} {opnd : OperandRange} {d : Desc}
    (h : farInProt s i next sz sel off opnd) (hn : names s sel d) (hc : codeCallOk s sel d)
    (hr : s.room (sizeBytes sz) 2 = true) (hl : (cut sz off).toNat ≤ (descLimit d).toNat) :
    exec i s = toOutcome (sameStackCommit s ⟨sz, next, opnd⟩ sz sel d (cut sz off)) := by
  rw [exec_named h hn]
  have hl' : decide ((cut sz off).toNat ≤ (descLimit d).toNat) = true := decide_eq_true hl
  obtain ⟨hp, ⟨hk, h1⟩ | ⟨hk, h1, h2⟩⟩ := hc
  · simp only [farByKind, hk, callConforming, hp, h1, hr, hl', require_true, ok_bind]
  · simp only [farByKind, hk, callNonConforming, hp, h1, h2, hr, hl', require_true, ok_bind, beq_self_eq_true]

/-- A call through an open gate to the same privilege whose checks pass is the commit of R162. -/
theorem exec_sameGate {s : State} {i : Instr} {next off : Word} {sz gs : Size} {gsel : Half} {opnd : OperandRange} {g cd : Desc}
    (h : farInProt s i next sz gsel off opnd) (hn : names s gsel g) (hk : descKind (descAr g) = .callGate)
    (ho : gateOpen s gsel g = true) (hc : names s (gateSelector g) cd) (hg : gateCodeOk s cd = true)
    (hm : toMorePrivilege s cd = false) (hs : gateSize s sz g = .ok gs) (hr : s.room (sizeBytes gs) 2 = true)
    (hl : (gateEntry gs g).toNat ≤ (descLimit cd).toNat) :
    exec i s = toOutcome (sameStackCommit s ⟨sz, next, opnd⟩ gs (gateSelector g) cd (gateEntry gs g)) := by
  have hl' : decide ((gateEntry gs g).toNat ≤ (descLimit cd).toNat) = true := decide_eq_true hl
  rw [exec_gateOpen h hn hk ho hc hg, hm]
  simp only [Bool.false_eq_true, if_false, callGateSame, hs, hr, hl', require_true, ok_bind]

/-- A call to more privilege from its stack descriptor on: the checks after M6 (R160). -/
theorem callGateMore_stack {s : State} {c : FarCtx} {g cd sd : Desc} {csel nss : Half} {tsp : Word}
    (ht : tssStack s (descDpl cd).toNat = .ok (nss, tsp)) (hn : names s nss sd) (hr : selRpl nss = descDpl cd)
    (hd : stackDescOk cd sd = true) :
    callGateMore s c g csel cd = (do
      let (s', nsp) ← newStackPointer s tsp sd
      let gs ← gateSize s c.sz g
      require (newStackRoom gs (gateCount g) nss sd nsp) (.ss 0)
      require (decide ((gateEntry gs g).toNat ≤ (descLimit cd).toNat)) (.gp 0)
      let params ← readParams s' gs 0 (gateCount g)
      guardOverlap s' c.opnd (descBase sd)
        (pushSlots (descStackSize sd) (sizeBytes gs) (cut (descStackSize sd) nsp) (4 + gateCount g)) (sizeBytes gs)
        (newStackCpl s.cpl (descDpl cd))
      morePrivilegeCommit s' c gs nss sd nsp csel cd params (gateEntry gs g)) := by
  obtain ⟨n1, n2, n3⟩ := hn
  simp only [stackDescOk, Bool.and_eq_true] at hd
  obtain ⟨⟨d1, d2, d3⟩, d4⟩ := hd
  simp only [callGateMore, ht, n1, n2, n3, hr, d1, d2, d3, d4, beq_self_eq_true, Bool.not_false, Bool.and_self,
    require_true, ok_bind]
  rfl

/-- An operand that overlaps the pushes is refused under the spec's decision (R116, R132). -/
theorem guardOverlap_refused {s : State} {o : OperandRange} {b : Word} {sl : List Word} {n : Nat} {c : BitVec 2}
    (hp : s.params.stackOperand = .refuse) (h : operandOverlaps s o b sl n c = true) :
    guardOverlap s o b sl n c = .error (.refuse .stackDependentOperand) := by
  simp [guardOverlap, hp, h, refuse]

/-- An operand addressed through ESP is refused under the spec's decision (R116). -/
theorem guardShape_refused {s : State} (hp : s.params.stackOperand = .refuse) :
    guardShape s true = .error (.refuse .stackDependentOperand) := by
  simp [guardShape, hp, refuse]

/-- The window of instruction bytes ends at the first byte that cannot be fetched (R94). -/
theorem fetchWindow_stop {s : State} {e : Stop} (bs : List Byte) : ∀ (n k : Nat), bs.length < n →
    (∀ j b, bs[j]? = some b → fetchByte s (k + j) = .ok b) → fetchByte s (k + bs.length) = .error e →
    fetchWindow s n k = (bs, e) := by
  induction bs with
  | nil =>
    intro n k hn _ he
    obtain ⟨n, rfl⟩ : ∃ n', n = n' + 1 := ⟨n - 1, by omega⟩
    simp only [List.length_nil, Nat.add_zero] at he
    simp only [fetchWindow, he]
  | cons b bs ih =>
    intro n k hn hb he
    obtain ⟨n, rfl⟩ : ∃ n', n = n' + 1 := ⟨n - 1, by omega⟩
    rw [List.length_cons] at hn he
    have h0 := hb 0 b rfl
    rw [Nat.add_zero] at h0
    have ht := ih n (k + 1) (by omega)
      (fun j c hc => by rw [Nat.add_right_comm]; exact hb (j + 1) c (by simpa using hc))
      (by rw [Nat.add_right_comm]; exact he)
    simp only [fetchWindow, h0, ht]

/-- A step whose bytes run out before the instruction does stops for what stops the next byte (R80, R94). -/
theorem step_of_truncated {s : State} {bs : List Byte} {e : Stop} (hl : launchCheck s = .ok ())
    (hf : fetchable s bs) (hn : bs.length < 15) (hd : decode s.codeSize bs = .error .truncated)
    (he : fetchByte s bs.length = .error e) : step s = toOutcome (.error e) := by
  have hw := fetchWindow_stop bs 15 0 hn (fun j b h => by rw [Nat.zero_add]; exact hf j b h)
    (by rwa [Nat.zero_add])
  simp only [step, hl, fetchInstr, hw, hd, decodeFailure]

/-! ## Null selectors (R30) -/

theorem null_bit {sel : Half} (h : selNull sel = true) {i : Nat} (h1 : 2 ≤ i) (h2 : i < 16) : sel.getLsbD i = false := by
  have e : sel.extractLsb' 2 14 = 0 := by simpa [selNull] using h
  have := congrArg (fun v : BitVec 14 => v.getLsbD (i - 2)) e
  simpa [show i - 2 < 14 by omega, show 2 + (i - 2) = i by omega] using this

/-- A null selector names the global table. -/
theorem selLocal_null {sel : Half} (h : selNull sel = true) : selLocal sel = false :=
  null_bit h (by decide) (by decide)

/-- The error code of a null selector is 0 (R207). -/
theorem ec_null {sel : Half} (h : selNull sel = true) : ec sel = 0 := by
  apply BitVec.eq_of_getLsbD_eq
  intro i hi
  have hm : (0xFFFC : Half).getLsbD i = decide (2 ≤ i) := by
    revert i; decide
  rw [ec, BitVec.getLsbD_and, hm]
  by_cases h2 : 2 ≤ i
  · simp [null_bit h h2 hi]
  · simp [h2]

end Sys2Proof.Machine
end

