-- ==== Sys2Proof/Laws/Paging.lean ====
section
/-! SUPPORT. Accesses that do not translate: each primitive whose checks pass stops with `noPage`. -/

namespace Sys2Proof.Machine

/-! ## Translation -/

@[simp] theorem toOutcome_noPage (s : State) : toOutcome (.error (noPage s)) = pageStop s := rfl

theorem noPage_congr {s t : State} (hp : t.params = s.params) : noPage t = noPage s := by
  rw [noPage, noPage, hp]

/-- An address that does not translate: a page fault, or a refusal without `Translate` (R57). -/
theorem translate_untranslated {s : State} {kind : AccessKind} {cpl : BitVec 2} {lin : Word}
    (h : translatesAt s kind cpl lin = false) : translate s lin kind cpl = .error (noPage s) := by
  unfold translatesAt translate at h
  unfold translate noPage
  split
  · cases hp : s.params.translation with
    | none => rfl
    | some ms =>
      cases hl : lookupMapping ms lin kind cpl with
      | none => simp only [hl]; rfl
      | some p => simp_all [Except.isOk, Except.toBool]
  · simp_all [Except.isOk, Except.toBool]

theorem translate_translated {s : State} {kind : AccessKind} {cpl : BitVec 2} {lin : Word}
    (h : translatesAt s kind cpl lin = true) : ∃ p, translate s lin kind cpl = .ok p := by
  unfold translatesAt at h
  cases hp : translate s lin kind cpl with
  | ok p => exact ⟨p, rfl⟩
  | error e => rw [hp] at h; cases h

/-- `n + k` bytes translate when the first `n` and the `k` after them do. -/
theorem translates_add (s : State) (kind : AccessKind) (cpl : BitVec 2) (k : Nat) : ∀ (n : Nat) (lin : Word),
    translates s kind cpl lin (n + k) =
      (translates s kind cpl lin n && translates s kind cpl (lin + BitVec.ofNat 32 n) k) := by
  intro n
  induction n with
  | zero => intro lin; simp [translates]
  | succ n ih =>
    intro lin
    have e : n + 1 + k = (n + k) + 1 := by omega
    have l : lin + 1 + BitVec.ofNat 32 n = lin + BitVec.ofNat 32 (n + 1) := by
      rw [BitVec.ofNat_add, BitVec.add_assoc]
      exact congrArg _ (BitVec.add_comm _ _)
    rw [e, translates, translates, ih, l, Bool.and_assoc]

/-! ## Reads -/

theorem readBytes_untranslated {s : State} {cpl : BitVec 2} (n : Nat) : ∀ {lin : Word},
    translates s .read cpl lin n = false → readBytes s cpl lin n = .error (noPage s) := by
  induction n with
  | zero => intro lin h; cases h
  | succ n ih =>
    intro lin h
    rw [translates] at h
    cases hp : translatesAt s .read cpl lin with
    | false => simp only [readBytes, translate_untranslated hp, error_bind]
    | true =>
      obtain ⟨p, hq⟩ := translate_translated hp
      rw [hp, Bool.true_and] at h
      simp only [readBytes, hq, ok_bind, ih h, error_bind]

theorem readBytes_translated {s : State} {cpl : BitVec 2} (n : Nat) : ∀ {lin : Word},
    translates s .read cpl lin n = true → ∃ bs, readBytes s cpl lin n = .ok bs := by
  induction n with
  | zero => intro lin _; exact ⟨_, rfl⟩
  | succ n ih =>
    intro lin h
    rw [translates, Bool.and_eq_true] at h
    obtain ⟨p, hq⟩ := translate_translated h.1
    obtain ⟨bs, hb⟩ := ih h.2
    exact ⟨memRead s.mem p.toNat :: bs, by simp only [readBytes, hq, ok_bind, hb]⟩

theorem readWord_untranslated {s : State} {cpl : BitVec 2} {lin : Word} {n : Nat}
    (h : translates s .read cpl lin n = false) : readWord s cpl lin n = .error (noPage s) := by
  simp only [readWord, readBytes_untranslated n h, error_bind]

theorem readWord_translated {s : State} {cpl : BitVec 2} {lin : Word} {n : Nat}
    (h : translates s .read cpl lin n = true) : ∃ v, readWord s cpl lin n = .ok v := by
  obtain ⟨bs, hb⟩ := readBytes_translated n h
  exact ⟨BitVec.ofNat 32 (leNat bs), by simp only [readWord, hb, ok_bind]⟩

/-- A descriptor whose 8 bytes do not all translate (R60, R57). -/
theorem readDescriptor_untranslated {s : State} {sel : Half}
    (h : translates s .read 0 (descAddr s sel) 8 = false) : readDescriptor s sel = .error (noPage s) := by
  simp only [readDescriptor, readBytes_untranslated 8 h, error_bind]

/-- An operand in its segment whose bytes do not all translate (R55, R57). -/
theorem segRead_untranslated {s : State} {name : SegName} {off : Word} {n : Nat}
    (hr : readable s.mode (s.segs.get name) off n = true)
    (h : translates s .read s.cpl (linear (s.segs.get name) off) n = false) :
    segRead s name off n = .error (noPage s) := by
  simp only [segRead, hr, require_true, ok_bind, readWord_untranslated h]

theorem segRead_param {s : State} {gs : Size} {k : Nat} (hr : paramReadable s gs k = true)
    (h : paramTranslates s gs k = true) :
    ∃ v, segRead s .ss (cut s.stackSize (s.sp + BitVec.ofNat 32 (k * sizeBytes gs))) (sizeBytes gs) = .ok v := by
  obtain ⟨v, hv⟩ := readWord_translated h
  have hr' : readable s.mode (s.segs.get .ss) (cut s.stackSize (s.sp + BitVec.ofNat 32 (k * sizeBytes gs)))
      (sizeBytes gs) = true := hr
  exact ⟨v, by simp only [segRead, hr', require_true, ok_bind]; exact hv⟩

/-- A far pointer whose bytes do not all translate (R137, R57). -/
theorem readFarPointer_untranslated {s : State} {p : Prefixes} {sz : Size} {m : Mem}
    (hr : readable s.mode (s.segs.get (operandSegment p m)) (effectiveAddress s.regs m) (sizeBytes sz + 2) = true)
    (h : translates s .read s.cpl (linear (s.segs.get (operandSegment p m)) (effectiveAddress s.regs m))
      (sizeBytes sz + 2) = false) : readFarPointer s p sz m = .error (noPage s) := by
  rw [translates_add] at h
  simp only [readFarPointer, hr, require_true, ok_bind]
  cases h1 : translates s .read s.cpl (linear (s.segs.get (operandSegment p m)) (effectiveAddress s.regs m))
      (sizeBytes sz) with
  | false => simp only [readWord_untranslated h1, error_bind]
  | true =>
    obtain ⟨v, hv⟩ := readWord_translated h1
    rw [h1, Bool.true_and] at h
    simp only [hv, ok_bind, readWord_untranslated h, error_bind]

/-- The parameters of a gate call, of which one lies outside the old stack segment (R160 M9, log 28). -/
theorem readParams_unreadable {s : State} {gs : Size} (hm : s.mode = .prot) (m : Nat) : ∀ (n k : Nat), m < n →
    (∀ j < m, paramReadable s gs (k + j) = true ∧ paramTranslates s gs (k + j) = true) →
    paramReadable s gs (k + m) = false → readParams s gs k n = .error (.fault (.ss 0)) := by
  induction m with
  | zero =>
    intro n k hn _ h
    obtain ⟨n, rfl⟩ : ∃ n', n = n' + 1 := ⟨n - 1, by omega⟩
    have h' : readable s.mode (s.segs.get .ss) (cut s.stackSize (s.sp + BitVec.ofNat 32 (k * sizeBytes gs)))
        (sizeBytes gs) = false := h
    have e : operandFault s.mode .ss = .ss 0 := by rw [hm]; rfl
    simp only [readParams, segRead, h', require_false, error_bind, e]
  | succ m ih =>
    intro n k hn hj h
    obtain ⟨n, rfl⟩ : ∃ n', n = n' + 1 := ⟨n - 1, by omega⟩
    have h0 := hj 0 (by omega)
    rw [Nat.add_zero] at h0
    obtain ⟨v, hv⟩ := segRead_param h0.1 h0.2
    rw [readParams, hv, ok_bind, ih n (k + 1) (by omega) (fun j h1 => by
      have := hj (j + 1) (by omega)
      rwa [show k + (j + 1) = k + 1 + j by omega] at this) (by rwa [show k + 1 + m = k + (m + 1) by omega]),
      error_bind]

/-- The parameters of a gate call, of which a byte does not translate (R160 M9, R57). -/
theorem readParams_untranslated {s : State} {gs : Size} (m : Nat) : ∀ (n k : Nat), m < n →
    (∀ j < m, paramReadable s gs (k + j) = true ∧ paramTranslates s gs (k + j) = true) →
    paramReadable s gs (k + m) = true → paramTranslates s gs (k + m) = false →
    readParams s gs k n = .error (noPage s) := by
  induction m with
  | zero =>
    intro n k hn _ hr h
    obtain ⟨n, rfl⟩ : ∃ n', n = n' + 1 := ⟨n - 1, by omega⟩
    have e : segRead s .ss (cut s.stackSize (s.sp + BitVec.ofNat 32 (k * sizeBytes gs))) (sizeBytes gs) =
        .error (noPage s) := segRead_untranslated (name := .ss) hr h
    rw [readParams, e, error_bind]
  | succ m ih =>
    intro n k hn hj hr h
    obtain ⟨n, rfl⟩ : ∃ n', n = n' + 1 := ⟨n - 1, by omega⟩
    have h0 := hj 0 (by omega)
    rw [Nat.add_zero] at h0
    obtain ⟨v, hv⟩ := segRead_param h0.1 h0.2
    rw [readParams, hv, ok_bind, ih n (k + 1) (by omega) (fun j h1 => by
      have := hj (j + 1) (by omega)
      rwa [show k + (j + 1) = k + 1 + j by omega] at this) (by rwa [show k + 1 + m = k + (m + 1) by omega])
      (by rwa [show k + 1 + m = k + (m + 1) by omega]), error_bind]

/-! ## Writes -/

theorem writeBytes_untranslated {cpl : BitVec 2} (bs : List Byte) : ∀ {s : State} {lin : Word},
    translates s .write cpl lin bs.length = false → writeBytes s cpl lin bs = .error (noPage s) := by
  induction bs with
  | nil => intro s lin h; cases h
  | cons b bs ih =>
    intro s lin h
    rw [List.length_cons, translates] at h
    cases hp : translatesAt s .write cpl lin with
    | false => simp only [writeBytes, translate_untranslated hp, error_bind]
    | true =>
      obtain ⟨p, hq⟩ := translate_translated hp
      rw [hp, Bool.true_and] at h
      have hs : translates (storeByte s p.toNat b) .write cpl (lin + 1) bs.length = false :=
        (translates_congr (by rfl) (by rfl) _ _ _ _).trans h
      simp only [writeBytes, hq, ok_bind, ih hs]
      exact congrArg _ (noPage_congr rfl)

/-- An accessed bit that cannot be written (R66, R57). -/
theorem setAccessed_untranslated {s : State} {sel : Half} {d : Desc} (h : accessedFits s sel d = false) :
    setAccessed s sel d = .error (noPage s) := by
  simp only [accessedFits, Bool.or_eq_false_iff] at h
  simp only [setAccessed, h.1, Bool.false_eq_true, if_false]
  exact writeBytes_untranslated _ (by
    simp only [List.length_cons, List.length_nil, translates, h.2, Bool.false_and])

/-- Room for one more push is room for that push and room after it (R65). -/
theorem room_succ (s : State) (cpl : BitVec 2) (k : Nat) (bs : List Byte) :
    s.room bs.length (k + 1) = (s.room bs.length 1 && (pushedState s cpl bs).room bs.length k) := by
  simp only [State.room, stackRoom, pushSlots, List.all_cons, List.all_nil, mode_pushedState,
    stackSize_pushedState, sp_pushedState, pushedState_segs, Bool.and_true]

theorem room_withDraws (s : State) (d n k : Nat) : (s.withDraws d).room n k = s.room n k := rfl

/-- A push with room whose bytes do not all translate (R56, R57). -/
theorem push_untranslated {s : State} {cpl : BitVec 2} {sz : Size} {v : Word}
    (hr : s.room (sizeBytes sz) 1 = true) (h : pushFits s cpl (sizeBytes sz) 1 = false) :
    push s cpl sz v = .error (noPage s) := by
  have hw : writable s.mode s.segs.ss (stackDown s.stackSize s.sp (sizeBytes sz)) (sizeBytes sz) = true := by
    simpa [State.room, stackRoom, pushSlots] using hr
  rw [pushFits_one, hw, Bool.true_and] at h
  simp only [push, stackWrite, length_bytesOf, hw, require_true, ok_bind,
    writeBytes_untranslated (bytesOf sz v) (by rw [length_bytesOf]; exact h), error_bind]

theorem pushSelector_untranslated {s : State} {cpl : BitVec 2} {sz : Size} {sel : Half}
    (hr : s.room (sizeBytes sz) 1 = true) (h : pushFits s cpl (sizeBytes sz) 1 = false) :
    pushSelector s cpl sz sel = .error (noPage s) := by
  cases sz with
  | w16 => exact push_untranslated hr h
  | w32 =>
    exact (push_untranslated (s := s.withDraws (s.draws + 1)) (sz := .w32) hr
      (by rw [pushFits_withDraws]; exact h)).trans (congrArg _ (noPage_congr rfl))

/-- Several pushes with room of which a byte does not translate. -/
theorem pushAll_untranslated {sz : Size} (vs : List Word) : ∀ {s : State} {cpl : BitVec 2},
    s.room (sizeBytes sz) vs.length = true → pushFits s cpl (sizeBytes sz) vs.length = false →
    pushAll s cpl sz vs = .error (noPage s) := by
  induction vs with
  | nil =>
    intro s cpl _ h
    simp [pushFits, State.room, State.slots, stackRoom, pushSlots] at h
  | cons v vs ih =>
    intro s cpl hr h
    have h2 := pushFits_succ s cpl vs.length (bytesOf sz v)
    have r2 := room_succ s cpl vs.length (bytesOf sz v)
    rw [length_bytesOf] at h2 r2
    rw [List.length_cons, r2, Bool.and_eq_true] at hr
    rw [List.length_cons, h2] at h
    cases h1 : pushFits s cpl (sizeBytes sz) 1 with
    | false => simp only [pushAll, push_untranslated hr.1 h1, error_bind]
    | true =>
      rw [h1, Bool.true_and] at h
      simp only [pushAll, push_eq_ok.2 ⟨h1, rfl⟩, ok_bind, ih hr.2 h]
      exact congrArg _ (noPage_congr rfl)

/-- The two pushes of a far call on its own stack, with room, of which a byte does not translate. -/
theorem farPushes_untranslated {s : State} {sz : Size} {next : Word} {f : State → Except Stop State}
    (hr : s.room (sizeBytes sz) 2 = true) (h : pushFits s s.cpl (sizeBytes sz) 2 = false) :
    (pushSelector s s.cpl sz s.segs.cs.sel >>= fun s1 => push s1 s.cpl sz next >>= f) = .error (noPage s) := by
  have h2 := pushFits_succ s s.cpl 1 (selectorBytes s.draws sz s.segs.cs.sel)
  have r2 := room_succ s s.cpl 1 (selectorBytes s.draws sz s.segs.cs.sel)
  rw [length_selectorBytes] at h2 r2
  rw [r2, Bool.and_eq_true] at hr
  rw [h2] at h
  cases h1 : pushFits s s.cpl (sizeBytes sz) 1 with
  | false => simp only [pushSelector_untranslated hr.1 h1, error_bind]
  | true =>
    rw [h1, Bool.true_and] at h
    rw [pushSelector_eq_ok.2 ⟨h1, rfl⟩, ok_bind, push_untranslated ((room_withDraws _ _ _ _).trans hr.2) (by rw [pushFits_withDraws]; exact h),
      error_bind]
    exact congrArg _ (noPage_congr rfl)

/-- The commit of a call that stays on its stack, with room, of which a write does not translate. -/
theorem sameStackCommit_untranslated {s : State} {c : FarCtx} {sz : Size} {sel : Half} {d : Desc} {target : Word}
    (ho : overlapAllowed s c.opnd (sizeBytes sz) 2 = true) (hr : s.room (sizeBytes sz) 2 = true)
    (h : (pushFits s s.cpl (sizeBytes sz) 2 && accessedFits s sel d) = false) :
    sameStackCommit s c sz sel d target = .error (noPage s) := by
  simp only [sameStackCommit, (guardOverlap_eq_ok (u := ())).2 ho, ok_bind]
  cases h1 : pushFits s s.cpl (sizeBytes sz) 2 with
  | false => exact farPushes_untranslated hr h1
  | true =>
    rw [h1, Bool.true_and] at h
    have ha : accessedFits (loadCs (farPushedState s sz c.next) sel d s.cpl) sel d = false :=
      (accessedFits_congr (by rfl) (by rfl) (by rfl) (by rfl) _ _).trans h
    have hp := (farPushes_eq_ok (s := s) (sz := sz) (next := c.next)).2 ⟨h1, rfl⟩
    rw [bind_eq_ok] at hp
    obtain ⟨s1, e1, e2⟩ := hp
    simp only [e1, e2, ok_bind, setAccessed_untranslated ha, error_bind]
    exact congrArg _ (noPage_congr rfl)

/-- Room for several pushes is room for the first ones and then for the rest (R65). -/
theorem room_append {n : Nat} {cpl : BitVec 2} (k : Nat) : ∀ (vals : List (List Byte)) (s : State),
    (∀ v ∈ vals, v.length = n) →
    s.room n (vals.length + k) = (s.room n vals.length && (pushedStates s cpl vals).room n k) := by
  intro vals
  induction vals with
  | nil =>
    intro s _
    have h0 : s.room n 0 = true := by simp [State.room, stackRoom, pushSlots]
    simp [pushedStates, h0]
  | cons v vals ih =>
    intro s h
    obtain ⟨hv, hs⟩ : v.length = n ∧ ∀ w ∈ vals, w.length = n := by simpa using h
    subst hv
    have e : (v :: vals).length + k = (vals.length + k) + 1 := by simp only [List.length_cons]; omega
    rw [e, room_succ s cpl, ih _ hs, List.length_cons, room_succ s cpl vals.length v, Bool.and_assoc]
    rfl

/-- The pushes of a call to more privilege, with room, of which a byte does not translate. -/
theorem selector_rest_selector_untranslated {s : State} {cpl : BitVec 2} {gs : Size} {oss ocs : Half}
    {vs : List Word} {next : Word} (hr : s.room (sizeBytes gs) (vs.length + 3) = true)
    (h : pushFits s cpl (sizeBytes gs) (vs.length + 3) = false) :
    (pushSelector s cpl gs oss >>= fun a => pushAll a cpl gs vs >>= fun b =>
      pushSelector b cpl gs ocs >>= fun c => push c cpl gs next) = .error (noPage s) := by
  have hlen : ∀ v ∈ vs.map (bytesOf gs), v.length = sizeBytes gs := by
    intro v hv
    obtain ⟨w, _, rfl⟩ := List.mem_map.1 hv
    exact length_bytesOf gs w
  have e1 := pushFits_succ s cpl (vs.length + 2) (selectorBytes s.draws gs oss)
  have r1 := room_succ s cpl (vs.length + 2) (selectorBytes s.draws gs oss)
  have e2 := pushFits_append (n := sizeBytes gs) (cpl := cpl) 2 (vs.map (bytesOf gs))
    (pushedState s cpl (selectorBytes s.draws gs oss)) hlen
  have r2 := room_append (n := sizeBytes gs) (cpl := cpl) 2 (vs.map (bytesOf gs))
    (pushedState s cpl (selectorBytes s.draws gs oss)) hlen
  have e3 := pushFits_succ
    (pushedStates (pushedState s cpl (selectorBytes s.draws gs oss)) cpl (vs.map (bytesOf gs))) cpl 1
    (selectorBytes (s.draws + selectorDraws gs) gs ocs)
  have r3 := room_succ
    (pushedStates (pushedState s cpl (selectorBytes s.draws gs oss)) cpl (vs.map (bytesOf gs))) cpl 1
    (selectorBytes (s.draws + selectorDraws gs) gs ocs)
  rw [length_selectorBytes] at e1 e3 r1 r3
  rw [List.length_map] at e2 r2
  rw [show vs.length + 3 = vs.length + 2 + 1 from rfl, r1, r2, r3] at hr
  rw [show vs.length + 3 = vs.length + 2 + 1 from rfl, e1, e2, e3] at h
  simp only [Bool.and_eq_true] at hr
  obtain ⟨g1, g2, g3, g4⟩ := hr
  cases h1 : pushFits s cpl (sizeBytes gs) 1 with
  | false => simp only [pushSelector_untranslated g1 h1, error_bind]
  | true =>
    rw [h1, Bool.true_and] at h
    rw [pushSelector_eq_ok.2 ⟨h1, rfl⟩, ok_bind]
    cases h2 : pushFits (pushedState s cpl (selectorBytes s.draws gs oss)) cpl (sizeBytes gs) vs.length with
    | false =>
      rw [pushAll_untranslated vs ((room_withDraws _ _ _ _).trans g2) (by rw [pushFits_withDraws]; exact h2), error_bind]
      exact congrArg _ (noPage_congr rfl)
    | true =>
      rw [h2, Bool.true_and] at h
      rw [pushAll_eq_ok.2 ⟨by rw [pushFits_withDraws]; exact h2, rfl⟩, ok_bind, pushedStates_withDraws]
      obtain ⟨m, w, r, hf⟩ := pushedStates_frame cpl (vs.map (bytesOf gs))
        (pushedState s cpl (selectorBytes s.draws gs oss))
      have hp : (pushedStates (pushedState s cpl (selectorBytes s.draws gs oss)) cpl
          (vs.map (bytesOf gs))).params = s.params := by rw [hf]; rfl
      cases h3 : pushFits (pushedStates (pushedState s cpl (selectorBytes s.draws gs oss)) cpl
          (vs.map (bytesOf gs))) cpl (sizeBytes gs) 1 with
      | false =>
        rw [pushSelector_untranslated ((room_withDraws _ _ _ _).trans g3) (by rw [pushFits_withDraws]; exact h3), error_bind]
        exact congrArg _ (noPage_congr hp)
      | true =>
        rw [h3, Bool.true_and] at h
        rw [pushSelector_eq_ok.2 ⟨by rw [pushFits_withDraws]; exact h3, rfl⟩, ok_bind, withDraws_draws,
          push_untranslated (by rw [room_withDraws, pushedState_withDraws]; exact g4)
            (by rw [pushFits_withDraws, pushedState_withDraws, pushFits_withDraws]; exact h)]
        exact congrArg _ (noPage_congr hp)

/-- The commit of a call to more privilege, with room, of which a write does not translate (R161, R57). -/
theorem morePrivilegeCommit_untranslated {s : State} {c : FarCtx} {gs : Size} {nss csel : Half}
    {sd cd : Desc} {nsp entry : Word} {params : List Word} (hm : s.mode = .prot)
    (hr : newStackRoom gs params.length nss sd nsp = true)
    (h : morePrivilegeFits (oldStackPointer s gs).1 (sizeBytes gs) (4 + params.length) nss sd nsp csel cd = false) :
    morePrivilegeCommit s c gs nss sd nsp csel cd params entry = .error (noPage s) := by
  have h0 := oldStackPointer_frame s gs
  generalize ho : oldStackPointer s gs = o at h h0
  obtain ⟨s0, osp⟩ := o
  simp only at h h0
  have hp0 : s0.params = s.params := by rw [h0]; rfl
  have hm0 : s0.mode = .prot := by rw [h0]; exact (mode_congr rfl rfl).trans hm
  have hc0 : s0.cpl = s.cpl := by rw [h0]; rfl
  obtain ⟨z1, z2, z3, z4⟩ := switchedState_stack hm0 nss sd nsp csel cd
  obtain ⟨m, w, hf⟩ := switchedState_frame s0 nss sd nsp csel cd
  have hsp : (switchedState s0 nss sd nsp csel cd).params = s.params := by rw [hf]; exact hp0
  have hroom : (switchedState s0 nss sd nsp csel cd).room (sizeBytes gs) (4 + params.length) = true := by
    rw [State.room, z1, z2, z3, z4]; exact hr
  have hl : 4 + params.length = (osp :: params.reverse).length + 3 := by
    simp only [List.length_cons, List.length_reverse]; omega
  have ha1 : accessedFits (loadSs s0 nss sd nsp) nss sd = accessedFits s0 nss sd :=
    accessedFits_congr (by rfl) (by rfl) (by rfl) (by rfl) _ _
  have ha2 : accessedFits (loadCs (accessedState (loadSs s0 nss sd nsp) nss sd) csel cd (descDpl cd)) csel cd =
      accessedFits s0 csel cd := by
    obtain ⟨m', w', h'⟩ := accessedState_frame (loadSs s0 nss sd nsp) nss sd
    rw [h']; exact accessedFits_congr (by rfl) (by rfl) (by rfl) (by rfl) _ _
  simp only [morePrivilegeFits, hc0] at h
  simp only [morePrivilegeCommit, ho]
  cases h1 : accessedFits s0 nss sd with
  | false =>
    rw [setAccessed_untranslated (ha1.trans h1), error_bind]
    exact congrArg _ (noPage_congr hp0)
  | true =>
    rw [setAccessed_eq_ok.2 ⟨ha1.trans h1, rfl⟩, ok_bind]
    cases h2 : accessedFits s0 csel cd with
    | false =>
      rw [setAccessed_untranslated (ha2.trans h2), error_bind]
      obtain ⟨m', w', h'⟩ := accessedState_frame (loadSs s0 nss sd nsp) nss sd
      rw [h']
      exact congrArg _ (noPage_congr hp0)
    | true =>
      rw [h1, h2, Bool.true_and, Bool.true_and, hl] at h
      rw [hl] at hroom
      rw [setAccessed_eq_ok.2 ⟨ha2.trans h2, rfl⟩, ok_bind]
      have hs := selector_rest_selector_untranslated (oss := s.segs.ss.sel) (ocs := s.segs.cs.sel) (next := c.next)
        hroom h
      have e : ∀ (x : Except Stop State) (f : State → Except Stop State) (e : Stop), x = .error e →
          (x >>= f) = .error e := by
        rintro _ f e rfl; rfl
      have hs' := e _ (fun s6 => .ok ((s6.withCpl (descDpl cd)).withEip entry)) _ hs
      rw [noPage_congr hsp] at hs'
      rw [← hs']
      simp only [switchedState, bind_assoc]

end Sys2Proof.Machine
end

