-- ==== Sys2Proof/Laws/PerInstr.lean ====
section
/-! SUPPORT. A fact about every instruction as syntax, one lemma per constructor: its encoding is as long as
R91 says, and within the 15 bytes an instruction may have. -/

namespace Sys2Proof

theorem length_encode_disp16 (d : Disp16) : d.encode.length = match d with
    | .none => 0
    | .d8 _ => 1
    | .d16 _ => 2 := by
  cases d <;> rfl

theorem length_encode_disp32 (d : Disp32) : d.encode.length = match d with
    | .none => 0
    | .d8 _ => 1
    | .d32 _ => 4 := by
  cases d <;> rfl

theorem length_encode_mem (digit : BitVec 3) (m : Mem) : (m.encode digit).length = m.length := by
  cases m with
  | direct16 d => rfl
  | based16 b d => cases d <;> rfl
  | direct32 d => rfl
  | based32 r d => cases d <;> rfl
  | sib sc ix b d => cases d <;> rfl
  | sibNoBase sc ix d => rfl

theorem length_encode_prefixes (p : Prefixes) : p.encode.length = p.length := by
  obtain ⟨a, b, c⟩ := p
  cases a <;> cases b <;> cases c <;> rfl

theorem length_prefixes_le (p : Prefixes) : p.length ≤ 3 := by
  obtain ⟨a, b, c⟩ := p
  cases a <;> cases b <;> cases c <;> simp [Prefixes.length]

theorem length_mem_le (m : Mem) : 1 ≤ m.length ∧ m.length ≤ 6 := by
  cases m with
  | direct16 d => simp [Mem.length]
  | based16 b d => cases d <;> simp [Mem.length]
  | direct32 d => simp [Mem.length]
  | based32 r d => cases d <;> simp [Mem.length]
  | sib sc ix b d => cases d <;> simp [Mem.length]
  | sibNoBase sc ix d => simp [Mem.length]

/-- The encoding of an instruction has the length of R91, at least 2 and at most 10 bytes. -/
def Laws.LengthLaw.Statement (i : Instr) : Prop :=
  (encode i).length = instrLength i ∧ 2 ≤ instrLength i ∧ instrLength i ≤ 10

namespace Laws.LengthLaw

theorem callRel16 (p : Prefixes) (rel : Half) : Statement (.callRel16 p rel) := by
  have h := length_prefixes_le p
  simp only [Statement, encode, Instr.prefixes, List.length_append, length_encode_prefixes, instrLength]
  exact ⟨rfl, by omega, by omega⟩

theorem callRm16 (p : Prefixes) (o : Rm) : Statement (.callRm16 p o) := by
  have h := length_prefixes_le p
  cases o with
  | reg r =>
    simp only [Statement, encode, Instr.prefixes, List.length_append, length_encode_prefixes, instrLength]
    exact ⟨rfl, by omega, by omega⟩
  | mem m =>
    have hm := length_mem_le m
    simp only [Statement, encode, Instr.prefixes, List.length_append, length_encode_prefixes,
      instrLength, Instr.encodeBody, Rm.encode, List.length_cons, length_encode_mem]
    omega

theorem callPtr1616 (p : Prefixes) (sel off : Half) : Statement (.callPtr1616 p sel off) := by
  have h := length_prefixes_le p
  simp only [Statement, encode, Instr.prefixes, List.length_append, length_encode_prefixes, instrLength]
  exact ⟨rfl, by omega, by omega⟩

theorem callM1616 (p : Prefixes) (m : Mem) : Statement (.callM1616 p m) := by
  have h := length_prefixes_le p
  have hm := length_mem_le m
  simp only [Statement, encode, Instr.prefixes, List.length_append, length_encode_prefixes,
    instrLength, Instr.encodeBody, List.length_cons, length_encode_mem]
  omega

theorem callRel32 (p : Prefixes) (rel : Word) : Statement (.callRel32 p rel) := by
  have h := length_prefixes_le p
  simp only [Statement, encode, Instr.prefixes, List.length_append, length_encode_prefixes, instrLength]
  exact ⟨rfl, by omega, by omega⟩

theorem callRm32 (p : Prefixes) (o : Rm) : Statement (.callRm32 p o) := by
  have h := length_prefixes_le p
  cases o with
  | reg r =>
    simp only [Statement, encode, Instr.prefixes, List.length_append, length_encode_prefixes, instrLength]
    exact ⟨rfl, by omega, by omega⟩
  | mem m =>
    have hm := length_mem_le m
    simp only [Statement, encode, Instr.prefixes, List.length_append, length_encode_prefixes,
      instrLength, Instr.encodeBody, Rm.encode, List.length_cons, length_encode_mem]
    omega

theorem callPtr1632 (p : Prefixes) (sel : Half) (off : Word) : Statement (.callPtr1632 p sel off) := by
  have h := length_prefixes_le p
  simp only [Statement, encode, Instr.prefixes, List.length_append, length_encode_prefixes, instrLength]
  exact ⟨rfl, by omega, by omega⟩

theorem callM1632 (p : Prefixes) (m : Mem) : Statement (.callM1632 p m) := by
  have h := length_prefixes_le p
  have hm := length_mem_le m
  simp only [Statement, encode, Instr.prefixes, List.length_append, length_encode_prefixes,
    instrLength, Instr.encodeBody, List.length_cons, length_encode_mem]
  omega

end Laws.LengthLaw

end Sys2Proof
end

