-- ==== Sys2Proof/Laws/Reads.lean ====
section
/-! SUPPORT. What a read gives, byte for byte: little-endian values as bytes side by side (R51), and reads whose
bytes each have an address of their own (R57); and what was pushed, read back at its slot (R56, R61). -/

namespace Sys2Proof.Machine

/-! ## Bytes side by side -/

theorem toNat_append_byte {n : Nat} (x : BitVec n) (y : Byte) : (x ++ y).toNat = x.toNat * 256 + y.toNat := by
  rw [BitVec.toNat_append, ← Nat.shiftLeft_add_eq_or_of_lt y.isLt, Nat.shiftLeft_eq]

theorem toNat_zext32 (h : Half) : (zext32 h).toNat = h.toNat := by
  simp [zext32]
  omega

theorem toNat_low16 (w : Word) : (low16 w).toNat = w.toNat % 65536 := by
  simp [low16, BitVec.extractLsb'_toNat]

theorem low16_append (a b : Half) : low16 (a ++ b) = b := by
  apply BitVec.eq_of_toNat_eq
  rw [toNat_low16, BitVec.toNat_append, ← Nat.shiftLeft_add_eq_or_of_lt b.isLt, Nat.shiftLeft_eq]
  have := b.isLt
  omega

/-- The value of two bytes, the lower first (R51). -/
theorem ofNat_leNat_two (b0 b1 : Byte) : BitVec.ofNat 32 (leNat [b0, b1]) = zext32 (b1 ++ b0) := by
  have h0 := b0.isLt
  have h1 := b1.isLt
  apply BitVec.eq_of_toNat_eq
  rw [toNat_zext32, toNat_append_byte, BitVec.toNat_ofNat]
  simp only [leNat]
  omega

/-- The value of four bytes, the lowest first (R51). -/
theorem ofNat_leNat_four (b0 b1 b2 b3 : Byte) :
    BitVec.ofNat 32 (leNat [b0, b1, b2, b3]) = b3 ++ b2 ++ b1 ++ b0 := by
  have h0 := b0.isLt
  have h1 := b1.isLt
  have h2 := b2.isLt
  have h3 := b3.isLt
  apply BitVec.eq_of_toNat_eq
  rw [toNat_append_byte, toNat_append_byte, toNat_append_byte, BitVec.toNat_ofNat]
  simp only [leNat]
  omega

/-- The value of a descriptor's eight bytes, byte 0 first (R31). -/
theorem ofNat_leNat_eight (b0 b1 b2 b3 b4 b5 b6 b7 : Byte) :
    BitVec.ofNat 64 (leNat [b0, b1, b2, b3, b4, b5, b6, b7]) = b7 ++ b6 ++ b5 ++ b4 ++ b3 ++ b2 ++ b1 ++ b0 := by
  have h0 := b0.isLt
  have h1 := b1.isLt
  have h2 := b2.isLt
  have h3 := b3.isLt
  have h4 := b4.isLt
  have h5 := b5.isLt
  have h6 := b6.isLt
  have h7 := b7.isLt
  apply BitVec.eq_of_toNat_eq
  rw [toNat_append_byte, toNat_append_byte, toNat_append_byte, toNat_append_byte, toNat_append_byte,
    toNat_append_byte, toNat_append_byte, BitVec.toNat_ofNat]
  simp only [leNat]
  omega

/-! ## Reads -/

/-- A read whose byte `k` translates to `p k` gives the bytes there (R51, R57). -/
theorem readBytes_of_translate {s : State} {cpl : BitVec 2} : ∀ {n : Nat} {lin : Word} {p : Nat → Word},
    (∀ k, k < n → translate s (lin + BitVec.ofNat 32 k) .read cpl = .ok (p k)) →
    readBytes s cpl lin n = .ok ((List.range n).map fun k => memRead s.mem (p k).toNat) := by
  intro n
  induction n with
  | zero => intro lin p _; rfl
  | succ n ih =>
    intro lin p h
    have h0 : translate s lin .read cpl = .ok (p 0) := by simpa using h 0 (by omega)
    have ht := ih (lin := lin + 1) (p := fun k => p (k + 1)) (fun k hk => by
      have hk := h (k + 1) (by omega)
      rw [Nat.add_comm, BitVec.ofNat_add, ← BitVec.add_assoc, Nat.add_comm] at hk
      exact hk)
    simp only [readBytes, h0, ok_bind, ht, List.range_succ_eq_map, List.map_cons, List.map_map]
    rfl

theorem readWord_two {s : State} {cpl : BitVec 2} {lin : Word} {p : Nat → Word}
    (h : ∀ k, k < 2 → translate s (lin + BitVec.ofNat 32 k) .read cpl = .ok (p k)) :
    readWord s cpl lin 2 = .ok (zext32 (memRead s.mem (p 1).toNat ++ memRead s.mem (p 0).toNat)) := by
  rw [readWord, readBytes_of_translate h]
  exact congrArg Except.ok (ofNat_leNat_two _ _)

theorem readWord_four {s : State} {cpl : BitVec 2} {lin : Word} {p : Nat → Word}
    (h : ∀ k, k < 4 → translate s (lin + BitVec.ofNat 32 k) .read cpl = .ok (p k)) :
    readWord s cpl lin 4 = .ok (memRead s.mem (p 3).toNat ++ memRead s.mem (p 2).toNat ++
      memRead s.mem (p 1).toNat ++ memRead s.mem (p 0).toNat) := by
  rw [readWord, readBytes_of_translate h]
  exact congrArg Except.ok (ofNat_leNat_four _ _ _ _)

theorem selIndex_eq (sel : Half) : selIndex sel = sel.toNat / 8 := by
  simp [selIndex, BitVec.extractLsb'_toNat, Nat.shiftRight_eq_div_pow]
  omega

/-! ## Values cut to a size, the stack's slots, operands and parameters -/

theorem toNat_cut (sz : Size) (w : Word) :
    (cut sz w).toNat = match sz with | .w16 => w.toNat % 65536 | .w32 => w.toNat := by
  cases sz with
  | w16 => exact (toNat_zext32 _).trans (toNat_low16 _)
  | w32 => rfl

theorem cut_add (sz : Size) (a b : Word) : cut sz (cut sz a + b) = cut sz (a + b) := by
  cases sz
  · simp only [cut, low16_add, low16_zext32]
  · rfl

/-- A cut value by its bits (R12). -/
theorem cut_eq_ite (sz : Size) (w : Word) :
    cut sz w = if sz = .w32 then w else 0#16 ++ w.extractLsb' 0 16 := by
  cases sz with
  | w32 => rfl
  | w16 =>
    apply BitVec.eq_of_toNat_eq
    simp only [cut, reduceCtorEq, if_false]
    rw [toNat_zext32, BitVec.toNat_append 0#16]
    simp [low16]

theorem leNat_lt : ∀ (bs : List Byte), leNat bs < 256 ^ bs.length := by
  intro bs
  induction bs with
  | nil => simp [leNat]
  | cons b bs ih =>
    have := b.isLt
    rw [leNat, List.length_cons, Nat.pow_succ]
    omega

theorem length_readBytes {s : State} {cpl : BitVec 2} : ∀ {n : Nat} {lin : Word} {bs : List Byte},
    readBytes s cpl lin n = .ok bs → bs.length = n := by
  intro n
  induction n with
  | zero => intro lin bs h; cases h; rfl
  | succ n ih =>
    intro lin bs h
    simp only [readBytes, bind_eq_ok] at h
    obtain ⟨p, _, bs', h2, h3⟩ := h
    cases h3
    rw [List.length_cons, ih h2]

/-- A value read in an operand size has no bits above it (R51). -/
theorem cut_readWord {s : State} {cpl : BitVec 2} {lin v : Word} {sz : Size}
    (h : readWord s cpl lin (sizeBytes sz) = .ok v) : cut sz v = v := by
  cases sz with
  | w32 => rfl
  | w16 =>
    simp only [readWord, bind_eq_ok] at h
    obtain ⟨bs, h1, h2⟩ := h
    cases h2
    have := leNat_lt bs
    rw [length_readBytes h1] at this
    apply BitVec.eq_of_toNat_eq
    rw [toNat_cut, BitVec.toNat_ofNat]
    simp only [sizeBytes] at this ⊢
    omega

theorem segRead_eq_ok {s : State} {name : SegName} {off v : Word} {n : Nat} : segRead s name off n = .ok v ↔
    readable s.mode (s.segs.get name) off n = true ∧ readWord s s.cpl (linear (s.segs.get name) off) n = .ok v := by
  cases h : readable s.mode (s.segs.get name) off n with
  | false => simp [segRead, h, require_false]
  | true => simp [segRead, h]

/-- Everything the reading of the parameters can do (R161). -/
theorem readParams_eq_ok {s : State} {sz : Size} : ∀ {n k : Nat} {vs : List Word},
    readParams s sz k n = .ok vs ↔ vs.length = n ∧ ∀ i v, vs[i]? = some v →
      segRead s .ss (cut s.stackSize (s.sp + BitVec.ofNat 32 ((k + i) * sizeBytes sz))) (sizeBytes sz) = .ok v := by
  intro n
  induction n with
  | zero =>
    intro k vs
    cases vs with
    | nil => simp [readParams]
    | cons v vs => simp [readParams]
  | succ n ih =>
    intro k vs
    simp only [readParams, bind_eq_ok]
    constructor
    · rintro ⟨v, h1, vs', h2, h3⟩
      cases h3
      obtain ⟨hl, h⟩ := ih.1 h2
      refine ⟨by rw [List.length_cons, hl], fun i w hw => ?_⟩
      cases i with
      | zero => cases hw; exact h1
      | succ i => rw [show k + (i + 1) = k + 1 + i by omega]; exact h i w hw
    · rintro ⟨hl, h⟩
      cases vs with
      | nil => cases hl
      | cons v vs =>
        refine ⟨v, h 0 v rfl, vs, ih.2 ⟨by simpa using hl, fun i w hw => ?_⟩, rfl⟩
        rw [show k + 1 + i = k + (i + 1) by omega]
        exact h (i + 1) w hw

/-- Parameters that lie in the old stack segment and translate are read (R161). -/
theorem readParams_ok {s : State} {gs : Size} : ∀ {n k : Nat},
    (∀ i, i < n → paramReadable s gs (k + i) = true ∧ paramTranslates s gs (k + i) = true) →
    ∃ vs, readParams s gs k n = .ok vs := by
  intro n
  induction n with
  | zero => exact fun _ => ⟨[], rfl⟩
  | succ n ih =>
    intro k h
    obtain ⟨v, hv⟩ := segRead_param (h 0 (by omega)).1 (h 0 (by omega)).2
    obtain ⟨vs, hs⟩ := ih (k := k + 1) (fun i hi => by
      rw [show k + 1 + i = k + (i + 1) by omega]
      exact h (i + 1) (by omega))
    rw [Nat.add_zero] at hv
    exact ⟨v :: vs, by simp only [readParams, hv, hs, ok_bind]⟩

/-- The stack pointer some bytes down, by its bits (R56, R119). -/
theorem stackDown_cut (sz : Size) (e : Word) (n : Nat) : stackDown sz (cut sz e) n =
    if sz = .w32 then e - BitVec.ofNat 32 n else 0#16 ++ (e.extractLsb' 0 16 - BitVec.ofNat 16 n) := by
  cases sz with
  | w32 => rfl
  | w16 =>
    simp only [stackDown, cut_sub, reduceCtorEq, if_false]
    simp only [cut, low16_sub]
    have : low16 (BitVec.ofNat 32 n) = BitVec.ofNat 16 n := by
      apply BitVec.eq_of_toNat_eq; rw [toNat_low16]; simp
    rw [this]
    apply BitVec.eq_of_toNat_eq
    rw [toNat_zext32, BitVec.toNat_append 0#16]; simp [low16]

/-- The slots of the pushes to come, from the first down (R65). -/
theorem pushSlots_eq_map (sz : Size) (n : Nat) : ∀ (k : Nat) (e : Word), pushSlots sz n (cut sz e) k =
    (List.range k).map fun j => stackDown sz (cut sz e) ((j + 1) * n) := by
  intro k
  induction k with
  | zero => intro e; rfl
  | succ k ih =>
    intro e
    have h : stackDown sz (cut sz e) n = cut sz (e - BitVec.ofNat 32 n) := by rw [stackDown, cut_sub]
    rw [pushSlots, List.range_succ_eq_map, List.map_cons, List.map_map, h, ih, Nat.zero_add, Nat.one_mul, h]
    congr 1
    apply List.map_congr_left
    intro j _
    simp only [Function.comp, stackDown, cut_sub]
    rw [show (j + 1 + 1) * n = n + (j + 1) * n by rw [Nat.add_mul (j + 1) 1 n]; omega, BitVec.ofNat_add]
    generalize BitVec.ofNat 32 n = a
    generalize BitVec.ofNat 32 ((j + 1) * n) = b
    congr 1
    bv_omega

/-! ## Reading back what was pushed, with paging off -/

theorem mem_physAddrs_paging_off {s : State} (hp : s.paging = false) {kind : AccessKind} {cpl : BitVec 2} {a : Nat} (n : Nat) :
    ∀ {lin : Word}, a ∈ physAddrs s kind cpl lin n → ∃ k, k < n ∧ a = (lin + BitVec.ofNat 32 k).toNat := by
  induction n with
  | zero => intro lin h; cases h
  | succ n ih =>
    intro lin h
    simp only [physAddrs, translate_paging_off hp, List.mem_cons] at h
    rcases h with rfl | h
    · exact ⟨0, by omega, by simp⟩
    · obtain ⟨k, hk, rfl⟩ := ih h
      refine ⟨k + 1, by omega, ?_⟩
      rw [Nat.add_comm k 1, BitVec.ofNat_add, ← BitVec.add_assoc]
      rfl

/-- Byte `j` of a store reads as the `j`-th byte stored (R51, R61). -/
theorem overlay_storedCells {s : State} (hp : s.paging = false) {cpl : BitVec 2} (bs : List Byte) :
    ∀ {lin : Word} {j : Nat} {b old : Byte}, bs.length ≤ 65536 → bs[j]? = some b →
      overlay (storedCells s cpl lin bs) old (lin + BitVec.ofNat 32 j).toNat = b := by
  induction bs with
  | nil => intro lin j b old _ h; simp at h
  | cons c bs ih =>
    intro lin j b old hl h
    rw [List.length_cons] at hl
    simp only [storedCells, translate_paging_off hp, overlay]
    cases j with
    | zero =>
      have hc : c = b := by simpa using h
      rw [overlay_of_not_mem]
      · simp [hc]
      · rw [map_fst_storedCells]
        intro hm
        obtain ⟨k, hk, e⟩ := mem_physAddrs_paging_off hp _ hm
        have := lin.isLt
        simp only [BitVec.toNat_add, BitVec.toNat_ofNat, BitVec.reduceToNat] at e
        omega
    | succ j =>
      have e : lin + BitVec.ofNat 32 (j + 1) = lin + 1 + BitVec.ofNat 32 j := by
        rw [Nat.add_comm j 1, BitVec.ofNat_add, ← BitVec.add_assoc]; rfl
      rw [e]
      exact ih (by omega) (by simpa using h)

/-- Byte `j` of a push (R56). -/
theorem memRead_pushedState_own {s : State} (hp : s.paging = false) (hw : Memory.wf s.mem = true) {cpl : BitVec 2}
    {bs : List Byte} {j : Nat} {b : Byte} (hl : bs.length ≤ 65536) (h : bs[j]? = some b) :
    memRead (pushedState s cpl bs).mem
      (linear s.segs.ss (stackDown s.stackSize s.sp bs.length) + BitVec.ofNat 32 j).toNat = b := by
  show memRead (storeMem s.mem _) _ = _
  rw [memRead_storeMem hw, overlay_storedCells hp _ hl h]

/-- Two bytes of different slots of a stack have different addresses. -/
theorem slot_ne (sz : Size) (base u : Word) {n d j k : Nat} (hj : j < n) (hk : k < n) (hd : n ≤ d) (hl : d + n ≤ 65536) :
    base + cut sz u + BitVec.ofNat 32 j ≠ base + cut sz (u - BitVec.ofNat 32 d) + BitVec.ofNat 32 k := by
  intro h
  have h := congrArg BitVec.toNat h
  have h1 := base.isLt
  have h2 := u.isLt
  simp only [BitVec.toNat_add, toNat_cut, BitVec.toNat_sub, BitVec.toNat_ofNat] at h
  cases sz with
  | w16 => simp only at h; omega
  | w32 => simp only at h; omega

theorem mem_pushSlots {sz : Size} {n : Nat} {off : Word} : ∀ {k : Nat} {e : Word}, off ∈ pushSlots sz n (cut sz e) k →
    ∃ i, i < k ∧ off = cut sz (e - BitVec.ofNat 32 ((i + 1) * n)) := by
  intro k
  induction k with
  | zero => intro e h; cases h
  | succ k ih =>
    intro e h
    rw [pushSlots, stackDown, cut_sub, List.mem_cons] at h
    rcases h with rfl | h
    · exact ⟨0, by omega, by simp⟩
    · obtain ⟨i, hi, rfl⟩ := ih h
      refine ⟨i + 1, by omega, ?_⟩
      rw [show (i + 1 + 1) * n = n + (i + 1) * n by rw [Nat.add_mul (i + 1) 1 n]; omega, BitVec.ofNat_add]
      generalize BitVec.ofNat 32 n = a
      generalize BitVec.ofNat 32 ((i + 1) * n) = b
      congr 1
      bv_omega

/-- Byte `j` of the `i`-th of several pushes of `n` bytes each (R56, R61). -/
theorem memRead_pushedStates_slot {cpl : BitVec 2} {n : Nat} (xs : List (List Byte)) : ∀ {s : State} {e : Word} {i j : Nat}
    {x : List Byte} {b : Byte}, s.paging = false → Memory.wf s.mem = true → (∀ x ∈ xs, x.length = n) →
    xs.length * n ≤ 65536 → s.sp = cut s.stackSize e → xs[i]? = some x → x[j]? = some b →
    memRead (pushedStates s cpl xs).mem
      (linear s.segs.ss (cut s.stackSize (e - BitVec.ofNat 32 ((i + 1) * n))) + BitVec.ofNat 32 j).toNat = b := by
  induction xs with
  | nil => intro s e i j x b _ _ _ _ _ h; simp at h
  | cons y ys ih =>
    intro s e i j x b hp hw hl hn he hi hj
    have hy : y.length = n := hl y (by simp)
    rw [List.length_cons, Nat.add_mul, Nat.one_mul] at hn
    have hsp : (pushedState s cpl y).sp = cut s.stackSize (e - BitVec.ofNat 32 n) := by
      rw [sp_pushedState, stackDown, hy, he, cut_sub]
    rw [pushedStates]
    cases i with
    | zero =>
      have hx : y = x := by simpa using hi
      subst hx
      have hjn : j < n := by rw [← hy]; exact (List.getElem?_eq_some_iff.1 hj).1
      rw [memRead_pushedStates (n := n) ys (wf_pushedState hw) (fun z hz => hl z (by simp [hz]))]
      · have := memRead_pushedState_own (cpl := cpl) hp hw (bs := y) (by omega) hj
        rw [hy, he, stackDown, cut_sub] at this
        rw [Nat.zero_add, Nat.one_mul]
        exact this
      · intro off ho hm
        rw [stackSize_pushedState, hsp] at ho
        obtain ⟨i, hi, rfl⟩ := mem_pushSlots ho
        obtain ⟨k, hk, ek⟩ := mem_physAddrs_paging_off (s := pushedState s cpl y) ((paging_congr rfl).trans hp) _ hm
        have hb : (i + 1) * n ≤ ys.length * n := Nat.mul_le_mul_right n hi
        have hb2 : n ≤ (i + 1) * n := Nat.le_mul_of_pos_left n (by omega)
        rw [Nat.zero_add, Nat.one_mul] at ek
        exact slot_ne s.stackSize s.segs.ss.base (e - BitVec.ofNat 32 n) hjn hk hb2 (by omega) (BitVec.eq_of_toNat_eq ek)
    | succ i =>
      have := ih (s := pushedState s cpl y) (e := e - BitVec.ofNat 32 n) (i := i) (j := j) ((paging_congr rfl).trans hp)
        (wf_pushedState hw) (fun z hz => hl z (by simp [hz])) (by omega)
        (by rw [hsp, stackSize_pushedState]) (by simpa using hi) hj
      rw [stackSize_pushedState] at this
      rw [show (i + 1 + 1) * n = n + (i + 1) * n by rw [Nat.add_mul (i + 1) 1 n]; omega, BitVec.ofNat_add]
      rw [← this]
      generalize BitVec.ofNat 32 n = a
      generalize BitVec.ofNat 32 ((i + 1) * n) = b
      rw [show e - (a + b) = e - a - b by bv_omega]
      rfl

theorem bytesOfHalf_cat (v : Half) : v.extractLsb' 8 8 ++ v.extractLsb' 0 8 = v := by
  apply BitVec.eq_of_toNat_eq
  have := v.isLt
  rw [toNat_append_byte, BitVec.extractLsb'_toNat, BitVec.extractLsb'_toNat, Nat.shiftRight_eq_div_pow, Nat.shiftRight_eq_div_pow]
  omega

theorem bytesOfWord_cat (v : Word) :
    v.extractLsb' 24 8 ++ v.extractLsb' 16 8 ++ v.extractLsb' 8 8 ++ v.extractLsb' 0 8 = v := by
  apply BitVec.eq_of_toNat_eq
  have := v.isLt
  rw [toNat_append_byte, toNat_append_byte, toNat_append_byte]
  simp only [BitVec.extractLsb'_toNat, Nat.shiftRight_eq_div_pow]
  omega

/-- Two bytes that are a half word's read as it (R51). -/
theorem readWord_half {s : State} (hp : s.paging = false) {cpl : BitVec 2} {lin : Word} {v : Half}
    (h : ∀ j b, (bytesOfHalf v)[j]? = some b → memRead s.mem (lin + BitVec.ofNat 32 j).toNat = b) :
    readWord s cpl lin 2 = .ok (zext32 v) := by
  rw [readWord_two (p := fun k => lin + BitVec.ofNat 32 k) (fun k _ => translate_paging_off hp _ _ _)]
  rw [h 0 _ rfl, h 1 _ rfl, bytesOfHalf_cat]

/-- The bytes of a value of either size read as it (R51). -/
theorem readWord_bytesOf {s : State} (hp : s.paging = false) {cpl : BitVec 2} {lin : Word} {sz : Size} {v : Word}
    (h : ∀ j b, (bytesOf sz v)[j]? = some b → memRead s.mem (lin + BitVec.ofNat 32 j).toNat = b) :
    readWord s cpl lin (sizeBytes sz) = .ok (cut sz v) := by
  cases sz with
  | w16 => exact readWord_half hp h
  | w32 =>
    rw [show sizeBytes .w32 = 4 from rfl,
      readWord_four (p := fun k => lin + BitVec.ofNat 32 k) (fun k _ => translate_paging_off hp _ _ _)]
    rw [h 0 _ rfl, h 1 _ rfl, h 2 _ rfl, h 3 _ rfl]
    exact congrArg Except.ok (bytesOfWord_cat v)

/-- The two low bytes of a pushed selector are the selector's (R56). -/
theorem selectorBytes_low {n : Nat} {sz : Size} {sel : Half} {j : Nat} {b : Byte} (h : (bytesOfHalf sel)[j]? = some b) :
    (selectorBytes n sz sel)[j]? = some b := by
  cases sz with
  | w16 => exact h
  | w32 =>
    have e : low16 (Config.pad n ++ sel) = sel := low16_append _ _
    have e0 : (Config.pad n ++ sel).extractLsb' 0 8 = sel.extractLsb' 0 8 := by
      conv_rhs => rw [← e]
      ext i hi
      simp [low16]
    have e1 : (Config.pad n ++ sel).extractLsb' 8 8 = sel.extractLsb' 8 8 := by
      conv_rhs => rw [← e]
      ext i hi
      simp [low16]
    rcases j with _ | _ | j
    · rw [← h]; simp [selectorBytes, bytesOfWord, bytesOfHalf, e0]
    · rw [← h]; simp [selectorBytes, bytesOfWord, bytesOfHalf, e1]
    · simp [bytesOfHalf] at h

end Sys2Proof.Machine
end

