-- ==== Sys2Proof/Tests/Slice0.lean ====
section
/-! SUPPORT. Tests: ill-formed terms that WellFormed refuses, words decoded by hand from the spec's encoding
tables, the spec's vectors (95_test_vectors.md) as single steps, and for every obligation a state and operands
that meet its hypotheses. -/

namespace Sys2Proof.Tests

open Sys2Proof.Machine

/-! ## Start states of 95_test_vectors.md, 2.1 -/

/-- Bytes at consecutive physical addresses. -/
def put (m : Memory) (a : Nat) : List Byte → Memory
  | [] => m
  | b :: bs => put (memWrite m a b) (a + 1) bs

/-- A state with bytes at a physical address. -/
def at_ (s : State) (a : Nat) (bs : List Byte) : State := { s with mem := put s.mem a bs }

/-- A state with an instruction at CS:EIP. -/
def code (s : State) (bs : List Byte) : State := placeBytes s 0 bs

/-- A segment register of Real Address Mode. -/
def realSeg (sel : Half) : Seg := ⟨sel, zext32 sel * 16, 0xFFFF, 0x93, false⟩

/-- S-real, with EIP 100H. -/
def real : State :=
  { State.reset with
    eip := 0x100
    regs := { State.reset.regs with esp := 0xFFFE }
    segs := ⟨realSeg 0, realSeg 0x1000, realSeg 0x2000, realSeg 0x3000, realSeg 0, realSeg 0⟩ }

/-- The GDT of S-prot: selectors 0000 to 0060. -/
def gdtBytes : List Byte :=
  [0, 0, 0, 0, 0, 0, 0, 0,
   0xFF, 0xFF, 0, 0, 0, 0x9B, 0xCF, 0,
   0xFF, 0xFF, 0, 0, 0, 0x93, 0xCF, 0,
   0xFF, 0xFF, 0, 0, 0, 0xFB, 0xCF, 0,
   0xFF, 0xFF, 0, 0, 0, 0xF3, 0xCF, 0] ++
  [0xFF, 0xFF, 0, 0, 0, 0x9F, 0xCF, 0,
   0, 0x30, 8, 0, 2, 0xEC, 0, 0,
   0xFF, 0xFF, 0, 0, 0, 0x1B, 0xCF, 0,
   0, 0x50, 8, 0, 0, 0x8C, 0, 0,
   0xFF, 0xFF, 0, 0, 2, 0x9B, 0, 0] ++
  [0x67, 0, 0, 0, 9, 0x89, 0, 0,
   0, 0, 0x50, 0, 0, 0x85, 0, 0,
   0x67, 0, 0, 0, 0xA, 0x8B, 0, 0]

/-- A flat 32-bit segment register. -/
def flat (sel : Half) (ar : Byte) : Seg := ⟨sel, 0, 0xFFFFFFFF, ar, true⟩

/-- S-prot0. -/
def prot0 : State :=
  { State.reset with
    cr0 := 1
    eip := 0x1000
    gdtr := ⟨0x80000, 0x67⟩
    tr := ⟨0x60, 0xA0000, 0x67, .tss386⟩
    mem := put (put [] 0x80000 gdtBytes) 0xA0004 [0, 0x90, 0, 0, 0x10, 0]
    regs := { State.reset.regs with esp := 0x10000 }
    segs := ⟨flat 0x10 0x93, flat 8 0x9B, flat 0x10 0x93, flat 0x10 0x93, flat 0x10 0x93, flat 0x10 0x93⟩ }

/-- S-prot3. -/
def prot3 : State :=
  { prot0 with
    cpl := 3
    eip := 0x401000
    regs := { State.reset.regs with esp := 0x12FF00 }
    segs := ⟨flat 0x23 0xF3, flat 0x1B 0xFB, flat 0x23 0xF3, flat 0x23 0xF3, flat 0x23 0xF3, flat 0x23 0xF3⟩
    mem := put prot0.mem 0x12FF00 [0xAA, 0xAA, 0xAA, 0xAA, 0xBB, 0xBB, 0xBB, 0xBB] }

def withEsp (s : State) (v : Word) : State := { s with regs := { s.regs with esp := v } }
def withEbx (s : State) (v : Word) : State := { s with regs := { s.regs with ebx := v } }
def withSsLimit (s : State) (v : Word) : State := { s with segs := { s.segs with ss := { s.segs.ss with limit := v } } }
def withDsLimit (s : State) (v : Word) : State := { s with segs := { s.segs with ds := { s.segs.ds with limit := v } } }
def withCsLimit (s : State) (v : Word) : State := { s with segs := { s.segs with cs := { s.segs.cs with limit := v } } }

/-- No byte before the opcode. -/
def bare : Prefixes := ⟨false, false, none⟩

/-- What a step leaves, where it answers. -/
def after {α : Type} (s : State) (f : State → α) : Option α :=
  match step s with
  | .next t => some (f t)
  | .fault _ => none
  | .refused _ => none

/-- Why a step stops. -/
def stop (s : State) : Option Stop :=
  match step s with
  | .next _ => none
  | .fault r => some (.fault r)
  | .refused r => some (.refuse r)

/-- EIP, ESP and the CS selector. -/
def key (s : State) : Word × Word × Half := (s.eip, s.regs.esp, s.segs.cs.sel)

/-- The bytes of memory at a physical address. -/
def bytesAt (s : State) (a : Nat) : Nat → List Byte
  | 0 => []
  | n + 1 => memRead s.mem a :: bytesAt s (a + 1) n

/-! ## WellFormed refuses what has no encoding -/

theorem test_illformed_bp : (Instr.callRm16 bare (.mem (.based16 .bp .none))).wellFormed = false := by decide
theorem test_illformed_esp_base : (Mem.based32 .esp .none).wellFormed = false := by decide
theorem test_illformed_ebp : (Mem.based32 .ebp .none).wellFormed = false := by decide
theorem test_illformed_esp_index : (Mem.sib 0 (some .esp) .eax .none).wellFormed = false := by decide
theorem test_illformed_scale : (Mem.sib 1 none .eax .none).wellFormed = false := by decide
theorem test_illformed_sib_ebp : (Mem.sib 0 none .ebp .none).wellFormed = false := by decide
theorem test_illformed_nobase_index : (Mem.sibNoBase 0 (some .esp) 0).wellFormed = false := by decide
theorem test_illformed_nobase_scale : (Mem.sibNoBase 2 none 0).wellFormed = false := by decide
theorem test_illformed_addrsize : (Instr.callM1616 bare (.based32 .ebx .none)).wellFormed = false := by decide
theorem test_wellformed : (Instr.callM1616 ⟨false, true, none⟩ (.based32 .ebx .none)).wellFormed = true := by decide

/-! ## Words written out from the encoding tables -/

/-- `E8 cw` (R81, R83). -/
theorem test_decode_rel16 : decode .w16 [0xE8, 0x34, 0x12] = .ok (.callRel16 bare 0x1234, []) := rfl
/-- `E8 cd` under a 66H byte in a 16-bit segment (R5, R92). -/
theorem test_decode_rel32 :
    decode .w16 [0x66, 0xE8, 0x78, 0x56, 0x34, 0x12] = .ok (.callRel32 ⟨true, false, none⟩ 0x12345678, []) := rfl
/-- `FF /2` with `mod = 1`, `rm = 2`: `[BP+SI+disp8]` (R85, R86): ModR/M 01 010 010. -/
theorem test_decode_rm16 :
    decode .w16 [0xFF, 0b01010010, 0xFE] = .ok (.callRm16 bare (.mem (.based16 .bpSi (.d8 0xFE))), []) := rfl
/-- `FF /2` with `mod = 2`, a SIB byte of scale 3, index ESI, base EDX and `disp32` (R87). -/
theorem test_decode_rm32 :
    decode .w32 [0x65, 0xFF, 0b10010100, 0b11110010, 1, 2, 3, 4] =
      .ok (.callRm32 ⟨false, false, some .gs⟩ (.mem (.sib 3 (some .esi) .edx (.d32 0x04030201))), []) := rfl
/-- `9A cd`: the offset first, then the selector (R84). -/
theorem test_decode_ptr1616 : decode .w16 [0x9A, 1, 2, 3, 4] = .ok (.callPtr1616 bare 0x0403 0x0201, []) := rfl
/-- `9A cp` (R84). -/
theorem test_decode_ptr1632 :
    decode .w32 [0x9A, 1, 2, 3, 4, 5, 6] = .ok (.callPtr1632 bare 0x0605 0x04030201, []) := rfl
/-- `FF /3` with `mod = 0`, `rm = 6`: `disp16` (R86). -/
theorem test_decode_m1616 :
    decode .w16 [0x3E, 0xFF, 0b00011110, 0x10, 0] =
      .ok (.callM1616 ⟨false, false, some .ds⟩ (.direct16 0x10), []) := rfl
/-- `FF /3` with `mod = 0`, `rm = 5`: `disp32` (R87). -/
theorem test_decode_m1632 :
    decode .w32 [0xFF, 0b00011101, 1, 0, 0, 0x80] = .ok (.callM1632 bare (.direct32 0x80000001), []) := rfl
/-- `index = 4` with a scale is undefined (R87, U2). -/
theorem test_decode_scaled : decode .w32 [0xFF, 0b00010100, 0b01100000] = .error .scaledNoIndex := rfl
/-- A word of the opcode table and the step that runs it from reset. -/
theorem test_table_word : decodeTableWord 24 0xE80000 = some (.callRel16 bare 0) := rfl

/-! ## Steps: the spec's vectors -/

theorem test_A1 : after (code real [0xE8, 0x34, 0x12]) (fun t => (key t, bytesAt t 0x2FFFC 2)) =
    some ((0x1337, 0xFFFC, 0x1000), [0x03, 0x01]) := by decide +kernel
theorem test_A6 : after (code (withEsp { prot0 with eip := 0x12340 } 0x8000) [0x66, 0xE8, 0x10, 0])
    (fun t => (key t, bytesAt t 0x7FFE 2)) = some ((0x2354, 0x7FFE, 8), [0x44, 0x23]) := by decide +kernel
theorem test_A7 : after (code (withEsp prot3 0x12FFC0) [0xE8, 0xFB, 0xFF, 0xFF, 0xFF])
    (fun t => (key t, bytesAt t 0x12FFBC 4)) =
      some ((0x401000, 0x12FFBC, 0x1B), [0x05, 0x10, 0x40, 0x00]) := by decide +kernel
theorem test_A9 : stop (code (withCsLimit prot0 0xFFFF) [0xE8, 0, 0, 1, 0]) = some (.fault (.gp 0)) := by
  decide +kernel
theorem test_B1 : after (code (withEsp (withEbx { real with eip := 0x200 } 0xABCD5678) 0x1000) [0xFF, 0xD3])
    (fun t => (key t, bytesAt t 0x20FFE 2)) = some ((0x5678, 0xFFE, 0x1000), [0x02, 0x02]) := by decide +kernel
theorem test_B4 : after (code (at_ { real with eip := 0x120, regs := { real.regs with ebx := 0x1000, esi := 0x20 } }
    0x31024 [0, 5]) [0xFF, 0x50, 4]) key = some (0x500, 0xFFFC, 0x1000) := by decide +kernel
theorem test_B7 : after (code (at_ { prot3 with regs := { prot3.regs with ecx := 3 } } 0x40200C [0, 0x30, 0x40, 0])
    [0xFF, 0x14, 0x8D, 0, 0x20, 0x40, 0]) (fun t => (key t, bytesAt t 0x12FEFC 4)) =
      some ((0x403000, 0x12FEFC, 0x1B), [0x07, 0x10, 0x40, 0x00]) := by decide +kernel
theorem test_B11 : stop (code { withSsLimit prot0 0xFFF with regs := { prot0.regs with ebp := 0xFFE } }
    [0xFF, 0x55, 0]) = some (.fault (.ss 0)) := by decide +kernel
theorem test_C1 : after (code real [0x9A, 0x78, 0x56, 0x34, 0x12])
    (fun t => (key t, t.segs.cs.base, bytesAt t 0x2FFFA 4)) =
      some ((0x5678, 0xFFFA, 0x1234), 0x12340, [0x05, 0x01, 0x00, 0x10]) := by decide +kernel
theorem test_C2 : after (code real [0x66, 0x9A, 0x78, 0x56, 0, 0, 0x34, 0x12]) key =
    some (0x5678, 0xFFF6, 0x1234) := by decide +kernel
theorem test_C3 : after (code (at_ (withEsp { real with eip := 0x200 } 0xFC) 0x30010 [0, 3, 0, 0x40])
    [0xFF, 0x1E, 0x10, 0]) (fun t => (key t, bytesAt t 0x200F8 4)) =
      some ((0x300, 0xF8, 0x4000), [0x04, 0x02, 0x00, 0x10]) := by decide +kernel
theorem test_C4 : after (code (at_ (withEsp { real with eip := 0x200 } 0xFC) 0x30010 [0, 3, 0, 0, 0, 0x40])
    [0x66, 0xFF, 0x1E, 0x10, 0]) key = some (0x300, 0xF4, 0x4000) := by decide +kernel
theorem test_C5 : stop (code real [0xFF, 0x1E, 0xFD, 0xFF]) = some (.fault .interrupt13) := by decide +kernel
/-- A CALL that runs past 0FFFFH: Interrupt 13 in Real Address Mode, `#GP(0)` in Virtual 8086 Mode (R94). -/
theorem test_fetch_modes : let s := code { real with eip := 0xFFFF } [0xE8]
    stop s = some (.fault .interrupt13) ∧
    stop { s with cr0 := 1, eflags := 0x20002, cpl := 3 } = some (.fault (.gp 0)) := by decide +kernel
theorem test_D1 : after (code prot0 [0x9A, 0, 0x20, 0, 0, 8, 0]) (fun t => (key t, t.cpl)) =
    some ((0x2000, 0xFFF8, 8), 0) := by decide +kernel
theorem test_D8 : after (code prot3 [0x9A, 0, 0x20, 0x40, 0, 0x28, 0]) (fun t => (key t, t.cpl)) =
    some ((0x402000, 0x12FEF8, 0x2B), 3) := by decide +kernel
theorem test_D10 : after (code prot0 [0x66, 0x9A, 0, 1, 0x48, 0])
    (fun t => (key t, t.segs.cs.base, t.segs.cs.limit, t.segs.cs.db, bytesAt t 0xFFFC 4)) =
      some ((0x100, 0xFFFC, 0x48), 0x20000, 0xFFFF, false, [0x06, 0x10, 0x08, 0x00]) := by decide +kernel
theorem test_D13 : stop (code (withDsLimit (withEbx prot0 0xFFC) 0xFFF) [0xFF, 0x1B]) =
    some (.fault (.gp 0)) := by decide +kernel
theorem test_E1 : after (code prot0 [0x9A, 0x78, 0x56, 0x34, 0x12, 0x40, 0]) key =
    some (0x5000, 0xFFF8, 8) := by decide +kernel
theorem test_E2 : after (code prot3 [0x9A, 0, 0, 0, 0, 0x33, 0]) (fun t => (key t, t.segs.ss.sel, t.cpl)) =
    some ((0x3000, 0x8FE8, 8), 0x10, 0) := by decide +kernel
/-- E2 with a 286 gate (type 4), whose pushes are 2 bytes each: old SS, SP, parameters 1 and 0, CS, IP (R161). -/
theorem test_E2_286 : after (code (at_ (at_ prot3 0x80035 [0xE4]) 0x12FF00 [1, 2, 3, 4]) [0x66, 0x9A, 0, 0, 0x33, 0])
    (fun t => (t.regs.esp, bytesAt t 0x8FF4 12)) =
      some (0x8FF4, [0x06, 0x10, 0x1B, 0, 1, 2, 3, 4, 0, 0xFF, 0x23, 0]) := by decide +kernel
theorem test_E8 : stop (code (at_ (at_ prot3 0x80010 [0xFF, 0xFF, 0, 0, 0, 0x93, 0x40, 0]) 0xA0004 [0x10, 0, 0, 0])
    [0x9A, 0, 0, 0, 0, 0x33, 0]) = some (.fault (.ss 0)) := by decide +kernel
/-- `CALL FAR [ESP+40H]`: the pointer is read before anything is pushed, so at the old ESP (R132, R137). -/
theorem test_far_esp : after (code (at_ prot0 0x10040 [0, 0x20, 0, 0, 8, 0]) [0xFF, 0b01011100, 0b00100100, 0x40])
    key = some (0x2000, 0xFFF8, 8) := by decide +kernel
/-- A task gate with a null TSS selector fails T6 though entry 0 of the GDT holds an available TSS (R163). -/
theorem test_null_tss : stop (code (at_ (at_ prot0 0x80000 [0x67, 0, 0, 0, 9, 0x89, 0, 0]) 0x8005A [0, 0])
    [0x9A, 0, 0, 0, 0, 0x58, 0]) = some (.fault (.ts 0)) := by decide +kernel
theorem test_B12 : stop (code prot0 [0xFF, 0x14, 0x24]) = some (.refuse .stackDependentOperand) := by decide +kernel
theorem test_E11 : stop (code prot0 [0x9A, 0, 0, 0, 0, 0x60, 0]) = some (.fault (.ts 0x60)) := by decide +kernel

/-! ## Witnesses: states and operands that meet the hypotheses of each obligation -/

/-- The bytes of A1 can be fetched and decode (StepRunsTheDecodedInstruction). -/
theorem witness_step_runs : let s := code real [0xE8, 0x34, 0x12]
    launchCheck s = .ok () ∧ fetchable s [0xE8, 0x34, 0x12] ∧
    decode s.codeSize [0xE8, 0x34, 0x12] = .ok (.callRel16 bare 0x1234, []) := by
  refine ⟨rfl, ?_, rfl⟩
  intro k b h
  rcases k with _ | _ | _ | k
  · cases h; rfl
  · cases h; rfl
  · cases h; rfl
  · simp at h

/-- A byte that is no CALL, and one that is an illegal encoding (StepStopsOnWhatIsNoCall). -/
theorem witness_step_stops : let s := code real [0xFF, 0xD8]
    launchCheck s = .ok () ∧ fetchable s [0xFF, 0xD8] ∧ fetchable (code real [0x90]) [0x90] ∧
    decode s.codeSize [0xFF, 0xD8] = .error .invalidOpcode ∧ decode .w16 [0x90] = .error (.notCall 0x90) := by
  refine ⟨rfl, ?_, ?_, rfl, rfl⟩
  · intro k b h
    rcases k with _ | _ | k
    · cases h; rfl
    · cases h; rfl
    · simp at h
  · intro k b h
    rcases k with _ | k
    · cases h; rfl
    · simp at h

/-- No byte, and one byte, can be fetched. -/
theorem fetchable_nil (s : State) : fetchable s [] := by
  intro k b h
  simp at h
theorem fetchable_one {s : State} {b : Byte} (h : fetchByte s 0 = .ok b) : fetchable s [b] := by
  intro k c hc
  rcases k with _ | k
  · cases hc; exact h
  · simp at hc

/-- The first byte one beyond the limit, and the second, in each mode (FetchBeyondTheLimitFaults). -/
theorem witness_fetch_limit :
    (let s := withCsLimit prot0 0xFFF
     launchCheck s = .ok () ∧ fetchable s [] ∧ decode s.codeSize [] = .error .truncated ∧ s.mode = .prot ∧
       s.segs.cs.limit.toNat < s.eip.toNat + ([] : List Byte).length) ∧
    (let s := code (withCsLimit prot0 0x1000) [0xE8]
     launchCheck s = .ok () ∧ fetchable s [0xE8] ∧ decode s.codeSize [0xE8] = .error .truncated ∧ s.mode = .prot ∧
       s.segs.cs.limit.toNat < s.eip.toNat + [0xE8].length) ∧
    (let s := code { real with eip := 0xFFFF } [0xE8]
     launchCheck s = .ok () ∧ fetchable s [0xE8] ∧ decode s.codeSize [0xE8] = .error .truncated ∧ s.mode = .real ∧
       0xFFFF < s.eip.toNat + [0xE8].length) ∧
    (let s := code { real with cr0 := 1, eflags := 0x20002, cpl := 3, eip := 0xFFFF } [0xE8]
     launchCheck s = .ok () ∧ fetchable s [0xE8] ∧ decode s.codeSize [0xE8] = .error .truncated ∧ s.mode = .v86 ∧
       0xFFFF < s.eip.toNat + [0xE8].length) :=
  ⟨⟨rfl, fetchable_nil _, rfl, rfl, by decide⟩, ⟨rfl, fetchable_one rfl, rfl, rfl, by decide⟩,
    ⟨rfl, fetchable_one rfl, rfl, rfl, by decide⟩, ⟨rfl, fetchable_one rfl, rfl, rfl, by decide⟩⟩

/-- Both launch states the spec refuses (RefusedLaunchStatesDoNotStep). -/
theorem witness_refused_launch :
    State.reset.pe = false ∧ State.vm { State.reset with eflags := 0x20002 } = true ∧
    State.reset.vm = false ∧ realLimits (withCsLimit State.reset 0xFFFE).segs = false := by decide

/-- A push recorded at CS:EIP, and one at the second byte of A1's instruction (FetchOfAPushedByteIsRefused). -/
theorem witness_pushed_fetch :
    (let s := { real with written := [0x10100] }
     launchCheck s = .ok () ∧ fetchable s [] ∧ decode s.codeSize [] = .error .truncated ∧ fetchInLimit s 0 = true ∧
     translate s (linear s.segs.cs s.eip + BitVec.ofNat 32 0) .read s.cpl = .ok 0x10100 ∧
     (0x10100 : Word).toNat ∈ s.written ∧ s.params.pushedCode = .refuse) ∧
    (let s := { code real [0xE8, 0x34, 0x12] with written := [0x10101] }
     launchCheck s = .ok () ∧ fetchable s [0xE8] ∧ decode s.codeSize [0xE8] = .error .truncated ∧
     fetchInLimit s 1 = true ∧ translate s (linear s.segs.cs s.eip + BitVec.ofNat 32 1) .read s.cpl = .ok 0x10101 ∧
     (0x10101 : Word).toNat ∈ s.written ∧ s.params.pushedCode = .refuse) :=
  ⟨⟨rfl, fetchable_nil _, rfl, rfl, rfl, by decide, rfl⟩, ⟨rfl, fetchable_one rfl, rfl, rfl, rfl, by decide, rfl⟩⟩

/-- A well-formed instruction with every part (DecodeOfEncodeIsTheInstruction). -/
theorem witness_round_trip :
    (Instr.callM1632 ⟨true, true, some .fs⟩ (.sib 3 (some .edi) .ebp (.d8 0x80))).wellFormed = true := by decide

/-- Bytes before an opcode, between and after which LOCK or a repeat byte can stand (LockAndRepeatNeverRun). -/
theorem witness_lock : (∀ x ∈ [(0x66 : Byte), 0x2E], (prefixByte x).isSome) ∧
    decode .w32 ([0x66, 0x2E] ++ [0xFF, 0xD0]) = .ok (.callRm16 ⟨true, false, some .cs⟩ (.reg .eax), []) ∧
    decode .w32 ([0x66] ++ 0xF0 :: [0x2E, 0xFF, 0xD0]) = .error .invalidOpcode ∧
    decode .w32 ([0x66, 0x2E] ++ 0xF3 :: [0xFF, 0xD0]) = .error .repPrefix := by
  refine ⟨by decide, rfl, rfl, rfl⟩

/-- Bytes that decode, with bytes after them (DecodedInstructionsAreWellFormed, DecodeReadsOnlyTheInstruction). -/
theorem witness_decodes : decode .w32 [0x9A, 1, 2, 3, 4, 5, 6, 0x90] =
    .ok (.callPtr1632 bare 0x0605 0x04030201, [0x90]) := rfl

/-- Three different bytes before the opcode (OrderBeforeTheOpcodeDoesNotMatter). -/
theorem witness_order : (∀ x ∈ [(0x66 : Byte)], (prefixByte x).isSome) ∧ (prefixByte 0x67).isSome ∧
    (prefixByte 0x2E).isSome ∧ decode .w32 ([0x66] ++ 0x67 :: 0x2E :: [0xFF, 0xD0]) =
      .ok (.callRm16 ⟨true, true, some .cs⟩ (.reg .eax), []) := by
  refine ⟨by decide, by decide, by decide, rfl⟩

/-- An opcode byte, a reg field below and one above the two of CALL (OtherOpcodesAreRefused). -/
theorem witness_other : prefixByte 0xE9 = none ∧ (0xE9 : Byte) ≠ 0xE8 ∧ (0xE9 : Byte) ≠ 0x9A ∧
    (0xE9 : Byte) ≠ 0xFF ∧ (1 : BitVec 3) ≠ 2 ∧ (1 : BitVec 3) ≠ 3 ∧ (4 : BitVec 3) ≠ 2 ∧ (4 : BitVec 3) ≠ 3 := by
  decide

/-- The last byte at 0FFFFH is outside the corner, one further is inside it (NextEipOfEveryForm). -/
theorem witness_nexteip :
    ¬ (State.codeSize { real with eip := 0xFFFC } = .w16 ∧ 0xFFFF < (0xFFFC : Word).toNat + 3) ∧
    State.codeSize { real with eip := 0xFFFD } = .w16 ∧ 0xFFFF < (0xFFFD : Word).toNat + 3 ∧
    real.params.nextEip = .refuse ∧ instrLength (.callRel16 bare 0) = 3 ∧
    (nextEip { real with eip := 0xFFFD, params := { Params.default with nextEip := .wrap } } 3).toOption = some 0 ∧
    (nextEip { real with eip := 0xFFFD, params := { Params.default with nextEip := .carry } } 3).toOption =
      some 0x10000 := by decide

/-- A1 meets the hypotheses of CallRel16Completes and, as a next state, of NearCallFrame. -/
theorem witness_rel16 : nextEip real (instrLength (.callRel16 bare 0x1234)) = .ok 0x103 ∧
    inCodeLimit real.mode real.segs.cs.limit (zext32 (low16 0x103 + 0x1234)) = true ∧
    pushFits real real.cpl 2 1 = true ∧ isNear (.callRel16 bare 0x1234) = true ∧
    Memory.wf real.mem = true ∧ (∃ t, exec (.callRel16 bare 0x1234) real = .next t) := by
  exact ⟨rfl, rfl, rfl, rfl, rfl, _, rfl⟩

/-- The target at the limit (CallRel32Completes). -/
theorem witness_rel32 : nextEip prot3 (instrLength (.callRel32 bare 0xFFBFEFFA)) = .ok 0x401005 ∧
    inCodeLimit prot3.mode prot3.segs.cs.limit (0x401005 + 0xFFBFEFFA) = true ∧
    (0x401005 : Word) + 0xFFBFEFFA = 0xFFFFFFFF ∧ pushFits prot3 prot3.cpl 4 1 = true := by
  exact ⟨rfl, rfl, rfl, rfl⟩

/-- B1 and B6 (CallRm16Completes): a register and memory. -/
theorem witness_rm16 : let s := at_ real 0x13000 [0, 7]
    let p : Prefixes := ⟨false, false, some .cs⟩
    nextEip s (instrLength (.callRm16 p (.mem (.direct16 0x3000)))) = .ok 0x105 ∧
    shapeAllowed s (rmUsesEsp (.mem (.direct16 0x3000))) = true ∧
    segRead s (operandSegment p (.direct16 0x3000)) (effectiveAddress s.regs (.direct16 0x3000)) 2 = .ok 0x700 ∧
    overlapAllowed s (rmRange s p .w16 (.mem (.direct16 0x3000))) 2 1 = true ∧
    inCodeLimit s.mode s.segs.cs.limit 0x700 = true ∧ pushFits s s.cpl 2 1 = true := by
  exact ⟨rfl, rfl, rfl, rfl, rfl, rfl⟩

/-- B2 and B7 (CallRm32Completes): a register and memory. -/
theorem witness_rm32 : let s := at_ prot3 0x402000 [0, 0x30, 0x40, 0]
    let m : Mem := .direct32 0x402000
    nextEip s (instrLength (.callRm32 bare (.mem m))) = .ok 0x401006 ∧
    shapeAllowed s (rmUsesEsp (.mem m)) = true ∧
    segRead s (operandSegment bare m) (effectiveAddress s.regs m) 4 = .ok 0x403000 ∧
    overlapAllowed s (rmRange s bare .w32 (.mem m)) 4 1 = true ∧
    inCodeLimit s.mode s.segs.cs.limit 0x403000 = true ∧ pushFits s s.cpl 4 1 = true := by
  exact ⟨rfl, rfl, rfl, rfl, rfl, rfl⟩

/-- A9, A10 and both together: one beyond the limit, no room (NearCallChecks). -/
theorem witness_near_checks : let i : Instr := .callRel32 bare 0xEFFB
    let s := withCsLimit prot0 0xFFFF
    let u := withEsp (withSsLimit prot0 0xFFFF) 0x10001
    nextEip s (instrLength i) = .ok 0x1005 ∧ nearForm s 0x1005 i = some (.w32, 0x10000) ∧ s.mode = .prot ∧
    s.segs.cs.limit.toNat < (0x10000 : Word).toNat ∧ s.room 4 1 = true ∧
    nextEip u (instrLength i) = .ok 0x1005 ∧ nearForm u 0x1005 i = some (.w32, 0x10000) ∧
    u.room 4 1 = false ∧ (withCsLimit u 0xFFFF).room 4 1 = false ∧
    real.mode ≠ .prot ∧ (withEsp real 1).room 2 1 = false := by
  refine ⟨rfl, rfl, rfl, by decide, rfl, rfl, rfl, rfl, rfl, by decide, rfl⟩

/-- B9, B10 and B11: one byte beyond the limit, in DS and SS, in two modes (NearOperandFaults). -/
theorem witness_near_operand :
    shapeAllowed real (memUsesEsp (.direct16 0xFFFF)) = true ∧
    nextEip real (instrLength (.callRm16 bare (.mem (.direct16 0xFFFF)))) = .ok 0x104 ∧
    readable real.mode real.segs.ds 0xFFFF 2 = false ∧
    nextEip prot0 (instrLength (.callRm32 bare (.mem (.based32 .ebp (.d8 0))))) = .ok 0x1003 ∧
    operandSegment bare (.based32 .ebp (.d8 0)) = .ss ∧
    readable .prot (withSsLimit prot0 0xFFF).segs.ss 0xFFD 4 = false ∧
    readable .prot (withSsLimit prot0 0xFFF).segs.ss 0xFFC 4 = true := by
  exact ⟨rfl, rfl, rfl, rfl, rfl, rfl, rfl⟩

/-- A state with paging on and a `Translate`. -/
def paged (s : State) (ms : List Mapping) : State :=
  { s with cr0 := 0x80000001, params := { Params.default with translation := some ms } }

/-- Reads at a privilege from `lo` to `hi` go to the linear address itself. -/
def reads (cpl : BitVec 2) (lo hi : Word) : Mapping := ⟨.read, cpl, lo, hi, lo⟩

/-- S-prot0 and S-prot3 with a `Translate` that maps nothing, and with one that maps every read at CPL 0. -/
def pagedOut : State := paged prot0 []
def pagedRead : State := paged prot0 [reads 0 0 0xFFFFFFFF]

/-- The instruction's first byte, an operand and a far pointer that do not translate, and what stops them with
and without a `Translate` (UntranslatedAccessesPageFault). -/
theorem witness_page_fault_reads : let m : Mem := .direct32 0x402000
    launchCheck pagedOut = .ok () ∧ fetchable pagedOut [] ∧ decode pagedOut.codeSize [] = .error .truncated ∧
    fetchInLimit pagedOut 0 = true ∧
    translatesAt pagedOut .read 0 (linear pagedOut.segs.cs pagedOut.eip + BitVec.ofNat 32 0) = false ∧
    shapeAllowed pagedOut (memUsesEsp m) = true ∧
    nextEip pagedOut (instrLength (.callRm32 bare (.mem m))) = .ok 0x1006 ∧
    nextEip pagedOut (instrLength (.callM1632 bare m)) = .ok 0x1006 ∧
    readable pagedOut.mode (pagedOut.segs.get (operandSegment bare m)) (effectiveAddress pagedOut.regs m) 6 = true ∧
    translates pagedOut .read 0 (linear (pagedOut.segs.get (operandSegment bare m)) (effectiveAddress pagedOut.regs m)) 2 = false ∧
    pageStop pagedOut = .fault .pf ∧
    pageStop { pagedOut with params := Params.default } = .refused .translateNotSupplied := by
  exact ⟨rfl, fetchable_nil _, rfl, rfl, rfl, rfl, rfl, rfl, rfl, rfl, rfl, rfl⟩

/-- Pushes that do not translate: of a near call, and of a far call in V86 mode (UntranslatedAccessesPageFault). -/
theorem witness_page_fault_pushes : let i : Instr := .callRel32 bare 0
    nextEip pagedOut (instrLength i) = .ok 0x1005 ∧ nearForm pagedOut 0x1005 i = some (.w32, 0x1005) ∧
    inCodeLimit pagedOut.mode pagedOut.segs.cs.limit 0x1005 = true ∧ pagedOut.room 4 1 = true ∧
    pushFits pagedOut pagedOut.cpl 4 1 = false ∧
    (let s := paged { real with eflags := 0x20002, cpl := 3 } []
     let j : Instr := .callPtr1616 bare 0x1234 0x5678
     s.mode ≠ .prot ∧ nextEip s (instrLength j) = .ok 0x105 ∧ farForm s j = some (.w16, 0x1234, 0x5678, none) ∧
       overlapAllowed s none 2 2 = true ∧ s.room 2 2 = true ∧ (0x5678 : Word).toNat ≤ 0xFFFF ∧
       pushFits s s.cpl 2 2 = false) := by
  refine ⟨rfl, rfl, rfl, rfl, rfl, by decide, rfl, rfl, rfl, rfl, by decide, rfl⟩

/-- A descriptor that does not translate, and the writes of a direct call and of a gate call
(UntranslatedAccessesPageFault). -/
theorem witness_page_fault_far :
    farInProt pagedOut (.callPtr1632 bare 8 0x2000) 0x1007 .w32 8 0x2000 none ∧ selNull 8 = false ∧
    selInTable pagedOut 8 = true ∧ translates pagedOut .read 0 (descAddr pagedOut 8) 8 = false ∧
    farInProt pagedRead (.callPtr1632 bare 8 0x2000) 0x1007 .w32 8 0x2000 none ∧
    names pagedRead 8 0x00CF9B000000FFFF ∧ codeCallOk pagedRead 8 0x00CF9B000000FFFF ∧
    pagedRead.room 4 2 = true ∧ overlapAllowed pagedRead none 4 2 = true ∧
    sameStackFits pagedRead none .w32 8 0x00CF9B000000FFFF = false ∧
    farInProt pagedRead (.callPtr1632 bare 0x40 0) 0x1007 .w32 0x40 0 none ∧
    names pagedRead 0x40 0x00008C0000085000 ∧ gateOpen pagedRead 0x40 0x00008C0000085000 = true ∧
    gateCodeOk pagedRead 0x00CF9B000000FFFF = true ∧ toMorePrivilege pagedRead 0x00CF9B000000FFFF = false ∧
    gateSize pagedRead .w32 0x00008C0000085000 = .ok .w32 := by
  exact ⟨⟨rfl, rfl, rfl⟩, rfl, rfl, rfl, ⟨rfl, rfl, rfl⟩, ⟨rfl, rfl, rfl⟩, ⟨rfl, .inr ⟨rfl, rfl, rfl⟩⟩, rfl, rfl, rfl,
    ⟨rfl, rfl, rfl⟩, ⟨rfl, rfl, rfl⟩, rfl, rfl, rfl, rfl⟩

/-- `CALL ESP` and `CALL [ESP]` (StackDependentShapesAreRefused). -/
theorem witness_shapes : prot0.params.stackOperand = .refuse ∧ rmUsesEsp (.reg .esp) = true ∧
    rmUsesEsp (.mem (.sib 0 none .esp .none)) = true ∧
    nextEip prot0 (instrLength (.callRm16 bare (.reg .esp))) = .ok 0x1002 ∧
    nextEip prot0 (instrLength (.callRm32 bare (.mem (.sib 0 none .esp .none)))) = .ok 0x1003 := by
  exact ⟨rfl, rfl, rfl, rfl, rfl⟩

/-- Operands that share one byte with the pushes: the last byte of a near target, and far pointers in Real Address
Mode, to a code segment and to a gate (StackDependentShapesAreRefused). -/
theorem witness_overlaps :
    (let o : Rm := .mem (.direct32 0xFFF9)
     nextEip prot0 (instrLength (.callRm32 bare o)) = .ok 0x1006 ∧ rmUsesEsp o = false ∧
       readRm prot0 bare .w32 o = .ok 0 ∧
       operandOverlaps prot0 (rmRange prot0 bare .w32 o) 0 (prot0.slots 4 1) 4 0 = true) ∧
    (let p : Prefixes := ⟨false, false, some .ss⟩
     let i : Instr := .callM1616 p (.direct16 0xFFF7)
     nextEip real (instrLength i) = .ok 0x105 ∧ farForm real i = some (.w16, 0, 0, some (0x2FFF7, 4)) ∧
       real.mode ≠ .prot ∧ operandOverlaps real (some (0x2FFF7, 4)) 0x20000 (real.slots 2 2) 2 0 = true) ∧
    (let s := at_ prot0 0xFFF3 [0, 0x20, 0, 0, 8, 0]
     farInProt s (.callM1632 bare (.direct32 0xFFF3)) 0x1006 .w32 8 0x2000 (some (0xFFF3, 6)) ∧
       names s 8 0x00CF9B000000FFFF ∧ codeCallOk s 8 0x00CF9B000000FFFF ∧ s.room 4 2 = true ∧
       operandOverlaps s (some (0xFFF3, 6)) 0 (s.slots 4 2) 4 0 = true) ∧
    (let s := at_ prot0 0xFFF3 [0, 0x20, 0, 0, 0x40, 0]
     farInProt s (.callM1632 bare (.direct32 0xFFF3)) 0x1006 .w32 0x40 0x2000 (some (0xFFF3, 6)) ∧
       names s 0x40 0x00008C0000085000 ∧ gateOpen s 0x40 0x00008C0000085000 = true ∧
       operandOverlaps s (some (0xFFF3, 6)) 0 (s.slots 4 2) 4 0 = true) := by
  exact ⟨⟨rfl, rfl, rfl, rfl⟩, ⟨rfl, rfl, by decide, rfl⟩,
    ⟨⟨rfl, rfl, rfl⟩, ⟨rfl, rfl, rfl⟩, ⟨rfl, .inr ⟨rfl, rfl, rfl⟩⟩, rfl, rfl⟩,
    ⟨⟨rfl, rfl, rfl⟩, ⟨rfl, rfl, rfl⟩, rfl, rfl⟩⟩

/-- Paging off and memory in canonical form (PushedValueReadsBack, FarReturnAddressReadsBack, and with A1 a
step for EveryChangedByteIsRecorded, EveryCallLeavesTheSystemState, NoFlagIsAffectedWithoutTaskSwitch). -/
theorem witness_memory : prot0.paging = false ∧ real.paging = false ∧ Memory.wf prot3.mem = true ∧
    (∃ t, step (code real [0xE8, 0x34, 0x12]) = .next t) := by
  exact ⟨rfl, rfl, rfl, _, rfl⟩

/-- The boundary stack pointers of Real Address Mode (RealModePushFailsOnlyAcrossTheTop). -/
theorem witness_real_push : real.mode ≠ .prot ∧ (withEsp real 0).room 2 1 = true ∧ (withEsp real 1).room 2 1 = false ∧
    (withEsp real 2).room 2 1 = true ∧ (withEsp real 3).room 4 1 = false ∧ (withEsp real 4).room 4 1 = true ∧
    (withEsp real 0).room 4 1 = true := by decide

/-- At and one beyond the limit, and below an expand-down segment's limit (LimitChecksDoNotWrap). -/
theorem witness_limits : inLimit ⟨8, 0, 0xFFF, 0x93, true⟩ 0xFFC 4 = true ∧
    inLimit ⟨8, 0, 0xFFF, 0x93, true⟩ 0xFFD 4 = false ∧ inLimit ⟨8, 0, 0xFFF, 0x97, true⟩ 0xFFF 1 = false ∧
    inLimit ⟨8, 0, 0xFFF, 0x97, true⟩ 0x1000 1 = true ∧ inLimit ⟨8, 0, 0xFFF, 0x97, false⟩ 0xFFFF 2 = false ∧
    inLimit ⟨8, 0, 0xFFFFFFFF, 0x93, true⟩ 0xFFFFFFFF 2 = false := by decide

/-- The last far pointers inside the segment and the first outside (FarPointerIsOffsetThenSelector,
FarPointerFaults). -/
theorem witness_far_pointer : real.paging = false ∧
    nextEip real (instrLength (.callM1616 bare (.direct16 0xFFFD))) = .ok 0x104 ∧
    nextEip real (instrLength (.callM1632 bare (.direct16 0xFFFB))) = .ok 0x104 ∧
    readable real.mode real.segs.ds 0xFFFC 4 = true ∧ readable real.mode real.segs.ds 0xFFFD 4 = false ∧
    readable real.mode real.segs.ds 0xFFFA 6 = true ∧ readable real.mode real.segs.ds 0xFFFB 6 = false := by
  exact ⟨rfl, rfl, rfl, rfl, rfl, rfl, rfl⟩

/-- With paging off every linear address is the physical one: the descriptor 0008 and level 0 of the TSS of S-prot0
(DescriptorKinds). -/
theorem witness_layouts :
    (∀ k, k < 8 → translate prot0 (prot0.gdtr.base + BitVec.ofNat 32 ((8 : Half).toNat / 8 * 8 + k)) .read 0 =
      .ok (prot0.gdtr.base + BitVec.ofNat 32 ((8 : Half).toNat / 8 * 8 + k))) ∧
    (∀ k, k ≤ prot0.tr.limit.toNat → translate prot0 (prot0.tr.base + BitVec.ofNat 32 k) .read 0 =
      .ok (prot0.tr.base + BitVec.ofNat 32 k)) ∧
    prot0.tr.kind = .tss386 ∧ 8 * 0 + 9 ≤ (9 : Word).toNat ∧ 8 * 2 + 9 ≤ prot0.tr.limit.toNat ∧
    (let s := { prot0 with tr := ⟨0x60, 0xA0000, 5, .tss286⟩ }
     s.tr.kind = .tss286 ∧ 4 * 0 + 5 ≤ s.tr.limit.toNat) :=
  ⟨fun _ _ => rfl, fun _ _ => rfl, rfl, by decide, by decide, rfl, by decide⟩

/-- A null register and the first selector that is not, an execute-only and a read-only segment, an access that ends at
0FFFFH and one beyond (LimitChecksDoNotWrap). -/
theorem witness_rights :
    readable .prot ⟨3, 0, 0xFFFF, 0x93, true⟩ 0 2 = false ∧ readable .prot ⟨4, 0, 0xFFFF, 0x93, true⟩ 0 2 = true ∧
    readable .prot ⟨8, 0, 0xFFFF, 0x99, true⟩ 0 2 = false ∧ readable .prot ⟨8, 0, 0xFFFF, 0x9B, true⟩ 0 2 = true ∧
    writable .prot ⟨8, 0, 0xFFFF, 0x91, true⟩ 0 2 = false ∧ writable .prot ⟨8, 0, 0xFFFF, 0x9B, true⟩ 0 2 = false ∧
    readable .v86 ⟨0, 0, 0, 0, false⟩ 0xFFFE 2 = true ∧ writable .real ⟨0, 0, 0, 0, false⟩ 0xFFFF 2 = false := by decide

/-- A mapping that covers an address and one that does not, and none at all (UntranslatedAccessesPageFault). -/
theorem witness_translate : pagedRead.paging = true ∧ prot0.paging = false ∧
    pagedRead.params.translation = some [reads 0 0 0xFFFFFFFF] ∧
    translate (paged prot0 [reads 0 0x1000 0x1FFF]) 0x1FFF .read 0 = .ok 0x1FFF ∧
    translate (paged prot0 [reads 0 0x1000 0x1FFF]) 0x2000 .read 0 = .error (.fault .pf) ∧
    State.paging { pagedRead with params := Params.default } = true ∧ Params.default.translation = none :=
  ⟨rfl, rfl, rfl, rfl, rfl, rfl, rfl⟩

/-- A word's bytes at the top of the linear addresses, and an operand at its segment's end
(FarPointerIsOffsetThenSelector). -/
theorem witness_read_word : (∀ k, k < 4 → translate prot0 (0xFFFFFFFE + BitVec.ofNat 32 k) .read 0 =
      .ok (0xFFFFFFFE + BitVec.ofNat 32 k)) ∧
    readable real.mode (real.segs.get .ds) 0xFFFE 2 = true := ⟨fun _ _ => rfl, rfl⟩

/-- The launch parameters under which a mixed gate call has a size, and types 4 and C (SamePrivilegeGateChecks). -/
theorem witness_gate_size : arType (descAr 0x00008C0000085000) = 0xC ∧ arType (descAr 0x0000840000085000) = 4 ∧
    gateSize { prot0 with params := { Params.default with gateSize := .gateType } } .w16 0x00008C0000085000 =
      .ok .w32 ∧
    gateSize { prot0 with params := { Params.default with gateSize := .operandSize } } .w16 0x00008C0000085000 =
      .ok .w16 := ⟨rfl, rfl, rfl, rfl⟩

/-- E2's state, parameters at the old stack, a 286 TSS with a 32-bit stack under both launch parameters, and a 16-bit
old stack (MorePrivilegeStateFields). -/
theorem witness_new_stack_memory :
    prot3.mode = .prot ∧ prot3.paging = false ∧ Memory.wf prot3.mem = true ∧
    ([0xAAAAAAAA, 0xBBBBBBBB] : List Word).length ≤ 31 ∧ (List.replicate 31 (0 : Word)).length ≤ 31 ∧
    readParams prot3 .w32 0 2 = .ok [0xAAAAAAAA, 0xBBBBBBBB] ∧
    (∀ k, k < 2 → paramReadable prot3 .w32 k = true ∧ paramTranslates prot3 .w32 k = true) ∧
    State.stackSize { prot3 with segs := { prot3.segs with ss := { prot3.segs.ss with db := false } } } = .w16 ∧
    prot3.stackSize = .w32 ∧ descDb 0x00CF93000000FFFF = true ∧ Params.default.tss286Wide = .refuse ∧
    ({ Params.default with tss286Wide := .freeHigh } : Params).tss286Wide = .freeHigh := by
  refine ⟨rfl, rfl, rfl, by decide, by decide, rfl, fun k hk => ?_, rfl, rfl, rfl, rfl, rfl⟩
  rcases k with _ | _ | k
  · exact ⟨rfl, rfl⟩
  · exact ⟨rfl, rfl⟩
  · omega

/-- S-real in Virtual 8086 Mode. -/
def v86 : State := { real with cr0 := 1, eflags := 0x20002, cpl := 3 }

/-- C1 in both modes, and an offset one too far (FarCallOutsideProtectedModeCompletes, its Faults, its
Frame). -/
theorem witness_far_real : let i : Instr := .callPtr1632 ⟨true, false, none⟩ 0x1234 0xFFFF
    v86.mode = .v86 ∧ real.mode = .real ∧ nextEip v86 (instrLength i) = .ok 0x108 ∧
    farForm v86 i = some (.w32, 0x1234, 0xFFFF, none) ∧ overlapAllowed v86 none 4 2 = true ∧
    (0xFFFF : Word).toNat ≤ 0xFFFF ∧ 0xFFFF < (0x10000 : Word).toNat ∧ pushFits v86 v86.cpl 4 2 = true ∧
    (withEsp v86 3).room 4 2 = false ∧ isNear i = false ∧ Memory.wf v86.mem = true ∧
    (∃ t, exec i v86 = .next t) := by
  refine ⟨rfl, rfl, rfl, rfl, rfl, by decide, by decide, rfl, rfl, rfl, rfl, _, rfl⟩

/-- C3: a far pointer in memory is a far form too. -/
theorem witness_far_memory :
    farForm (at_ real 0x30010 [0, 3, 0, 0x40]) (.callM1616 bare (.direct16 0x10)) =
      some (.w16, 0x4000, 0x300, some (0x30010, 4)) := rfl

/-! In Protected Mode: direct far calls to `sel:off`, from S-prot0 and S-prot3. -/

/-- `CALL sel:off` with a 32-bit operand size, and one with a 16-bit one. -/
def far32 (sel : Half) (off : Word) : Instr := .callPtr1632 bare sel off
def far16 (sel off : Half) : Instr := .callPtr1616 ⟨true, false, none⟩ sel off

/-- Every direct far call from S-prot0 and S-prot3 is in Protected Mode with its pointer read. -/
theorem witness_prot0 (sel : Half) (off : Word) :
    farInProt prot0 (far32 sel off) 0x1007 .w32 sel off none := ⟨rfl, rfl, rfl⟩
theorem witness_prot3 (sel : Half) (off : Word) :
    farInProt prot3 (far32 sel off) 0x401007 .w32 sel off none := ⟨rfl, rfl, rfl⟩
theorem witness_prot0_16 (sel off : Half) :
    farInProt prot0 (far16 sel off) 0x1006 .w16 sel (zext32 off) none := ⟨rfl, rfl, rfl⟩

/-- Selector 3 is null, selector 4 is not (NullSelectorFaults, SelectorOutsideItsTableFaults: 0060 is the last
inside the GDT, 0068 the first outside; no LDT). -/
theorem witness_selectors : (3 : Half).extractLsb' 2 14 = 0 ∧ (4 : Half).extractLsb' 2 14 ≠ 0 ∧
    (0x68 : Half).extractLsb' 2 14 ≠ 0 ∧ (0x68 : Half).getLsbD 2 = false ∧
    prot0.gdtr.limit.toNat < ((0x68 : Half).extractLsb' 3 13).toNat * 8 + 7 ∧
    ¬ prot0.gdtr.limit.toNat < ((0x60 : Half).extractLsb' 3 13).toNat * 8 + 7 ∧
    (0xC : Half).getLsbD 2 = true ∧ prot0.ldtr.valid = false := by decide

/-- The data segment 0010 is illegal to call (IllegalDescriptorFaults). -/
theorem witness_illegal : names prot0 0x10 0x00CF93000000FFFF ∧ descKind (descAr 0x00CF93000000FFFF) = .illegal :=
  ⟨⟨rfl, rfl, rfl⟩, rfl⟩

/-- D8 (ConformingCallCompletes, CodeSegmentCallFrame), with the target at the limit. -/
theorem witness_conforming : names prot3 0x28 0x00CF9F000000FFFF ∧
    descKind (descAr 0x00CF9F000000FFFF) = .conformingCode ∧ (descDpl 0x00CF9F000000FFFF).ule prot3.cpl = true ∧
    descPresent 0x00CF9F000000FFFF = true ∧
    (cut .w32 0xFFFFFFFF).toNat ≤ (descLimit 0x00CF9F000000FFFF).toNat ∧
    sameStackFits prot3 none .w32 0x28 0x00CF9F000000FFFF = true ∧
    (∃ t, exec (far32 0x28 0x402000) prot3 = .next t) := by
  refine ⟨⟨rfl, rfl, rfl⟩, rfl, rfl, rfl, by decide, rfl, _, rfl⟩

/-- D10 (NonConformingCall), with the target at the limit 0FFFFH. -/
theorem witness_nonconforming : names prot0 0x48 0x00009B020000FFFF ∧
    descKind (descAr 0x00009B020000FFFF) = .nonConformingCode ∧ (selRpl 0x48).ule prot0.cpl = true ∧
    descDpl 0x00009B020000FFFF = prot0.cpl ∧ descPresent 0x00009B020000FFFF = true ∧
    (cut .w16 0xFFFF).toNat ≤ (descLimit 0x00009B020000FFFF).toNat ∧
    sameStackFits prot0 none .w16 0x48 0x00009B020000FFFF = true := by
  refine ⟨⟨rfl, rfl, rfl⟩, rfl, rfl, rfl, rfl, by decide, rfl⟩

/-- D5 to D7, D9, D11, D12 (NonConformingCall): each check failing first. -/
theorem witness_code_checks : names prot0 0x18 0x00CFFB000000FFFF ∧
    descKind (descAr 0x00CFFB000000FFFF) = .nonConformingCode ∧ descDpl 0x00CFFB000000FFFF ≠ prot0.cpl ∧
    prot0.cpl.ult (selRpl 0xB) = true ∧
    names prot0 0x38 0x00CF1B000000FFFF ∧ descPresent 0x00CF1B000000FFFF = false ∧
    (descLimit 0x00009B020000FFFF).toNat < (cut .w32 0x10000).toNat ∧ prot0.room 4 2 = true ∧
    (withEsp (withSsLimit prot0 0xFFFF) 0x10002).room 4 2 = false := by
  refine ⟨⟨rfl, rfl, rfl⟩, rfl, by decide, rfl, ⟨rfl, rfl, rfl⟩, rfl, by decide, rfl, rfl⟩

/-- S-prot0 with a conforming code segment of DPL 3 at 0028 (ConformingCallChecks). -/
theorem witness_conforming_check : names (at_ prot0 0x8002D [0xFF]) 0x28 0x00CFFF000000FFFF ∧
    descKind (descAr 0x00CFFF000000FFFF) = .conformingCode ∧
    prot0.cpl.ult (descDpl 0x00CFFF000000FFFF) = true := by
  exact ⟨⟨rfl, rfl, rfl⟩, rfl, rfl⟩

/-- E3, E4 and gates that fail G3 to G8 (CallGateChecks). -/
theorem witness_gate_checks : names prot3 0x43 0x00008C0000085000 ∧
    descKind (descAr 0x00008C0000085000) = .callGate ∧ (descDpl 0x00008C0000085000).ult prot3.cpl = true ∧
    (descDpl 0x00008C0000085000).ult (selRpl 0x43) = true ∧
    (let s := at_ prot0 0x80045 [0x0C]
     names s 0x40 0x00000C0000085000 ∧ descPresent 0x00000C0000085000 = false) ∧
    (let s := at_ prot0 0x80042 [3]
     names s 0x40 0x00008C0000035000 ∧ selNull (gateSelector 0x00008C0000035000) = true) ∧
    (let s := at_ prot0 0x80042 [0x68]
     names s 0x40 0x00008C0000685000 ∧ selInTable s (gateSelector 0x00008C0000685000) = false) ∧
    (let s := at_ prot0 0x80042 [0x10]
     names s 0x40 0x00008C0000105000 ∧ names s 0x10 0x00CF93000000FFFF ∧
       arCode (descAr 0x00CF93000000FFFF) = false) ∧
    (let s := at_ prot0 0x80042 [0x38]
     names s 0x40 0x00008C0000385000 ∧ names s 0x38 0x00CF1B000000FFFF ∧
       arCode (descAr 0x00CF1B000000FFFF) = true ∧ descPresent 0x00CF1B000000FFFF = false) := by
  refine ⟨⟨rfl, rfl, rfl⟩, rfl, rfl, rfl, ⟨⟨rfl, rfl, rfl⟩, rfl⟩, ⟨⟨rfl, rfl, rfl⟩, rfl⟩, ⟨⟨rfl, rfl, rfl⟩, rfl⟩,
    ⟨⟨rfl, rfl, rfl⟩, ⟨rfl, rfl, rfl⟩, rfl⟩, ⟨⟨rfl, rfl, rfl⟩, ⟨rfl, rfl, rfl⟩, rfl, rfl⟩⟩

/-- E1 (SamePrivilegeGateCompletes, SamePrivilegeGateFrame). -/
theorem witness_same_gate : names prot0 0x40 0x00008C0000085000 ∧ gateOpen prot0 0x40 0x00008C0000085000 = true ∧
    gateSelector 0x00008C0000085000 = 8 ∧ names prot0 8 0x00CF9B000000FFFF ∧
    gateCodeOk prot0 0x00CF9B000000FFFF = true ∧ toMorePrivilege prot0 0x00CF9B000000FFFF = false ∧
    gateSize prot0 .w32 0x00008C0000085000 = .ok .w32 ∧
    (gateEntry .w32 0x00008C0000085000).toNat ≤ (descLimit 0x00CF9B000000FFFF).toNat ∧
    sameStackFits prot0 none .w32 8 0x00CF9B000000FFFF = true ∧
    (∃ t, exec (far32 0x40 0) prot0 = .next t) := by
  refine ⟨⟨rfl, rfl, rfl⟩, rfl, rfl, ⟨rfl, rfl, rfl⟩, rfl, rfl, rfl, by decide, rfl, _, rfl⟩

/-- E5, no room, and an entry point beyond the limit (SamePrivilegeGateChecks). -/
theorem witness_same_gate_checks : prot0.params.gateSize = .refuseMixed ∧ gateIs386 0x00008C0000085000 = true ∧
    (withEsp (withSsLimit prot0 0xFFFF) 0x10002).room 4 2 = false ∧
    (descLimit 0x00009B020000FFFF).toNat < (gateEntry .w32 0x00018C0000480000).toNat := by
  refine ⟨rfl, rfl, rfl, by decide⟩

/-- E2 (MorePrivilegeGateCompletes, MorePrivilegeGateFrame, and the gate of NewStackChecks). -/
theorem witness_more_gate : names prot3 0x33 0x0000EC0200083000 ∧ gateOpen prot3 0x33 0x0000EC0200083000 = true ∧
    names prot3 8 0x00CF9B000000FFFF ∧ gateCodeOk prot3 0x00CF9B000000FFFF = true ∧
    toMorePrivilege prot3 0x00CF9B000000FFFF = true ∧ tssStack prot3 0 = .ok (0x10, 0x9000) ∧
    names prot3 0x10 0x00CF93000000FFFF ∧ selRpl 0x10 = descDpl 0x00CF9B000000FFFF ∧
    stackDescOk 0x00CF9B000000FFFF 0x00CF93000000FFFF = true ∧
    newStackPointer prot3 0x9000 0x00CF93000000FFFF = .ok (prot3, 0x9000) ∧
    gateSize prot3 .w32 0x0000EC0200083000 = .ok .w32 ∧
    newStackRoom .w32 2 0x10 0x00CF93000000FFFF 0x9000 = true ∧
    (gateEntry .w32 0x0000EC0200083000).toNat ≤ (descLimit 0x00CF9B000000FFFF).toNat ∧
    readParams prot3 .w32 0 2 = .ok [0xAAAAAAAA, 0xBBBBBBBB] ∧
    newStackOverlapAllowed prot3 none .w32 2 0x00CF9B000000FFFF 0x00CF93000000FFFF 0x9000 = true := by
  refine ⟨⟨rfl, rfl, rfl⟩, rfl, ⟨rfl, rfl, rfl⟩, rfl, rfl, rfl, ⟨rfl, rfl, rfl⟩, rfl, rfl, rfl, rfl, rfl,
    by decide, rfl, rfl⟩

/-- The last hypothesis of MorePrivilegeGateCompletes, on E2. -/
theorem witness_more_fits :
    morePrivilegeFits prot3 4 6 0x10 0x00CF93000000FFFF 0x9000 8 0x00CF9B000000FFFF = true := rfl

/-- E6 to E8, a TSS one byte too short, and stack descriptors that fail M4 to M6 (NewStackChecks). -/
theorem witness_new_stack :
    (0x9 : Word).toNat ≤ 0x67 ∧ tssSsOffset .tss386 0 + 1 = 9 ∧ (8 : Word).toNat < tssSsOffset .tss386 0 + 1 ∧
    tssStack (at_ prot3 0xA0008 [0, 0]) 0 = .ok (0, 0x9000) ∧ selNull 0 = true ∧
    tssStack (at_ prot3 0xA0008 [0x23, 0]) 0 = .ok (0x23, 0x9000) ∧ selRpl 0x23 ≠ descDpl 0x00CF9B000000FFFF ∧
    descDpl 0x00CFF3000000FFFF ≠ descDpl 0x00CF9B000000FFFF ∧ arWritable (descAr 0x00CF91000000FFFF) = false ∧
    descPresent 0x00CF13000000FFFF = false ∧
    newStackRoom .w32 2 0x10 0x004093000000FFFF 0x10 = false ∧ newStackRoom .w32 2 0x10 0x004093000000FFFF 0x18 = true ∧
    (descLimit 0x00009B020000FFFF).toNat < (gateEntry .w32 0x0001EC0200483000).toNat := by
  refine ⟨by decide, rfl, by decide, rfl, rfl, rfl, by decide, by decide, rfl, rfl, rfl, rfl, by decide⟩

/-- The hypotheses of NewStackChecks on E2's gate, in S-prot3 or a variant of it. -/
def atMoreGate (s : State) (i : Instr) (next : Word) (sz : Size) (off : Word) (opnd : OperandRange) : Prop :=
  farInProt s i next sz 0x33 off opnd ∧ names s 0x33 0x0000EC0200083000 ∧
    gateOpen s 0x33 0x0000EC0200083000 = true ∧ names s 8 0x00CF9B000000FFFF ∧
    gateCodeOk s 0x00CF9B000000FFFF = true ∧ toMorePrivilege s 0x00CF9B000000FFFF = true

/-- The stack of E2: the TSS names it, its descriptor is good, its pointer is the TSS's. -/
def atNewStack (s : State) : Prop :=
  tssStack s 0 = .ok (0x10, 0x9000) ∧ names s 0x10 0x00CF93000000FFFF ∧
    stackDescOk 0x00CF9B000000FFFF 0x00CF93000000FFFF = true

/-- A TSS that does not translate, a stack descriptor that does not, a parameter that does not, and pushes that do
not (NewStackChecks). -/
theorem witness_new_stack_pages : let i := Instr.callPtr1632 bare 0x33 0
    (let s := paged prot3 [reads 0 0x80000 0x80067]
     atMoreGate s i 0x401007 .w32 0 none ∧ translates s .read 0 (s.tr.base + BitVec.ofNat 32 4) 4 = false) ∧
    (let s := paged prot3 [reads 0 0x80000 0x8000F, reads 0 0x80018 0x80067, reads 0 0xA0000 0xA0067]
     atMoreGate s i 0x401007 .w32 0 none ∧ tssStack s 0 = .ok (0x10, 0x9000) ∧ selInTable s 0x10 = true ∧
       translates s .read 0 (descAddr s 0x10) 8 = false) ∧
    (let s := paged prot3 [reads 0 0 0xFFFFFFFF, reads 3 0x12FF00 0x12FF06]
     atMoreGate s i 0x401007 .w32 0 none ∧ atNewStack s ∧ paramTranslates s .w32 0 = true ∧
       paramReadable s .w32 1 = true ∧ paramTranslates s .w32 1 = false) ∧
    (let s := paged prot3 [reads 0 0 0xFFFFFFFF, reads 3 0 0xFFFFFFFF]
     atMoreGate s i 0x401007 .w32 0 none ∧ atNewStack s ∧ readParams s .w32 0 2 = .ok [0xAAAAAAAA, 0xBBBBBBBB] ∧
       newStackOverlapAllowed s none .w32 2 0x00CF9B000000FFFF 0x00CF93000000FFFF 0x9000 = true ∧
       morePrivilegeFits s 4 6 0x10 0x00CF93000000FFFF 0x9000 8 0x00CF9B000000FFFF = false) := by
  exact ⟨⟨⟨⟨rfl, rfl, rfl⟩, ⟨rfl, rfl, rfl⟩, rfl, ⟨rfl, rfl, rfl⟩, rfl, rfl⟩, rfl⟩,
    ⟨⟨⟨rfl, rfl, rfl⟩, ⟨rfl, rfl, rfl⟩, rfl, ⟨rfl, rfl, rfl⟩, rfl, rfl⟩, rfl, rfl, rfl⟩,
    ⟨⟨⟨rfl, rfl, rfl⟩, ⟨rfl, rfl, rfl⟩, rfl, ⟨rfl, rfl, rfl⟩, rfl, rfl⟩, ⟨rfl, ⟨rfl, rfl, rfl⟩, rfl⟩, rfl, rfl, rfl⟩,
    ⟨⟨⟨rfl, rfl, rfl⟩, ⟨rfl, rfl, rfl⟩, rfl, ⟨rfl, rfl, rfl⟩, rfl, rfl⟩, ⟨rfl, ⟨rfl, rfl, rfl⟩, rfl⟩, rfl, rfl, rfl⟩⟩

/-- The second parameter one byte beyond the old stack, a 286 TSS with a 32-bit stack, a 16-bit call through a 386
gate, and a far pointer whose last byte the pushes would write (NewStackChecks). -/
theorem witness_new_stack_refusals : let i := Instr.callPtr1632 bare 0x33 0
    (let s := withSsLimit prot3 0x12FF06
     atMoreGate s i 0x401007 .w32 0 none ∧ atNewStack s ∧ paramReadable s .w32 0 = true ∧
       paramTranslates s .w32 0 = true ∧ paramReadable s .w32 1 = false) ∧
    (let s := at_ { prot3 with tr := ⟨0x60, 0xA0000, 0x67, .tss286⟩ } 0xA0002 [0, 0x90, 0x10, 0]
     atMoreGate s i 0x401007 .w32 0 none ∧ atNewStack s ∧ s.tr.kind = .tss286 ∧ descDb 0x00CF93000000FFFF = true ∧
       s.params.tss286Wide = .refuse) ∧
    (atMoreGate prot3 (.callPtr1616 ⟨true, false, none⟩ 0x33 0) 0x401006 .w16 0 none ∧ atNewStack prot3 ∧
      newStackPointer prot3 0x9000 0x00CF93000000FFFF = .ok (prot3, 0x9000) ∧
      prot3.params.gateSize = .refuseMixed ∧ gateIs386 0x0000EC0200083000 = true) ∧
    (let s := at_ prot3 0x8FE3 [0, 0, 0, 0, 0x33, 0]
     atMoreGate s (.callM1632 bare (.direct32 0x8FE3)) 0x401006 .w32 0 (some (0x8FE3, 6)) ∧ atNewStack s ∧
       newStackOverlapAllowed s (some (0x8FE3, 6)) .w32 2 0x00CF9B000000FFFF 0x00CF93000000FFFF 0x9000 = false) := by
  exact ⟨⟨⟨⟨rfl, rfl, rfl⟩, ⟨rfl, rfl, rfl⟩, rfl, ⟨rfl, rfl, rfl⟩, rfl, rfl⟩, ⟨rfl, ⟨rfl, rfl, rfl⟩, rfl⟩, rfl, rfl, rfl⟩,
    ⟨⟨⟨rfl, rfl, rfl⟩, ⟨rfl, rfl, rfl⟩, rfl, ⟨rfl, rfl, rfl⟩, rfl, rfl⟩, ⟨rfl, ⟨rfl, rfl, rfl⟩, rfl⟩, rfl, rfl, rfl⟩,
    ⟨⟨⟨rfl, rfl, rfl⟩, ⟨rfl, rfl, rfl⟩, rfl, ⟨rfl, rfl, rfl⟩, rfl, rfl⟩, ⟨rfl, ⟨rfl, rfl, rfl⟩, rfl⟩, rfl, rfl, rfl⟩,
    ⟨⟨⟨rfl, rfl, rfl⟩, ⟨rfl, rfl, rfl⟩, rfl, ⟨rfl, rfl, rfl⟩, rfl, rfl⟩, ⟨rfl, ⟨rfl, rfl, rfl⟩, rfl⟩, rfl⟩⟩

/-- The code segment of a gate, and the TSS of a task gate, whose descriptors do not translate (CallGateChecks,
TaskGateChecks). -/
theorem witness_gate_pages :
    (let s := paged prot0 [reads 0 0x80040 0x80047]
     farInProt s (.callPtr1632 bare 0x40 0) 0x1007 .w32 0x40 0 none ∧ names s 0x40 0x00008C0000085000 ∧
       selInTable s 8 = true ∧ translates s .read 0 (descAddr s 8) 8 = false) ∧
    (let s := paged prot0 [reads 0 0x80058 0x8005F]
     farInProt s (.callPtr1632 bare 0x58 0) 0x1007 .w32 0x58 0 none ∧ names s 0x58 0x0000850000500000 ∧
       selInGdt s 0x50 = true ∧ translates s .read 0 (descAddr s 0x50) 8 = false) := by
  exact ⟨⟨⟨rfl, rfl, rfl⟩, ⟨rfl, rfl, rfl⟩, rfl, rfl⟩, ⟨⟨rfl, rfl, rfl⟩, ⟨rfl, rfl, rfl⟩, rfl, rfl⟩⟩

/-- E2 changes CPL, from 3 to 0 (NoCallLosesPrivilege). -/
theorem witness_privilege : gateToMore prot3 0x33 0x0000EC0200083000 0x00CF9B000000FFFF ∧
    ∃ t, exec (far32 0x33 0) prot3 = .next t ∧ t.cpl = descDpl 0x00CF9B000000FFFF ∧ t.cpl ≠ prot3.cpl :=
  ⟨⟨⟨rfl, rfl, rfl⟩, rfl, rfl, ⟨rfl, rfl, rfl⟩, rfl, rfl⟩, _, rfl, rfl, by decide⟩

/-- E9 and E12, and gates that fail T3 to T7 (TaskGateChecks). -/
theorem witness_task_gate : names prot0 0x58 0x0000850000500000 ∧ descKind (descAr 0x0000850000500000) = .taskGate ∧
    (descDpl 0x0000850000500000).ult prot3.cpl = true ∧ prot0.cpl.ule (descDpl 0x0000850000500000) = true ∧
    (selRpl 0x58).ule (descDpl 0x0000850000500000) = true ∧ descPresent 0x0000850000500000 = true ∧
    descPresent 0x0000050000500000 = false ∧ selLocal (gateSelector 0x0000850000540000) = true ∧
    selInGdt prot0 (gateSelector 0x0000850000680000) = false ∧
    selNull (gateSelector 0x0000850000030000) = true ∧ names prot0 0x50 0x0000890900000067 ∧
    readDescriptor prot0 0x50 = .ok 0x0000890900000067 ∧ availableTss (descAr 0x0000890900000067) = true ∧
    readDescriptor prot0 0x60 = .ok 0x00008B0A00000067 ∧ availableTss (descAr 0x00008B0A00000067) = false ∧
    descPresent 0x0000090900000067 = false ∧ availableTss (descAr 0x0000090900000067) = true := by
  exact ⟨⟨rfl, rfl, rfl⟩, rfl, rfl, rfl, rfl, rfl, rfl, rfl, rfl, rfl, ⟨rfl, rfl, rfl⟩, rfl, rfl, rfl, rfl, rfl, rfl⟩

/-- S-prot0 with the GDT as its local table too. -/
def withLdt : State := { prot0 with ldtr := ⟨0x18, 0x80000, 0x67, true⟩ }

/-- E10, E11 and a TSS through the local table (TssChecks). -/
theorem witness_tss : names prot0 0x50 0x0000890900000067 ∧ descKind (descAr 0x0000890900000067) = .tss ∧
    names withLdt 0x54 0x0000890900000067 ∧ selLocal 0x54 = true ∧ selLocal 0x50 = false ∧
    farInProt withLdt (far32 0x54 0) 0x1007 .w32 0x54 0 none ∧
    names prot0 0x60 0x00008B0A00000067 ∧ descKind (descAr 0x00008B0A00000067) = .tss := by
  exact ⟨⟨rfl, rfl, rfl⟩, rfl, ⟨rfl, rfl, rfl⟩, rfl, rfl, ⟨rfl, rfl, rfl⟩, ⟨rfl, rfl, rfl⟩, rfl⟩

/-- States with each invariant, in each mode, that a step leaves for a next one (StepKeepsPrivilegeCoherent,
StepKeepsStorageCanonical, StepKeepsRealLimits). -/
theorem witness_invariants :
    privilegeCoherent prot3 ∧ privilegeCoherent v86 ∧ privilegeCoherent real ∧
    storageCanonical prot3 ∧ storageCanonical real ∧ realLimitsHold real ∧ realLimitsHold v86 ∧
    (∃ t, step (code v86 [0xE8, 0, 0]) = .next t) := by
  refine ⟨⟨rfl, rfl⟩, show v86.cpl = 3 from rfl, show real.cpl = 0 from rfl, ⟨rfl, rfl⟩, ⟨rfl, rfl⟩,
    fun _ => rfl, fun _ => rfl, _, rfl⟩

/-- Flags that differ in all but VM (CallReadsNoFlagButVm). -/
theorem witness_flags : (0xFFFDFFFF : Word).getLsbD 17 = prot0.eflags.getLsbD 17 := by decide

end Sys2Proof.Tests
end

section
/-! The decoder is the encoder read backwards: each reader answers exactly on the bytes the encoder writes for its
answer. `decode_eq_ok` says so of the whole; what decodes is well-formed, of its length, and read without the bytes
after it. -/

namespace Sys2Proof

/-! ## The readers of bytes -/

@[simp] theorem decoded_bind {α β : Type} {a : α} {f : α → Except DecodeStop β} : (Except.ok a >>= f) = f a := rfl

/-- A read and then the rest. -/
theorem read_bind_eq_ok {α β ρ : Type} {x : Except DecodeStop (α × ρ)}
    {f : α × ρ → Except DecodeStop β} {y : β} :
    (x >>= f) = .ok y ↔ ∃ a r, x = .ok (a, r) ∧ f (a, r) = .ok y := by
  cases x with
  | ok p => simp [bind, Except.bind, Prod.ext_iff]
  | error e => simp [bind, Except.bind]

theorem takeByte_eq_ok {bs r : List Byte} {b : Byte} : takeByte bs = .ok (b, r) ↔ bs = b :: r := by
  cases bs <;> simp [takeByte]

theorem bytesOfHalf_append (b1 b0 : Byte) : bytesOfHalf (b1 ++ b0) = [b0, b1] := by
  rw [bytesOfHalf, BitVec.extractLsb'_append_eq_left, BitVec.extractLsb'_append_eq_right]

theorem bytesOfWord_append (b3 b2 b1 b0 : Byte) : bytesOfWord (b3 ++ b2 ++ b1 ++ b0) = [b0, b1, b2, b3] := by
  simp only [bytesOfWord, List.cons.injEq, and_true]
  refine ⟨BitVec.extractLsb'_append_eq_right, ?_, ?_, ?_⟩
  · exact (BitVec.extractLsb'_append_eq_of_le (by decide)).trans BitVec.extractLsb'_append_eq_right
  · exact (BitVec.extractLsb'_append_eq_of_le (by decide)).trans <|
      (BitVec.extractLsb'_append_eq_of_le (by decide)).trans BitVec.extractLsb'_append_eq_right
  · exact (BitVec.extractLsb'_append_eq_of_le (by decide)).trans <|
      (BitVec.extractLsb'_append_eq_of_le (by decide)).trans <|
      (BitVec.extractLsb'_append_eq_of_le (by decide)).trans (BitVec.extractLsb'_eq_self ..)

theorem takeHalf_eq_ok {bs r : List Byte} {h : Half} : takeHalf bs = .ok (h, r) ↔ bs = bytesOfHalf h ++ r := by
  constructor
  · intro e
    rcases bs with _ | ⟨b0, _ | ⟨b1, bs⟩⟩ <;> cases e
    rw [bytesOfHalf_append]
    rfl
  · rintro rfl
    exact congrArg (fun v => Except.ok (v, r)) (Machine.bytesOfHalf_cat h)

theorem takeWord_eq_ok {bs r : List Byte} {w : Word} : takeWord bs = .ok (w, r) ↔ bs = bytesOfWord w ++ r := by
  constructor
  · intro e
    rcases bs with _ | ⟨b0, _ | ⟨b1, _ | ⟨b2, _ | ⟨b3, bs⟩⟩⟩⟩ <;> cases e
    rw [bytesOfWord_append]
    rfl
  · rintro rfl
    exact congrArg (fun v => Except.ok (v, r)) (Machine.bytesOfWord_cat w)

/-! ## Fields and register numbers -/

@[simp] theorem fieldsByte_hi (a : BitVec 2) (b c : BitVec 3) : (fieldsByte a b c).extractLsb' 6 2 = a :=
  BitVec.extractLsb'_append_eq_of_le (by decide) |>.trans BitVec.extractLsb'_append_eq_left

@[simp] theorem fieldsByte_mid (a : BitVec 2) (b c : BitVec 3) : (fieldsByte a b c).extractLsb' 3 3 = b :=
  BitVec.extractLsb'_append_eq_of_le (by decide) |>.trans BitVec.extractLsb'_append_eq_right

@[simp] theorem fieldsByte_lo (a : BitVec 2) (b c : BitVec 3) : (fieldsByte a b c).extractLsb' 0 3 = c :=
  BitVec.extractLsb'_append_eq_right

theorem fieldsByte_fields (m : Byte) :
    fieldsByte (m.extractLsb' 6 2) (m.extractLsb' 3 3) (m.extractLsb' 0 3) = m := by
  revert m
  decide

@[simp] theorem fieldsByte_inj {a a' : BitVec 2} {b b' c c' : BitVec 3} :
    fieldsByte a b c = fieldsByte a' b' c' ↔ a = a' ∧ b = b' ∧ c = c' := by
  constructor
  · intro h
    exact ⟨by simpa using congrArg (·.extractLsb' 6 2) h, by simpa using congrArg (·.extractLsb' 3 3) h,
      by simpa using congrArg (·.extractLsb' 0 3) h⟩
  · rintro ⟨rfl, rfl, rfl⟩
    rfl

theorem regOf_eq {n : BitVec 3} {r : Reg} : regOf n = r ↔ n = r.num := by
  revert n
  cases r <;> decide

@[simp] theorem regOf_num (r : Reg) : regOf r.num = r := regOf_eq.2 rfl

@[simp] theorem num_regOf (n : BitVec 3) : (regOf n).num = n := (regOf_eq.1 rfl).symm

theorem base16Of_eq {n : BitVec 3} {b : Base16} : base16Of n = b ↔ n = b.num := by
  revert n
  cases b <;> decide

theorem mod_cases {md : BitVec 2} (h : md ≠ 3) : md = 0 ∨ md = 1 ∨ md = 2 := by
  revert md
  decide

/-! ## Displacements -/

@[simp] theorem disp16_mod_ne (d : Disp16) : d.mod ≠ 3 := by cases d <;> simp [Disp16.mod]

@[simp] theorem disp32_mod_ne (d : Disp32) : d.mod ≠ 3 := by cases d <;> simp [Disp32.mod]

theorem takeDisp16_eq_ok {md : BitVec 2} {bs r : List Byte} {d : Disp16} (h : md ≠ 3) :
    takeDisp16 md bs = .ok (d, r) ↔ md = d.mod ∧ bs = d.encode ++ r := by
  rcases mod_cases h with rfl | rfl | rfl
  · cases d <;> simp [takeDisp16, Disp16.mod, Disp16.encode]
  · cases d <;> simp [takeDisp16, read_bind_eq_ok, takeByte_eq_ok, Disp16.mod, Disp16.encode]
  · cases d <;> simp [takeDisp16, read_bind_eq_ok, takeHalf_eq_ok, Disp16.mod, Disp16.encode]

theorem takeDisp32_eq_ok {md : BitVec 2} {bs r : List Byte} {d : Disp32} (h : md ≠ 3) :
    takeDisp32 md bs = .ok (d, r) ↔ md = d.mod ∧ bs = d.encode ++ r := by
  rcases mod_cases h with rfl | rfl | rfl
  · cases d <;> simp [takeDisp32, Disp32.mod, Disp32.encode]
  · cases d <;> simp [takeDisp32, read_bind_eq_ok, takeByte_eq_ok, Disp32.mod, Disp32.encode]
  · cases d <;> simp [takeDisp32, read_bind_eq_ok, takeWord_eq_ok, Disp32.mod, Disp32.encode]

/-! ## Which memory operands have an encoding -/

/-- `m` has an encoding and is of address size `asz` (R6, R86, R87). -/
def Mem.Fits (m : Mem) (asz : Size) : Prop := m.wellFormed = true ∧ m.addrSize = asz

@[simp] theorem fits_direct16 {asz : Size} {d : Half} : (Mem.direct16 d).Fits asz ↔ asz = .w16 := by
  simp [Mem.Fits, Mem.wellFormed, Mem.addrSize, eq_comm (b := asz)]

/-- A 16-bit register sum has an encoding when its fields are not those of `direct16` (R86). -/
@[simp] theorem fits_based16 {asz : Size} {b : Base16} {d : Disp16} :
    (Mem.based16 b d).Fits asz ↔ asz = .w16 ∧ ¬ (d.mod = 0 ∧ b.num = 6) := by
  cases b <;> cases d <;> simp [Mem.Fits, Mem.wellFormed, Mem.addrSize, eq_comm (b := asz), Disp16.mod, Base16.num]

@[simp] theorem fits_direct32 {asz : Size} {d : Word} : (Mem.direct32 d).Fits asz ↔ asz = .w32 := by
  simp [Mem.Fits, Mem.wellFormed, Mem.addrSize, eq_comm (b := asz)]

/-- A 32-bit base has an encoding when its fields name neither a SIB byte nor `direct32` (R87). -/
@[simp] theorem fits_based32 {asz : Size} {r : Reg} {d : Disp32} :
    (Mem.based32 r d).Fits asz ↔ asz = .w32 ∧ r.num ≠ 4 ∧ ¬ (d.mod = 0 ∧ r.num = 5) := by
  cases r <;> cases d <;> simp [Mem.Fits, Mem.wellFormed, Mem.addrSize, eq_comm (b := asz), Disp32.mod, Reg.num]

/-- An index and a scale a SIB byte can name (R87). -/
def indexFits (scale : BitVec 2) (index : Option Reg) : Prop :=
  index ≠ some .esp ∧ ¬ (indexField index = 4 ∧ scale ≠ 0)

theorem indexFits_iff {scale : BitVec 2} {index : Option Reg} :
    indexFits scale index ↔ (!(index == some .esp) && (index.isSome || scale == 0)) = true := by
  rcases index with _ | r
  · simp [indexFits, indexField]
  · cases r <;> simp [indexFits, indexField, Reg.num]

@[simp] theorem fits_sib {asz : Size} {scale : BitVec 2} {index : Option Reg} {base : Reg} {d : Disp32} :
    (Mem.sib scale index base d).Fits asz ↔ asz = .w32 ∧ indexFits scale index ∧ ¬ (d.mod = 0 ∧ base.num = 5) := by
  rw [indexFits_iff]
  cases base <;> cases d <;>
    simp [Mem.Fits, Mem.wellFormed, Mem.addrSize, eq_comm (b := asz), Disp32.mod, Reg.num, and_comm]

@[simp] theorem fits_sibNoBase {asz : Size} {scale : BitVec 2} {index : Option Reg} {d : Word} :
    (Mem.sibNoBase scale index d).Fits asz ↔ asz = .w32 ∧ indexFits scale index := by
  rw [indexFits_iff]
  simp [Mem.Fits, Mem.wellFormed, Mem.addrSize, eq_comm (b := asz), and_comm]

/-- The index that the index field of a SIB byte names: the number of ESP stands for none (R87). -/
theorem indexOf_eq {ix : BitVec 3} {index : Option Reg} :
    (if ix = 4 then none else some (regOf ix)) = index ↔ ix = indexField index ∧ index ≠ some .esp := by
  rcases index with _ | r
  · simp [indexField]
  · revert ix
    cases r <;> decide

/-! ## Memory operands -/

/-- `takeMem16` answers with the 16-bit forms of R86, on their encodings. -/
theorem takeMem16_eq_ok {md : BitVec 2} {rm digit : BitVec 3} {bs r : List Byte} {m : Mem} (h : md ≠ 3) :
    takeMem16 md rm bs = .ok (m, r) ↔ m.Fits .w16 ∧ fieldsByte md digit rm :: bs = m.encode digit ++ r := by
  unfold takeMem16
  split -- on the fields of `direct16`
  case isTrue hd =>
    obtain ⟨rfl, rfl⟩ := hd
    simp only [read_bind_eq_ok, takeHalf_eq_ok, Except.ok.injEq, Prod.mk.injEq]
    cases m with
    | based16 b d => simp [Mem.encode]; grind
    | _ => simp [Mem.encode]
  case isFalse hd =>
    simp only [read_bind_eq_ok, takeDisp16_eq_ok h, Except.ok.injEq, Prod.mk.injEq]
    cases m with
    | direct16 d => simp [Mem.encode]; grind
    | based16 b d => simp [Mem.encode, base16Of_eq]; grind
    | _ => simp [Mem.encode]

/-- `takeSib` answers with the forms of R87 that have a SIB byte, on their encodings. -/
theorem takeSib_eq_ok {md : BitVec 2} {digit : BitVec 3} {b : Byte} {bs r : List Byte} {m : Mem} (h : md ≠ 3) :
    takeSib md b bs = .ok (m, r) ↔ m.Fits .w32 ∧ fieldsByte md digit 4 :: b :: bs = m.encode digit ++ r := by
  rw [← fieldsByte_fields b]
  generalize b.extractLsb' 6 2 = scale, b.extractLsb' 3 3 = ix, b.extractLsb' 0 3 = base
  simp only [takeSib, fieldsByte_hi, fieldsByte_mid, fieldsByte_lo]
  split -- on the encoding R87 leaves undefined
  case isTrue hs =>
    cases m with
    | based32 | sib | sibNoBase => simp [Mem.encode, indexFits]; grind
    | _ => simp [Mem.encode]
  case isFalse hs =>
    split -- on the fields of `sibNoBase`
    case isTrue hd =>
      obtain ⟨rfl, rfl⟩ := hd
      simp only [read_bind_eq_ok, takeWord_eq_ok, Except.ok.injEq, Prod.mk.injEq]
      cases m with
      | sibNoBase => simp only [Mem.sibNoBase.injEq, indexOf_eq]; simp [Mem.encode, indexFits]; grind
      | based32 | sib => simp [Mem.encode]; grind
      | _ => simp [Mem.encode]
    case isFalse hd =>
      simp only [read_bind_eq_ok, takeDisp32_eq_ok h, Except.ok.injEq, Prod.mk.injEq]
      cases m with
      | sib => simp only [Mem.sib.injEq, indexOf_eq, regOf_eq]; simp [Mem.encode, indexFits]; grind
      | based32 | sibNoBase => simp [Mem.encode]; grind
      | _ => simp [Mem.encode]

/-- `takeMem32` answers with the forms of R87, on their encodings. -/
theorem takeMem32_eq_ok {md : BitVec 2} {rm digit : BitVec 3} {bs r : List Byte} {m : Mem} (h : md ≠ 3) :
    takeMem32 md rm bs = .ok (m, r) ↔ m.Fits .w32 ∧ fieldsByte md digit rm :: bs = m.encode digit ++ r := by
  unfold takeMem32
  split -- on the `rm` of a SIB byte
  case isTrue hd =>
    subst hd
    simp only [read_bind_eq_ok, takeByte_eq_ok, takeSib_eq_ok (digit := digit) h]
    cases bs with
    | nil => cases m <;> simp [Mem.encode]; grind
    | cons b bs => simp
  case isFalse h4 =>
    split -- on the fields of `direct32`
    case isTrue hd =>
      obtain ⟨rfl, rfl⟩ := hd
      simp only [read_bind_eq_ok, takeWord_eq_ok, Except.ok.injEq, Prod.mk.injEq]
      cases m with
      | based32 => simp [Mem.encode]; grind
      | _ => simp [Mem.encode]
    case isFalse hd =>
      simp only [read_bind_eq_ok, takeDisp32_eq_ok h, Except.ok.injEq, Prod.mk.injEq]
      cases m with
      | based32 => simp [Mem.encode, regOf_eq]; grind
      | direct32 | sib | sibNoBase => simp [Mem.encode]; grind
      | _ => simp [Mem.encode]

theorem takeMem_eq_ok {asz : Size} {md : BitVec 2} {rm digit : BitVec 3} {bs r : List Byte} {m : Mem} (h : md ≠ 3) :
    takeMem asz md rm bs = .ok (m, r) ↔ m.Fits asz ∧ fieldsByte md digit rm :: bs = m.encode digit ++ r := by
  cases asz with
  | w16 => exact takeMem16_eq_ok h
  | w32 => exact takeMem32_eq_ok h

/-- The encoding of a memory operand begins with a ModR/M byte that holds the digit and a `mod` other than 3. -/
theorem encode_mem_head (digit : BitVec 3) (m : Mem) :
    ∃ md rm t, md ≠ 3 ∧ m.encode digit = fieldsByte md digit rm :: t := by
  cases m with
  | based16 b d => exact ⟨_, _, _, disp16_mod_ne d, rfl⟩
  | based32 b d | sib sc ix b d => exact ⟨_, _, _, disp32_mod_ne d, rfl⟩
  | _ => exact ⟨_, _, _, by decide, rfl⟩

/-! ## Instructions -/

/-- `i` carries the bytes `p` before its opcode, its row is of operand size `osz`, and its memory operand has an
encoding of address size `asz`. -/
structure Instr.Reads (i : Instr) (p : Prefixes) (osz asz : Size) : Prop where
  prefixes : i.prefixes = p
  opSize : i.opSize = osz
  operand : ∀ m, i.memOperand = some m → m.Fits asz

theorem reads_iff {i : Instr} {p : Prefixes} {osz asz : Size} : i.Reads p osz asz ↔
    i.prefixes = p ∧ i.opSize = osz ∧ ∀ m, i.memOperand = some m → m.Fits asz :=
  ⟨fun ⟨hp, ho, hm⟩ => ⟨hp, ho, hm⟩, fun ⟨hp, ho, hm⟩ => ⟨hp, ho, hm⟩⟩

/-- `takeIndirect` reads back a memory operand of either digit. -/
theorem takeIndirect_mem {p : Prefixes} {osz asz : Size} {m : Mem} {digit : BitVec 3} {r : List Byte}
    (hf : m.Fits asz) (hd : digit = 2 ∨ digit = 3) : takeIndirect p osz asz (m.encode digit ++ r) = .ok
      (match osz with
      | .w16 => if digit = 2 then .callRm16 p (.mem m) else .callM1616 p m
      | .w32 => if digit = 2 then .callRm32 p (.mem m) else .callM1632 p m, r) := by
  obtain ⟨md, rm, t, hmd, he⟩ := encode_mem_head digit m
  have ht : takeMem asz md rm (t ++ r) = .ok (m, r) := (takeMem_eq_ok hmd).2 ⟨hf, by rw [he]; rfl⟩
  rw [he]
  have hmd' : md ≠ 3#2 := hmd
  rcases hd with rfl | rfl <;> cases osz <;> simp [takeIndirect, takeByte, hmd', ht]

/-- `takeIndirect` answers with the indirect calls of its sizes, on their encodings (R85, R89, R90). -/
theorem takeIndirect_eq_ok {p : Prefixes} {osz asz : Size} {bs r : List Byte} {i : Instr} :
    takeIndirect p osz asz bs = .ok (i, r) ↔ i.Reads p osz asz ∧ 0xFF :: bs = i.encodeBody ++ r := by
  constructor
  · intro h
    simp only [takeIndirect, read_bind_eq_ok, takeByte_eq_ok] at h
    obtain ⟨b, bs', rfl, h⟩ := h
    rw [← fieldsByte_fields b]
    generalize b.extractLsb' 6 2 = md, b.extractLsb' 3 3 = reg, b.extractLsb' 0 3 = rm at h ⊢
    split at h
    case isTrue h2 =>
      subst h2
      split at h
      case isTrue h3 =>
        subst h3
        cases osz <;> cases h <;>
          exact ⟨⟨rfl, rfl, by simp [Instr.memOperand]⟩, by simp [Instr.encodeBody, Rm.encode]⟩
      case isFalse hmd =>
        obtain ⟨m, r', hm, h⟩ := read_bind_eq_ok.1 h
        obtain ⟨hf, he⟩ := (takeMem_eq_ok (digit := 2) hmd).1 hm
        cases osz <;> cases h <;> exact ⟨⟨rfl, rfl, fun _ e => Option.some.inj e ▸ hf⟩, congrArg _ he⟩
    case isFalse =>
      split at h
      case isFalse => cases h
      case isTrue h3 =>
        subst h3
        split at h
        case isTrue => cases h
        case isFalse hmd =>
          obtain ⟨m, r', hm, h⟩ := read_bind_eq_ok.1 h
          obtain ⟨hf, he⟩ := (takeMem_eq_ok (digit := 3) hmd).1 hm
          cases osz <;> cases h <;> exact ⟨⟨rfl, rfl, fun _ e => Option.some.inj e ▸ hf⟩, congrArg _ he⟩
  · rintro ⟨⟨rfl, rfl, hf⟩, h⟩
    cases i with
    | callRel16 | callRel32 | callPtr1616 | callPtr1632 => simp [Instr.encodeBody] at h
    | callM1616 p m | callM1632 p m =>
      obtain rfl : bs = m.encode 3 ++ r := List.tail_eq_of_cons_eq h
      exact takeIndirect_mem (hf m rfl) (.inr rfl)
    | callRm16 p o | callRm32 p o =>
      obtain rfl : bs = o.encode ++ r := List.tail_eq_of_cons_eq h
      cases o with
      | reg g => simp [takeIndirect, takeByte, Rm.encode, Instr.opSize, Instr.prefixes]
      | mem m => exact takeIndirect_mem (hf m rfl) (.inl rfl)

theorem opcode_of_encodeBody {i : Instr} {op : Byte} {bs r : List Byte} (h : op :: bs = i.encodeBody ++ r) :
    op = 0xE8 ∨ op = 0x9A ∨ op = 0xFF := by
  cases i <;> simp_all [Instr.encodeBody]

/-- `takeBody` answers with the instructions of its sizes, on their encodings (R81 to R87). -/
theorem takeBody_eq_ok {p : Prefixes} {osz asz : Size} {op : Byte} {bs r : List Byte} {i : Instr} :
    takeBody p osz asz op bs = .ok (i, r) ↔ i.Reads p osz asz ∧ op :: bs = i.encodeBody ++ r := by
  unfold takeBody
  split
  case isTrue h =>
    subst h
    cases osz <;> simp only [read_bind_eq_ok, takeHalf_eq_ok, takeWord_eq_ok] <;> cases i with
    | callRel16 | callRel32 =>
      simp [reads_iff, Instr.encodeBody, Instr.opSize, Instr.prefixes, Instr.memOperand,
        eq_comm (a := p), and_comm]
    | _ => simp [Instr.encodeBody]
  case isFalse hE8 =>
    split
    case isTrue h =>
      subst h
      cases osz <;> simp only [read_bind_eq_ok, takeHalf_eq_ok, takeWord_eq_ok] <;> cases i with
      | callPtr1616 | callPtr1632 =>
        simp [reads_iff, Instr.encodeBody, Instr.opSize, Instr.prefixes, Instr.memOperand,
          eq_comm (a := p), and_comm]
      | _ => simp [Instr.encodeBody]
    case isFalse h9A =>
      split
      case isTrue h =>
        subst h
        exact takeIndirect_eq_ok
      case isFalse hFF =>
        simp only [reduceCtorEq, false_iff, not_and]
        intro _ he
        rcases opcode_of_encodeBody he with h | h | h <;> contradiction

theorem wellFormed_iff {i : Instr} : i.wellFormed = true ↔ ∀ m, i.memOperand = some m → m.Fits i.addrSize := by
  unfold Instr.wellFormed
  cases i.memOperand <;> simp [Mem.Fits]

theorem eq_selectSize {d e : Size} {b : Bool} : d = selectSize e b ↔ selectSize d b = e := by
  cases b <;> cases d <;> cases e <;> decide

/-- What is read under the sizes that the bytes before the opcode select from `d` is well-formed and of default size
`d` (R5, R6). -/
theorem reads_selectSize {i : Instr} {p : Prefixes} {d : Size} :
    i.Reads p (selectSize d p.opSize) (selectSize d p.addrSize) ↔
      i.prefixes = p ∧ i.defaultSize = d ∧ i.wellFormed = true := by
  constructor
  · rintro ⟨rfl, ho, hm⟩
    obtain rfl : i.defaultSize = d := eq_selectSize.1 ho
    exact ⟨rfl, rfl, wellFormed_iff.2 hm⟩
  · rintro ⟨rfl, rfl, hw⟩
    exact ⟨rfl, eq_selectSize.2 rfl, wellFormed_iff.1 hw⟩

/-! ## The bytes before the opcode -/

/-- The number of bytes a scan has read. -/
def Scan.count (sc : Scan) : Nat := sc.pfx.length + sc.lock.toNat + sc.rep.toNat

theorem count_add {sc sc' : Scan} {p : PrefixByte} (h : sc.add p = .ok sc') : sc'.count = sc.count + 1 := by
  obtain ⟨⟨o, a, g⟩, l, r⟩ := sc
  cases p <;>
    · simp only [Scan.add] at h
      split at h <;> cases h
      simp_all +arith [Scan.count, Prefixes.length]

theorem length_scanBytes {sc sc' : Scan} {bs r : List Byte} {op : Byte} (h : scanBytes sc bs = .ok (sc', op, r)) :
    bs.length + sc.count = sc'.count + 1 + r.length := by
  fun_induction scanBytes sc bs with
  | case1 => cases h
  | case2 => cases h; simp; omega
  | case3 => cases h
  | case4 sc b bs p hp sc1 ha ih =>
    have := count_add ha
    have := ih h
    rw [List.length_cons]
    omega

theorem scanBytes_append {sc sc' : Scan} {bs r : List Byte} {op : Byte} (more : List Byte)
    (h : scanBytes sc bs = .ok (sc', op, r)) : scanBytes sc (bs ++ more) = .ok (sc', op, r ++ more) := by
  fun_induction scanBytes sc bs with
  | case1 => cases h
  | case2 sc b bs hp => cases h; simp [scanBytes, hp]
  | case3 => cases h
  | case4 sc b bs p hp sc1 ha ih => simp [scanBytes, hp, ha, ih h]

/-! ## Decode -/

/-- The decoder answers with the well-formed instructions of the segment's size: on bytes that scan to what the
instruction carries before its opcode, then the encoding from the opcode on (R80 to R92). -/
theorem decode_eq_ok {d : Size} {bs r : List Byte} {i : Instr} : decode d bs = .ok (i, r) ↔
    i.wellFormed = true ∧ i.defaultSize = d ∧ ∃ op body,
      scanBytes Scan.start bs = .ok (⟨i.prefixes, false, false⟩, op, body) ∧ op :: body = i.encodeBody ++ r := by
  constructor
  · intro h
    simp only [decode, read_bind_eq_ok, Prod.exists] at h
    obtain ⟨⟨p, lock, rep⟩, op, body, hs, i', r', hb, h⟩ := h
    cases rep <;> cases lock <;> simp at h
    obtain ⟨rfl, rfl⟩ := h
    obtain ⟨hr, he⟩ := takeBody_eq_ok.1 hb
    obtain ⟨rfl, hd, hw⟩ := reads_selectSize.1 hr
    exact ⟨hw, hd, op, body, hs, he⟩
  · rintro ⟨hw, hd, op, body, hs, he⟩
    have hb := takeBody_eq_ok.2 ⟨reads_selectSize.2 ⟨rfl, hd, hw⟩, he⟩
    simp [decode, hs, hb]

theorem length_encode (i : Instr) : (encode i).length = instrLength i := by
  cases i with
  | callRel16 p rel => exact (Laws.LengthLaw.callRel16 p rel).1
  | callRm16 p o => exact (Laws.LengthLaw.callRm16 p o).1
  | callPtr1616 p sel off => exact (Laws.LengthLaw.callPtr1616 p sel off).1
  | callM1616 p m => exact (Laws.LengthLaw.callM1616 p m).1
  | callRel32 p rel => exact (Laws.LengthLaw.callRel32 p rel).1
  | callRm32 p o => exact (Laws.LengthLaw.callRm32 p o).1
  | callPtr1632 p sel off => exact (Laws.LengthLaw.callPtr1632 p sel off).1
  | callM1632 p m => exact (Laws.LengthLaw.callM1632 p m).1

/-- The bytes consumed number the instruction's length (R91). -/
theorem length_of_decode {d : Size} {bs r : List Byte} {i : Instr} (h : decode d bs = .ok (i, r)) :
    bs.length = instrLength i + r.length := by
  obtain ⟨-, -, op, body, hs, he⟩ := decode_eq_ok.1 h
  have h1 := length_scanBytes hs
  have h2 := congrArg List.length he
  have h3 := length_encode i
  simp only [encode, List.length_append, List.length_cons, length_encode_prefixes] at h2 h3
  have h4 : Scan.start.count = 0 := rfl
  have h5 : (Scan.mk i.prefixes false false).count = i.prefixes.length := rfl
  omega

/-- The bytes after an instruction do not change what it is (R80). -/
theorem decode_append {d : Size} {bs r : List Byte} {i : Instr} (more : List Byte) (h : decode d bs = .ok (i, r)) :
    decode d (bs ++ more) = .ok (i, r ++ more) := by
  obtain ⟨hw, hd, op, body, hs, he⟩ := decode_eq_ok.1 h
  refine decode_eq_ok.2 ⟨hw, hd, op, body ++ more, scanBytes_append more hs, ?_⟩
  rw [← List.append_assoc, ← he]
  rfl

end Sys2Proof
end

section
/-! The launch check, the fetch and the step (R7, R16, R54, R57, R63, R80, R94), and what settles their statements. -/

namespace Sys2Proof.Machine

/-! ## The mode and the default size -/

theorem mode_real_iff {s : State} : s.mode = .real ↔ s.pe = false := by
  unfold State.mode
  cases s.pe <;> cases s.vm <;> simp

theorem mode_v86_iff {s : State} : s.mode = .v86 ↔ s.pe = true ∧ s.vm = true := by
  unfold State.mode
  cases s.pe <;> cases s.vm <;> simp

theorem mode_prot_iff {s : State} : s.mode = .prot ↔ s.pe = true ∧ s.vm = false := by
  unfold State.mode
  cases s.pe <;> cases s.vm <;> simp

theorem codeSize_eq (s : State) :
    s.codeSize = if s.mode = .prot ∧ s.segs.cs.db = true then .w32 else .w16 := by
  unfold State.codeSize
  cases s.mode <;> simp

/-! ## The launch check -/

theorem realLimits_iff {g : Segs} : realLimits g = true ↔ ∀ n : SegName, (g.get n).limit = 0xFFFF := by
  simp only [realLimits, Bool.and_eq_true, beq_iff_eq]
  constructor
  · rintro ⟨⟨⟨⟨⟨hes, hcs⟩, hss⟩, hds⟩, hfs⟩, hgs⟩ n
    cases n <;> assumption
  · intro h
    exact ⟨⟨⟨⟨⟨h .es, h .cs⟩, h .ss⟩, h .ds⟩, h .fs⟩, h .gs⟩

theorem launchCheck_eq_ok {s : State} :
    launchCheck s = .ok () ↔ s.pe = true ∨ (s.vm = false ∧ realLimits s.segs = true) := by
  unfold launchCheck
  split
  · simp [*]
  split
  · simp [*, refuse]
  split <;> simp [*, refuse]

theorem launchCheck_of_vm {s : State} (hp : s.pe = false) (hv : s.vm = true) :
    launchCheck s = .error (.refuse .realModeWithVm) := by
  simp [launchCheck, hp, hv, refuse]

theorem launchCheck_of_limits {s : State} (hp : s.pe = false) (hv : s.vm = false)
    (hr : realLimits s.segs = false) : launchCheck s = .error (.refuse .realModeLimit) := by
  simp [launchCheck, hp, hv, hr, refuse]

theorem step_of_launchCheck_error {s : State} {e : Stop} (h : launchCheck s = .error e) :
    step s = toOutcome (.error e) := by
  simp only [step, h]

/-! ## The fetch -/

theorem fetchInLimit_iff {s : State} {k : Nat} : fetchInLimit s k = true ↔
    s.eip.toNat + k ≤ if s.mode = .prot then s.segs.cs.limit.toNat else 0xFFFF := by
  unfold fetchInLimit
  cases s.mode <;> simp

theorem fetchByte_eq_ok {s : State} {k : Nat} {b : Byte} : fetchByte s k = .ok b ↔
    fetchInLimit s k = true ∧ ∃ p, translate s (linear s.segs.cs s.eip + BitVec.ofNat 32 k) .read s.cpl = .ok p ∧
      (s.params.pushedCode = .refuse → p.toNat ∉ s.written) ∧ b = memRead s.mem p.toNat := by
  unfold fetchByte
  rw [require_bind_eq_ok, bind_eq_ok]
  refine and_congr_right fun _ => exists_congr fun p => and_congr_right fun _ => ?_
  cases s.params.pushedCode with
  | seen => simp [eq_comm]
  | refuse =>
    by_cases hw : p.toNat ∈ s.written <;> simp [hw, refuse, eq_comm]

/-- The window of instruction bytes begins with any bytes that can be fetched (R80). -/
theorem fetchWindow_begins {s : State} (bs : List Byte) : ∀ (n k : Nat), bs.length ≤ n →
    (∀ j b, bs[j]? = some b → fetchByte s (k + j) = .ok b) → ∃ more, (fetchWindow s n k).1 = bs ++ more := by
  induction bs with
  | nil => exact fun n k _ _ => ⟨_, rfl⟩
  | cons b bs ih =>
    intro n k hn hb
    obtain ⟨n, rfl⟩ : ∃ n', n = n' + 1 := ⟨n - 1, by rw [List.length_cons] at hn; omega⟩
    have h0 : fetchByte s k = .ok b := hb 0 b rfl
    obtain ⟨more, hm⟩ := ih n (k + 1) (by simpa using hn)
      (fun j c hc => by rw [Nat.add_right_comm]; exact hb (j + 1) c (by simpa using hc))
    exact ⟨more, by simp only [fetchWindow, h0, hm, List.cons_append]⟩

/-- The instruction fetched is the one that the first bytes decode to (R16, R80). -/
theorem fetchInstr_of_decode {s : State} {bs rest : List Byte} {i : Instr} (hf : fetchable s bs)
    (hn : bs.length ≤ 15) (hd : decode s.codeSize bs = .ok (i, rest)) : fetchInstr s = .ok i := by
  obtain ⟨more, hm⟩ := fetchWindow_begins bs 15 0 hn (fun j b h => by rw [Nat.zero_add]; exact hf j b h)
  simp only [fetchInstr, hm, decode_append more hd]

theorem step_of_fetchInstr {s : State} {i : Instr} (hl : launchCheck s = .ok ()) (hi : fetchInstr s = .ok i) :
    step s = exec i s := by
  simp only [step, hl, hi]

/-! ## The obligations -/

/-- Settles O3: the window begins with the bytes given, and the decoder does not read past an instruction. -/
theorem stepRunsTheDecodedInstruction : Obligations.StepRunsTheDecodedInstruction :=
  ⟨fun _ _ _ hl hf hn hd => step_of_fetchInstr hl (fetchInstr_of_decode hf hn hd),
    fun _ _ _ => ⟨fetchInLimit_iff, fetchByte_eq_ok⟩,
    fun s => ⟨mode_real_iff, mode_v86_iff, mode_prot_iff, codeSize_eq s⟩⟩

/-- Settles O10, from the characterisation of the decoder by the encoder (`decode_eq_ok`). -/
theorem decodedInstructionsAreWellFormed : Obligations.DecodedInstructionsAreWellFormed := by
  intro d bs rest i h
  obtain ⟨hw, hd, -⟩ := decode_eq_ok.1 h
  exact ⟨hw, hd, length_of_decode h⟩

/-- Settles O6, from what the launch check answers in each case. -/
theorem refusedLaunchStatesDoNotStep : Obligations.RefusedLaunchStatesDoNotStep := by
  intro s
  refine ⟨fun hp => ⟨fun hv => ?_, fun hv hr => ?_⟩, realLimits_iff, ?_⟩
  · rw [step_of_launchCheck_error (launchCheck_of_vm hp hv), toOutcome]
  · rw [step_of_launchCheck_error (launchCheck_of_limits hp hv hr), toOutcome]
  · rw [launchCheck_eq_ok, realLimits_iff]
    rfl

end Sys2Proof.Machine
end

section
/-! What every CALL leaves alone: the system registers, the data segments and every general register but ESP (R39,
R27, R214); and from that, that a step keeps CPL in agreement with CS and SS (R25). -/

namespace Sys2Proof.Machine

/-! ## A frame that each update keeps and that composes -/

/-- What every CALL leaves alone, from `s` to `t`. -/
structure KeepsSystem (s t : State) : Prop where
  system : sameSystem s t
  regs : sameRegsButEsp s t
  dataSegs : sameDataSegs s t

namespace KeepsSystem

variable {s t u : State}

theorem refl (s : State) : KeepsSystem s s :=
  ⟨⟨rfl, rfl, rfl, rfl, rfl, rfl, rfl, rfl, rfl, rfl⟩, fun _ _ => rfl, ⟨rfl, rfl, rfl, rfl⟩⟩

/-- The frame composes. -/
theorem trans (h : KeepsSystem s t) (k : KeepsSystem t u) : KeepsSystem s u := by
  obtain ⟨⟨a1, a2, a3, a4, a5, a6, a7, a8, a9, a10⟩, hr, b1, b2, b3, b4⟩ := h
  obtain ⟨⟨c1, c2, c3, c4, c5, c6, c7, c8, c9, c10⟩, kr, d1, d2, d3, d4⟩ := k
  exact ⟨⟨c1.trans a1, c2.trans a2, c3.trans a3, c4.trans a4, c5.trans a5, c6.trans a6, c7.trans a7, c8.trans a8,
    c9.trans a9, c10.trans a10⟩, fun r h => (kr r h).trans (hr r h),
    ⟨d1.trans b1, d2.trans b2, d3.trans b3, d4.trans b4⟩⟩

theorem eflags (h : KeepsSystem s t) : t.eflags = s.eflags := h.system.1

theorem mode (h : KeepsSystem s t) : t.mode = s.mode := by
  obtain ⟨hf, h0, -⟩ := h.system
  exact mode_congr h0 hf

end KeepsSystem

/-- A state that differs from `s` in what a CALL may write, with ESP its only other general register, keeps the
rest. -/
theorem keepsSystem_update (s : State) (eip : Word) (regs : Regs) (cs ss : Seg) (cpl : BitVec 2) (mem : Memory)
    (written : List Nat) (draws : Nat) (hr : ∀ r, r ≠ .esp → regs.get r = s.regs.get r) :
    KeepsSystem s { s with
      eip := eip, regs := regs, segs := { s.segs with cs := cs, ss := ss }, cpl := cpl, mem := mem,
      written := written, draws := draws } :=
  ⟨⟨rfl, rfl, rfl, rfl, rfl, rfl, rfl, rfl, rfl, rfl⟩, hr, ⟨rfl, rfl, rfl, rfl⟩⟩

theorem keepsSystem_withEip (s : State) (v : Word) : KeepsSystem s (s.withEip v) :=
  keepsSystem_update s _ _ _ _ _ _ _ _ fun _ _ => rfl

theorem keepsSystem_withCpl (s : State) (v : BitVec 2) : KeepsSystem s (s.withCpl v) :=
  keepsSystem_update s _ _ _ _ _ _ _ _ fun _ _ => rfl

theorem keepsSystem_withDraws (s : State) (n : Nat) : KeepsSystem s (s.withDraws n) :=
  keepsSystem_update s _ _ _ _ _ _ _ _ fun _ _ => rfl

theorem keepsSystem_loadCsReal (s : State) (sel : Half) : KeepsSystem s (loadCsReal s sel) :=
  keepsSystem_update s _ _ _ _ _ _ _ _ fun _ _ => rfl

theorem keepsSystem_loadCs (s : State) (sel : Half) (d : Desc) (cpl : BitVec 2) : KeepsSystem s (loadCs s sel d cpl) :=
  keepsSystem_update s _ _ _ _ _ _ _ _ fun _ _ => rfl

theorem keepsSystem_loadSs (s : State) (sel : Half) (d : Desc) (sp : Word) : KeepsSystem s (loadSs s sel d sp) :=
  keepsSystem_update s _ _ _ _ _ _ _ _ fun _ => setStackPointer_get

theorem keepsSystem_accessedState (s : State) (sel : Half) (d : Desc) : KeepsSystem s (accessedState s sel d) := by
  obtain ⟨m, w, h⟩ := accessedState_frame s sel d
  rw [h]
  exact keepsSystem_update s _ _ _ _ _ _ _ _ fun _ _ => rfl

theorem keepsSystem_pushedStates (s : State) (cpl : BitVec 2) (xs : List (List Byte)) :
    KeepsSystem s (pushedStates s cpl xs) := by
  obtain ⟨m, w, r, h⟩ := pushedStates_frame cpl xs s
  have hr : ∀ i, i ≠ .esp → r.get i = s.regs.get i := fun i hi => by
    simpa [h] using regs_pushedStates (cpl := cpl) xs (s := s) hi
  rw [h]
  exact keepsSystem_update s _ _ _ _ _ _ _ _ hr

theorem keepsSystem_pushedState (s : State) (cpl : BitVec 2) (bs : List Byte) : KeepsSystem s (pushedState s cpl bs) :=
  keepsSystem_pushedStates s cpl [bs]

/-! ## The states that calls leave -/

theorem keepsSystem_farPushedState (s : State) (sz : Size) (next : Word) : KeepsSystem s (farPushedState s sz next) :=
  (keepsSystem_pushedStates ..).trans (keepsSystem_withDraws ..)

theorem keepsSystem_sameStackState (s : State) (sz : Size) (next : Word) (sel : Half) (d : Desc) (target : Word) :
    KeepsSystem s (sameStackState s sz next sel d target) :=
  (keepsSystem_farPushedState ..).trans <| (keepsSystem_loadCs ..).trans <|
    (keepsSystem_accessedState ..).trans (keepsSystem_withEip ..)

theorem keepsSystem_switchedState (s : State) (nss : Half) (sd : Desc) (nsp : Word) (csel : Half) (cd : Desc) :
    KeepsSystem s (switchedState s nss sd nsp csel cd) :=
  (keepsSystem_loadSs ..).trans <| (keepsSystem_accessedState ..).trans <| (keepsSystem_loadCs ..).trans
    (keepsSystem_accessedState ..)

theorem keepsSystem_oldStackPointer (s : State) (sz : Size) : KeepsSystem s (oldStackPointer s sz).1 := by
  rw [oldStackPointer_frame]
  exact keepsSystem_withDraws ..

theorem keepsSystem_morePrivilegeState (s : State) (gs : Size) (next : Word) (nss : Half) (sd : Desc) (nsp : Word)
    (csel : Half) (cd : Desc) (params : List Word) (entry : Word) :
    KeepsSystem s (morePrivilegeState s gs next nss sd nsp csel cd params entry) :=
  (keepsSystem_oldStackPointer s gs).trans <| (keepsSystem_switchedState ..).trans <|
    (keepsSystem_pushedStates ..).trans <| (keepsSystem_withDraws ..).trans <| (keepsSystem_withCpl ..).trans
      (keepsSystem_withEip ..)

theorem keepsSystem_farCall {s t : State} {c : FarCtx} {sel : Half} {off : Word}
    (h : farCall s c sel off = .ok t) : KeepsSystem s t := by
  obtain ⟨-, sz, next, rfl⟩ | ⟨-, sz, next, csel, cd, target, rfl⟩ |
    ⟨-, nss, tsp, sd, s', nsp, gs, next, csel, cd, params, entry, -, -, -, hn, rfl⟩ := farCall_ok h
  · exact (keepsSystem_farPushedState ..).trans <| (keepsSystem_loadCsReal ..).trans (keepsSystem_withEip ..)
  · exact keepsSystem_sameStackState ..
  · rw [newStackPointer_frame hn]
    exact (keepsSystem_withDraws ..).trans (keepsSystem_morePrivilegeState ..)

/-- Every CALL that answers keeps the system state (R39). -/
theorem keepsSystem_exec {i : Instr} {s t : State} (h : exec i s = .next t) : KeepsSystem s t := by
  obtain ⟨-, sz, next, target, rfl⟩ | ⟨-, next, sz, sel, off, opnd, -, -, h⟩ := exec_next h
  · exact (keepsSystem_pushedState ..).trans (keepsSystem_withEip ..)
  · exact keepsSystem_farCall h

/-! ## Privilege (R25) -/

/-- The mode decides which agreement is asked for, so states of one mode with the same CPL, CS and SS agree alike. -/
theorem privilegeCoherent_congr {s t : State} (hm : t.mode = s.mode) (hc : t.cpl = s.cpl) (hs : t.segs = s.segs)
    (h : privilegeCoherent s) : privilegeCoherent t := by
  unfold privilegeCoherent at h ⊢
  rwa [hm, hc, hs]

theorem privilegeCoherent_prot {s : State} (hm : s.mode = .prot) :
    privilegeCoherent s ↔ selRpl s.segs.cs.sel = s.cpl ∧ selRpl s.segs.ss.sel = s.cpl := by
  unfold privilegeCoherent
  rw [hm]

/-- Outside Protected Mode only CPL counts. -/
theorem privilegeCoherent_not_prot {s t : State} (hp : s.mode ≠ .prot) (hm : t.mode = s.mode) (hc : t.cpl = s.cpl)
    (h : privilegeCoherent s) : privilegeCoherent t := by
  unfold privilegeCoherent at h ⊢
  rw [hm, hc]
  cases hs : s.mode <;> simp_all

/-- A far call keeps CPL equal to the RPL of CS, into which it loads it, and of SS, which it keeps or takes from the
new level's stack (R24, R160 M3, R161). -/
theorem farCall_privilegeCoherent {s t : State} {c : FarCtx} {sel : Half} {off : Word}
    (h : farCall s c sel off = .ok t) (hs : privilegeCoherent s) : privilegeCoherent t := by
  have hm : t.mode = s.mode := (keepsSystem_farCall h).mode
  obtain ⟨hp, sz, next, rfl⟩ | ⟨hp, sz, next, csel, cd, target, rfl⟩ |
    ⟨hp, nss, tsp, sd, s', nsp, gs, next, csel, cd, params, entry, -, -, hr, -, rfl⟩ := farCall_ok h
  · exact privilegeCoherent_not_prot hp hm rfl hs
  · obtain ⟨hc, hg, -⟩ := sameStackState_fields s sz next csel cd target
    obtain ⟨-, hss⟩ := (privilegeCoherent_prot hp).1 hs
    rw [privilegeCoherent_prot (hm.trans hp), hc, hg]
    exact ⟨selRpl_withRpl csel s.cpl, hss⟩
  · obtain ⟨hc, hss, hcs, -⟩ := morePrivilegeState_fields s' gs next nss sd nsp csel cd params entry
    rw [privilegeCoherent_prot (hm.trans hp), hc, hss, hcs]
    exact ⟨selRpl_withRpl csel (descDpl cd), hr⟩

theorem exec_privilegeCoherent {i : Instr} {s t : State} (h : exec i s = .next t) (hs : privilegeCoherent s) :
    privilegeCoherent t := by
  have hm := (keepsSystem_exec h).mode
  obtain ⟨-, sz, next, target, rfl⟩ | ⟨-, next, sz, sel, off, opnd, -, -, h⟩ := exec_next h
  · exact privilegeCoherent_congr hm rfl rfl hs
  · exact farCall_privilegeCoherent h hs

/-! ## The obligations -/

/-- Settles O53, from the frame of each state a CALL can leave. -/
theorem everyCallLeavesTheSystemState : Obligations.EveryCallLeavesTheSystemState := by
  intro s t i h
  have k := keepsSystem_exec h
  exact ⟨k.system, k.regs, k.dataSegs, k.mode⟩

/-- Settles O56: a step runs an instruction, and each of the shapes a CALL can take keeps the agreement. -/
theorem stepKeepsPrivilegeCoherent : Obligations.StepKeepsPrivilegeCoherent := by
  intro s t hs h
  obtain ⟨i, -, -, hi⟩ := step_next h
  exact exec_privilegeCoherent hi hs

end Sys2Proof.Machine
end

section
/-! No CALL reads a flag but VM (R27): every operation of the model, run from the state with other flags and the same
VM, ends as it does from the state itself, with those flags. -/

namespace Sys2Proof.Machine

/-- `s` with the flags `f` where these have the VM of `s`, and its own flags otherwise. -/
def State.withFlags (f : Word) (s : State) : State :=
  { s with eflags := if f.getLsbD 17 = s.eflags.getLsbD 17 then f else s.eflags }

theorem withFlags_of_vm {f : Word} {s : State} (h : f.getLsbD 17 = s.eflags.getLsbD 17) :
    s.withFlags f = { s with eflags := f } := by
  rw [State.withFlags, if_pos h]

section withFlags

variable (f : Word) (s : State)

/-! ## The fields and attributes of the state -/

@[simp] theorem withFlags_eip : (s.withFlags f).eip = s.eip := rfl
@[simp] theorem withFlags_regs : (s.withFlags f).regs = s.regs := rfl
@[simp] theorem withFlags_segs : (s.withFlags f).segs = s.segs := rfl
@[simp] theorem withFlags_cpl : (s.withFlags f).cpl = s.cpl := rfl
@[simp] theorem withFlags_tr : (s.withFlags f).tr = s.tr := rfl
@[simp] theorem withFlags_mem : (s.withFlags f).mem = s.mem := rfl
@[simp] theorem withFlags_params : (s.withFlags f).params = s.params := rfl
@[simp] theorem withFlags_draws : (s.withFlags f).draws = s.draws := rfl

@[simp] theorem withFlags_vm : (s.withFlags f).vm = s.vm := by
  simp only [State.vm, State.withFlags]
  split
  · assumption
  · rfl

@[simp] theorem withFlags_mode : (s.withFlags f).mode = s.mode := by
  rw [State.mode, withFlags_vm]
  rfl

@[simp] theorem withFlags_codeSize : (s.withFlags f).codeSize = s.codeSize := by
  rw [State.codeSize, withFlags_mode]
  rfl

@[simp] theorem withFlags_stackSize : (s.withFlags f).stackSize = s.stackSize := by
  rw [State.stackSize, withFlags_mode]
  rfl

@[simp] theorem withFlags_sp : (s.withFlags f).sp = s.sp := by
  rw [State.sp, withFlags_stackSize]
  rfl

@[simp] theorem withFlags_slots (n k : Nat) : (s.withFlags f).slots n k = s.slots n k := by
  rw [State.slots, withFlags_stackSize, withFlags_sp]
  rfl

@[simp] theorem withFlags_room (n k : Nat) : (s.withFlags f).room n k = s.room n k := by
  rw [State.room, withFlags_mode, withFlags_stackSize, withFlags_sp]
  rfl

/-! ## The updates -/

@[simp] theorem withFlags_withEip (v : Word) : (s.withFlags f).withEip v = (s.withEip v).withFlags f := rfl
@[simp] theorem withFlags_withCpl (v : BitVec 2) : (s.withFlags f).withCpl v = (s.withCpl v).withFlags f := rfl
@[simp] theorem withFlags_withRegs (r : Regs) : (s.withFlags f).withRegs r = (s.withRegs r).withFlags f := rfl
@[simp] theorem withFlags_withDraws (n : Nat) : (s.withFlags f).withDraws n = (s.withDraws n).withFlags f := rfl
@[simp] theorem withFlags_storeByte (a : Nat) (b : Byte) :
    storeByte (s.withFlags f) a b = (storeByte s a b).withFlags f := rfl
@[simp] theorem withFlags_loadCs (sel : Half) (d : Desc) (cpl : BitVec 2) :
    loadCs (s.withFlags f) sel d cpl = (loadCs s sel d cpl).withFlags f := rfl
@[simp] theorem withFlags_loadSs (sel : Half) (d : Desc) (sp : Word) :
    loadSs (s.withFlags f) sel d sp = (loadSs s sel d sp).withFlags f := rfl

@[simp] theorem withFlags_loadCsReal (sel : Half) :
    loadCsReal (s.withFlags f) sel = (loadCsReal s sel).withFlags f := by
  rw [loadCsReal, withFlags_mode]
  rfl

/-! ## Answers under a change of flags

`State.withFlags f <$> x` is the answer `x` with its state's flags changed. The change moves to the end of a sequence
(`map_bind`, `bind_map_left`), so each procedure's equation follows from those of its parts. -/

section answers
variable {α β : Type} {g : α → β}

@[simp] theorem map_answer (a : α) : g <$> (.ok a : Except Stop α) = .ok (g a) := rfl

@[simp] theorem map_stop (e : Stop) : g <$> (.error e : Except Stop α) = .error e := rfl

@[simp] theorem map_raise (r : Fault) : g <$> (raise r) = raise r := rfl

@[simp] theorem map_refuse (r : Refusal) : g <$> (refuse r) = refuse r := rfl

end answers

/-! ## Reads and checks -/

@[simp] theorem withFlags_translate : translate (s.withFlags f) = translate s := translate_congr rfl rfl

@[simp] theorem withFlags_readBytes (cpl : BitVec 2) (n : Nat) :
    ∀ lin, readBytes (s.withFlags f) cpl lin n = readBytes s cpl lin n := by
  induction n with
  | zero => exact fun _ => rfl
  | succ n ih => simp [readBytes, ih]

@[simp] theorem withFlags_readWord : readWord (s.withFlags f) = readWord s := by
  funext cpl lin n
  simp [readWord]

@[simp] theorem withFlags_segRead : segRead (s.withFlags f) = segRead s := by
  funext name off n
  simp [segRead]

@[simp] theorem withFlags_physAddrs (kind : AccessKind) (cpl : BitVec 2) (lin : Word) (n : Nat) :
    physAddrs (s.withFlags f) kind cpl lin n = physAddrs s kind cpl lin n :=
  physAddrs_congr (s := s) (t := s.withFlags f) rfl rfl kind cpl n lin

@[simp] theorem withFlags_guardOverlap : guardOverlap (s.withFlags f) = guardOverlap s := by
  funext opnd base slots n cpl
  simp [guardOverlap, operandOverlaps]

@[simp] theorem withFlags_nextEip : nextEip (s.withFlags f) = nextEip s := by
  funext len
  simp [nextEip]

@[simp] theorem withFlags_guardShape : guardShape (s.withFlags f) = guardShape s := rfl

@[simp] theorem withFlags_memRange : memRange (s.withFlags f) = memRange s := rfl

@[simp] theorem withFlags_rmRange : rmRange (s.withFlags f) = rmRange s := by
  funext p sz o
  cases o <;> rfl

@[simp] theorem withFlags_readRm : readRm (s.withFlags f) = readRm s := by
  funext p sz o
  cases o <;> simp [readRm]

@[simp] theorem withFlags_readFarPointer : readFarPointer (s.withFlags f) = readFarPointer s := by
  funext p sz m
  simp [readFarPointer]

@[simp] theorem withFlags_selInTable : selInTable (s.withFlags f) = selInTable s := rfl

@[simp] theorem withFlags_selInGdt : selInGdt (s.withFlags f) = selInGdt s := rfl

@[simp] theorem withFlags_descAddr : descAddr (s.withFlags f) = descAddr s := rfl

@[simp] theorem withFlags_readDescriptor : readDescriptor (s.withFlags f) = readDescriptor s := by
  funext sel
  simp [readDescriptor]

@[simp] theorem withFlags_tssStack : tssStack (s.withFlags f) = tssStack s := by
  funext n
  simp [tssStack]

@[simp] theorem withFlags_gateSize : gateSize (s.withFlags f) = gateSize s := rfl

@[simp] theorem withFlags_readParams (sz : Size) (n : Nat) :
    ∀ k, readParams (s.withFlags f) sz k n = readParams s sz k n := by
  induction n with
  | zero => exact fun _ => rfl
  | succ n ih => simp [readParams, ih]

@[simp] theorem withFlags_nearCheck : nearCheck (s.withFlags f) = nearCheck s := by
  funext sz target
  simp [nearCheck]

/-! ## Writes and pushes -/

@[simp] theorem withFlags_writeBytes (cpl : BitVec 2) (bs : List Byte) : ∀ (s : State) (lin : Word),
    writeBytes (s.withFlags f) cpl lin bs = State.withFlags f <$> writeBytes s cpl lin bs := by
  induction bs with
  | nil => exact fun _ _ => rfl
  | cons b bs ih => simp [writeBytes, ih]

@[simp] theorem withFlags_push (cpl : BitVec 2) (sz : Size) (v : Word) :
    push (s.withFlags f) cpl sz v = State.withFlags f <$> push s cpl sz v := by
  simp [push, stackWrite]

@[simp] theorem withFlags_pushSelector (cpl : BitVec 2) (sz : Size) (sel : Half) :
    pushSelector (s.withFlags f) cpl sz sel = State.withFlags f <$> pushSelector s cpl sz sel := by
  cases sz <;> simp [pushSelector]

@[simp] theorem withFlags_pushAll (cpl : BitVec 2) (sz : Size) (vs : List Word) : ∀ s : State,
    pushAll (s.withFlags f) cpl sz vs = State.withFlags f <$> pushAll s cpl sz vs := by
  induction vs with
  | nil => exact fun _ => rfl
  | cons v vs ih => simp [pushAll, ih]

@[simp] theorem withFlags_setAccessed (sel : Half) (d : Desc) :
    setAccessed (s.withFlags f) sel d = State.withFlags f <$> setAccessed s sel d := by
  unfold setAccessed
  split
  · rfl
  · simp

/-! ## Calls -/

@[simp] theorem withFlags_nearCall (sz : Size) (next target : Word) :
    nearCall (s.withFlags f) sz next target = State.withFlags f <$> nearCall s sz next target := by
  simp [nearCall]

@[simp] theorem withFlags_farReal (c : FarCtx) (sel : Half) (off : Word) :
    farReal (s.withFlags f) c sel off = State.withFlags f <$> farReal s c sel off := by
  simp [farReal]

@[simp] theorem withFlags_sameStackCommit (c : FarCtx) (sz : Size) (sel : Half) (d : Desc) (target : Word) :
    sameStackCommit (s.withFlags f) c sz sel d target = State.withFlags f <$> sameStackCommit s c sz sel d target := by
  simp [sameStackCommit]

@[simp] theorem withFlags_callConforming (c : FarCtx) (sel : Half) (d : Desc) (off : Word) :
    callConforming (s.withFlags f) c sel d off = State.withFlags f <$> callConforming s c sel d off := by
  simp [callConforming]

@[simp] theorem withFlags_callNonConforming (c : FarCtx) (sel : Half) (d : Desc) (off : Word) :
    callNonConforming (s.withFlags f) c sel d off = State.withFlags f <$> callNonConforming s c sel d off := by
  simp [callNonConforming]

@[simp] theorem withFlags_callGateSame (c : FarCtx) (g : Desc) (csel : Half) (cd : Desc) :
    callGateSame (s.withFlags f) c g csel cd = State.withFlags f <$> callGateSame s c g csel cd := by
  simp [callGateSame]

@[simp] theorem withFlags_oldStackPointer (sz : Size) : oldStackPointer (s.withFlags f) sz =
    ((oldStackPointer s sz).1.withFlags f, (oldStackPointer s sz).2) := by
  unfold oldStackPointer
  rw [withFlags_stackSize]
  split <;> simp

@[simp] theorem withFlags_newStackPointer (sp : Word) (sd : Desc) : newStackPointer (s.withFlags f) sp sd =
    Prod.map (State.withFlags f) id <$> newStackPointer s sp sd := by
  unfold newStackPointer
  rw [withFlags_tr]
  split
  · rw [withFlags_params]
    cases s.params.tss286Wide <;> simp
  · simp

@[simp] theorem withFlags_morePrivilegeCommit (c : FarCtx) (gs : Size) (nss : Half) (sd : Desc) (nsp : Word)
    (csel : Half) (cd : Desc) (params : List Word) (entry : Word) :
    morePrivilegeCommit (s.withFlags f) c gs nss sd nsp csel cd params entry =
      State.withFlags f <$> morePrivilegeCommit s c gs nss sd nsp csel cd params entry := by
  simp [morePrivilegeCommit]

@[simp] theorem withFlags_callGateMore (c : FarCtx) (g : Desc) (csel : Half) (cd : Desc) :
    callGateMore (s.withFlags f) c g csel cd = State.withFlags f <$> callGateMore s c g csel cd := by
  simp [callGateMore]

@[simp] theorem withFlags_callGate (c : FarCtx) (gsel : Half) (g : Desc) :
    callGate (s.withFlags f) c gsel g = State.withFlags f <$> callGate s c gsel g := by
  simp [callGate, apply_ite (State.withFlags f <$> ·)]

@[simp] theorem withFlags_callTaskGate (gsel : Half) (g : Desc) :
    callTaskGate (s.withFlags f) gsel g = State.withFlags f <$> callTaskGate s gsel g := by
  simp [callTaskGate]

@[simp] theorem withFlags_callTss (tsel : Half) (td : Desc) :
    callTss (s.withFlags f) tsel td = State.withFlags f <$> callTss s tsel td := by
  simp [callTss, apply_ite (State.withFlags f <$> ·)]

@[simp] theorem withFlags_farByKind (c : FarCtx) (sel : Half) (off : Word) (d : Desc) :
    farByKind (s.withFlags f) c sel off d = State.withFlags f <$> farByKind s c sel off d := by
  unfold farByKind
  cases descKind (descAr d) <;> simp

@[simp] theorem withFlags_farCall (c : FarCtx) (sel : Half) (off : Word) :
    farCall (s.withFlags f) c sel off = State.withFlags f <$> farCall s c sel off := by
  unfold farCall
  rw [withFlags_mode]
  cases s.mode <;> simp [farProtected]

@[simp] theorem withFlags_nearRelative (sz : Size) (len : Nat) (rel : Word) :
    nearRelative (s.withFlags f) sz len rel = State.withFlags f <$> nearRelative s sz len rel := by
  simp [nearRelative]

@[simp] theorem withFlags_nearIndirect (sz : Size) (len : Nat) (p : Prefixes) (o : Rm) :
    nearIndirect (s.withFlags f) sz len p o = State.withFlags f <$> nearIndirect s sz len p o := by
  simp [nearIndirect]

@[simp] theorem withFlags_farDirect (sz : Size) (len : Nat) (sel : Half) (off : Word) :
    farDirect (s.withFlags f) sz len sel off = State.withFlags f <$> farDirect s sz len sel off := by
  simp [farDirect]

@[simp] theorem withFlags_farIndirect (sz : Size) (len : Nat) (p : Prefixes) (m : Mem) :
    farIndirect (s.withFlags f) sz len p m = State.withFlags f <$> farIndirect s sz len p m := by
  simp [farIndirect]

/-! ## Instructions -/

/-- An outcome with the flags of its next state changed. -/
def outcomeWithFlags : Host.Outcome State Fault Refusal → Host.Outcome State Fault Refusal
  | .next t => .next (t.withFlags f)
  | .fault r => .fault r
  | .refused r => .refused r

@[simp] theorem toOutcome_map_withFlags (x : Except Stop State) :
    toOutcome (State.withFlags f <$> x) = outcomeWithFlags f (toOutcome x) := by
  rcases x with (_ | _) | _ <;> rfl

/-- With other flags and the same VM, an instruction does the same, flags aside (R27). -/
theorem exec_withFlags (i : Instr) : exec i (s.withFlags f) = outcomeWithFlags f (exec i s) := by
  cases i with
  | callRel16 | callRel32 => simp [exec, execCallRel16, execCallRel32]
  | callRm16 | callRm32 => simp [exec, execCallRm16, execCallRm32]
  | callPtr1616 | callPtr1632 => simp [exec, execCallPtr1616, execCallPtr1632]
  | callM1616 | callM1632 => simp [exec, execCallM1616, execCallM1632]

end withFlags

/-! ## The obligation -/

/-- Settles O59: running an instruction commutes with a change of the flags other than VM, and writes none of them. -/
theorem callReadsNoFlagButVm : Obligations.CallReadsNoFlagButVm := by
  intro s i f hf
  have hw : ∀ t, exec i s = .next t → t.eflags = s.eflags := fun t h => (keepsSystem_exec h).eflags
  refine ⟨hw, ?_⟩
  rw [← withFlags_of_vm hf, exec_withFlags]
  cases h : exec i s with
  | next t =>
    have ht : f.getLsbD 17 = t.eflags.getLsbD 17 := by rw [hf, hw t h]
    rw [outcomeWithFlags, withFlags_of_vm ht]
  | fault r => rfl
  | refused r => rfl

end Sys2Proof.Machine
end

section
/-! Selectors, descriptors, gates and the TSS's stack pointers in terms of their bytes (R30 to R35). -/

namespace Sys2Proof.Machine

/-! ## Fields and values side by side as numbers -/

/-- The number in bits `k` to `k + n - 1`. -/
theorem toNat_field {w : Nat} (x : BitVec w) (k n : Nat) : (x.extractLsb' k n).toNat = x.toNat / 2 ^ k % 2 ^ n := by
  rw [BitVec.extractLsb'_toNat, Nat.shiftRight_eq_div_pow]

/-- The value of two numbers side by side. -/
theorem toNat_append_add {m n : Nat} (x : BitVec m) (y : BitVec n) : (x ++ y).toNat = x.toNat * 2 ^ n + y.toNat := by
  rw [BitVec.toNat_append, ← Nat.shiftLeft_add_eq_or_of_lt y.isLt, Nat.shiftLeft_eq]

/-! ## The classification (R35) -/

/-- With S = 1, type bit 3 tells code from data and type bit 2 tells conforming code. -/
theorem descKind_of_segment {ar : Byte} (h : ar.getLsbD 4 = true) : descKind ar =
    if ar.getLsbD 3 then (if ar.getLsbD 2 then .conformingCode else .nonConformingCode) else .illegal := by
  simp [descKind, arCode, arConforming, arS, h]

/-- With S = 0 the type field alone decides. -/
theorem descKind_of_system {ar : Byte} (h : ar.getLsbD 4 = false) :
    (descKind ar = .callGate ↔ arType ar = 4 ∨ arType ar = 0xC) ∧ (descKind ar = .taskGate ↔ arType ar = 5) ∧
    (descKind ar = .tss ↔ arType ar = 1 ∨ arType ar = 3 ∨ arType ar = 9 ∨ arType ar = 0xB) ∧
    (arType ar = 0 ∨ arType ar = 2 ∨ arType ar = 6 ∨ arType ar = 7 ∨ arType ar = 8 ∨ arType ar = 0xA ∨
        arType ar = 0xD ∨ arType ar = 0xE ∨ arType ar = 0xF → descKind ar = .illegal) ∧
    descKind ar ≠ .conformingCode ∧ descKind ar ≠ .nonConformingCode := by
  simp only [descKind, arS, h, Bool.false_eq_true, if_false]
  generalize arType ar = t
  revert t
  decide

theorem descKind_classification (ar : Byte) :
    (descKind ar = .conformingCode ↔ ar.getLsbD 4 = true ∧ ar.getLsbD 3 = true ∧ ar.getLsbD 2 = true) ∧
    (descKind ar = .nonConformingCode ↔ ar.getLsbD 4 = true ∧ ar.getLsbD 3 = true ∧ ar.getLsbD 2 = false) ∧
    (descKind ar = .callGate ↔ ar.getLsbD 4 = false ∧ (arType ar = 4 ∨ arType ar = 0xC)) ∧
    (descKind ar = .taskGate ↔ ar.getLsbD 4 = false ∧ arType ar = 5) ∧
    (descKind ar = .tss ↔ ar.getLsbD 4 = false ∧
      (arType ar = 1 ∨ arType ar = 3 ∨ arType ar = 9 ∨ arType ar = 0xB)) ∧
    (ar.getLsbD 4 = true ∧ ar.getLsbD 3 = false → descKind ar = .illegal) ∧
    (ar.getLsbD 4 = false ∧
      (arType ar = 0 ∨ arType ar = 2 ∨ arType ar = 6 ∨ arType ar = 7 ∨ arType ar = 8 ∨ arType ar = 0xA ∨
        arType ar = 0xD ∨ arType ar = 0xE ∨ arType ar = 0xF) → descKind ar = .illegal) := by
  cases h : ar.getLsbD 4 with
  | true =>
    rw [descKind_of_segment h]
    cases ar.getLsbD 3 <;> cases ar.getLsbD 2 <;> simp
  | false =>
    obtain ⟨hcall, htask, htss, hill, hc, hn⟩ := descKind_of_system h
    simp only [hcall, htask, htss, hc, hn, Bool.false_eq_true, false_and, true_and, false_imp_iff]
    exact hill

/-- The present bit is no part of the classification. -/
theorem descKind_xor_present (ar : Byte) : descKind (ar ^^^ 0x80) = descKind ar := by
  have hs : arS (ar ^^^ 0x80) = arS ar := by simp [arS]
  have hc : arCode (ar ^^^ 0x80) = arCode ar := by
    rw [arCode, arCode, hs]
    simp
  have hf : arConforming (ar ^^^ 0x80) = arConforming ar := by simp [arConforming]
  have ht : arType (ar ^^^ 0x80) = arType ar := by
    revert ar
    decide
  unfold descKind
  rw [hs, hc, hf, ht]

theorem toNat_arType (ar : Byte) : (arType ar).toNat = ar.toNat % 16 := by
  rw [arType, toNat_field]
  omega

theorem availableTss_iff (ar : Byte) :
    availableTss ar = true ↔ ar.getLsbD 4 = false ∧ (ar.toNat % 16 = 1 ∨ ar.toNat % 16 = 9) := by
  simp [availableTss, arS, ← toNat_arType, BitVec.toNat_eq]

/-! ## Fields of eight bytes (R31 to R33) -/

/-- A descriptor from its bytes, byte 0 in the lowest bits (R31). -/
def descOfBytes (b7 b6 b5 b4 b3 b2 b1 b0 : Byte) : Desc := b7 ++ b6 ++ b5 ++ b4 ++ b3 ++ b2 ++ b1 ++ b0

section fields
variable (b7 b6 b5 b4 b3 b2 b1 b0 : Byte)

theorem toNat_descOfBytes : (descOfBytes b7 b6 b5 b4 b3 b2 b1 b0).toNat =
    ((((((b7.toNat * 256 + b6.toNat) * 256 + b5.toNat) * 256 + b4.toNat) * 256 + b3.toNat) * 256 + b2.toNat) * 256 +
      b1.toNat) * 256 + b0.toNat := by
  simp only [descOfBytes, toNat_append_byte]

theorem descAr_descOfBytes : descAr (descOfBytes b7 b6 b5 b4 b3 b2 b1 b0) = b5 := by
  apply BitVec.eq_of_toNat_eq
  rw [descAr, toNat_field, toNat_descOfBytes]
  omega

theorem descDpl_descOfBytes : (descDpl (descOfBytes b7 b6 b5 b4 b3 b2 b1 b0)).toNat = b5.toNat / 32 % 4 := by
  rw [descDpl, descAr_descOfBytes, arDpl, toNat_field]
  rfl

theorem descPresent_descOfBytes : descPresent (descOfBytes b7 b6 b5 b4 b3 b2 b1 b0) = b5.getLsbD 7 := by
  rw [descPresent, descAr_descOfBytes, arPresent]

theorem descBase_descOfBytes : descBase (descOfBytes b7 b6 b5 b4 b3 b2 b1 b0) = b7 ++ b4 ++ b3 ++ b2 := by
  apply BitVec.eq_of_toNat_eq
  rw [descBase, toNat_append_add, toNat_field, toNat_field, toNat_descOfBytes]
  simp only [toNat_append_byte]
  omega

theorem descDb_descOfBytes : descDb (descOfBytes b7 b6 b5 b4 b3 b2 b1 b0) = b6.getLsbD 6 := by
  simp only [descDb, descOfBytes, BitVec.getLsbD_append]
  rfl

theorem descGranular_descOfBytes : descGranular (descOfBytes b7 b6 b5 b4 b3 b2 b1 b0) = b6.getLsbD 7 := by
  simp only [descGranular, descOfBytes, BitVec.getLsbD_append]
  rfl

theorem descRawLimit_descOfBytes : (descRawLimit (descOfBytes b7 b6 b5 b4 b3 b2 b1 b0)).toNat =
    b6.toNat % 16 * 65536 + b1.toNat * 256 + b0.toNat := by
  rw [descRawLimit, toNat_append_add, toNat_field, toNat_field, toNat_descOfBytes]
  omega

/-- G gives the raw limit in units of 4096 bytes, the last of them counted whole (R31). -/
theorem toNat_descLimit (d : Desc) : (descLimit d).toNat =
    if descGranular d then (descRawLimit d).toNat * 4096 + 4095 else (descRawLimit d).toNat := by
  unfold descLimit
  split
  · rw [toNat_append_add]
    rfl
  · simp only [BitVec.truncate_eq_setWidth, BitVec.toNat_setWidth]
    omega

theorem gateSelector_descOfBytes : gateSelector (descOfBytes b7 b6 b5 b4 b3 b2 b1 b0) = b3 ++ b2 := by
  apply BitVec.eq_of_toNat_eq
  rw [gateSelector, toNat_field, toNat_descOfBytes, toNat_append_byte]
  omega

theorem gateCount_descOfBytes : gateCount (descOfBytes b7 b6 b5 b4 b3 b2 b1 b0) = b4.toNat % 32 := by
  rw [gateCount, toNat_field, toNat_descOfBytes]
  omega

theorem gateIs386_descOfBytes :
    gateIs386 (descOfBytes b7 b6 b5 b4 b3 b2 b1 b0) = true ↔ b5.toNat % 16 = 12 := by
  rw [gateIs386, descAr_descOfBytes, beq_iff_eq, ← toNat_arType, BitVec.toNat_eq]
  rfl

/-- The offset's low half in a gate (R32). -/
theorem gateLow_descOfBytes : (descOfBytes b7 b6 b5 b4 b3 b2 b1 b0).extractLsb' 0 16 = b1 ++ b0 := by
  apply BitVec.eq_of_toNat_eq
  rw [toNat_field, toNat_descOfBytes, toNat_append_byte]
  omega

/-- The offset's high half in a 386 gate (R32). -/
theorem gateHigh_descOfBytes : (descOfBytes b7 b6 b5 b4 b3 b2 b1 b0).extractLsb' 48 16 = b7 ++ b6 := by
  apply BitVec.eq_of_toNat_eq
  rw [toNat_field, toNat_descOfBytes, toNat_append_byte]
  omega

theorem zext32_eq_append (h : Half) : zext32 h = 0#16 ++ h := by
  apply BitVec.eq_of_toNat_eq
  rw [toNat_zext32, toNat_append_add, BitVec.toNat_zero, Nat.zero_mul, Nat.zero_add]

theorem gateEntry_w16_descOfBytes :
    gateEntry .w16 (descOfBytes b7 b6 b5 b4 b3 b2 b1 b0) = 0#16 ++ (b1 ++ b0) := by
  rw [gateEntry, gateLow_descOfBytes, cut, low16_append, zext32_eq_append]

theorem gateEntry_w32_descOfBytes : gateEntry .w32 (descOfBytes b7 b6 b5 b4 b3 b2 b1 b0) =
    if b5.toNat % 16 = 12 then b7 ++ b6 ++ b1 ++ b0 else 0#16 ++ (b1 ++ b0) := by
  simp only [gateEntry, gateLow_descOfBytes, gateHigh_descOfBytes, gateIs386_descOfBytes, cut]
  split
  · apply BitVec.eq_of_toNat_eq
    simp only [toNat_append_add]
    omega
  · rfl

end fields

/-! ## Selectors (R30) -/

theorem selNull_iff (sel : Half) : selNull sel = true ↔ sel.toNat ≤ 3 := by
  rw [selNull, beq_iff_eq, BitVec.toNat_eq, toNat_field]
  change _ = 0 ↔ _
  omega

theorem toNat_selRpl (sel : Half) : (selRpl sel).toNat = sel.toNat % 4 := by
  rw [selRpl, toNat_field]
  omega

theorem toNat_withRpl (sel : Half) (c : BitVec 2) : (withRpl sel c).toNat = sel.toNat / 4 * 4 + c.toNat := by
  rw [withRpl, toNat_append_add, toNat_field]
  omega

theorem selInGdt_iff (s : State) (sel : Half) :
    selInGdt s sel = true ↔ sel.toNat / 8 * 8 + 7 ≤ s.gdtr.limit.toNat := by
  rw [selInGdt, decide_eq_true_eq, selIndex_eq]

theorem selInTable_iff (s : State) (sel : Half) : selInTable s sel = true ↔
    if sel.getLsbD 2 then s.ldtr.valid = true ∧ sel.toNat / 8 * 8 + 7 ≤ s.ldtr.limit.toNat
    else sel.toNat / 8 * 8 + 7 ≤ s.gdtr.limit.toNat := by
  rw [selInTable, selLocal]
  split
  · rw [Bool.and_eq_true, decide_eq_true_eq, selIndex_eq]
  · exact selInGdt_iff s sel

theorem descAddr_eq (s : State) (sel : Half) : descAddr s sel =
    (if sel.getLsbD 2 then s.ldtr.base else s.gdtr.base) + BitVec.ofNat 32 (sel.toNat / 8 * 8) := by
  rw [descAddr, selLocal, selIndex_eq]

/-! ## Reads (R34, R57, R60) -/

theorem translate_add {s : State} {base : Word} {kind : AccessKind} {cpl : BitVec 2} {n k : Nat} {p : Word}
    (h : translate s (base + BitVec.ofNat 32 (n + k)) kind cpl = .ok p) :
    translate s (base + BitVec.ofNat 32 n + BitVec.ofNat 32 k) kind cpl = .ok p := by
  rwa [BitVec.add_assoc, ← BitVec.ofNat_add]

/-- A descriptor is the eight bytes at its address, each at its own translation. -/
theorem readDescriptor_of_translate {s : State} {sel : Half} {p : Nat → Word}
    (h : ∀ k, k < 8 → translate s (descAddr s sel + BitVec.ofNat 32 k) .read 0 = .ok (p k)) :
    readDescriptor s sel = .ok (memRead s.mem (p 7).toNat ++ memRead s.mem (p 6).toNat ++ memRead s.mem (p 5).toNat ++
      memRead s.mem (p 4).toNat ++ memRead s.mem (p 3).toNat ++ memRead s.mem (p 2).toNat ++
      memRead s.mem (p 1).toNat ++ memRead s.mem (p 0).toNat) := by
  rw [readDescriptor, readBytes_of_translate h]
  exact congrArg Except.ok (ofNat_leNat_eight ..)

/-- The stack of level `n` in a 386 TSS (R34). -/
theorem tssStack_386 {s : State} {n : Nat} {p : Nat → Word} (hk : s.tr.kind = .tss386)
    (hl : 8 * n + 9 ≤ s.tr.limit.toNat)
    (h : ∀ k, 8 * n + 4 ≤ k → k ≤ 8 * n + 9 → translate s (s.tr.base + BitVec.ofNat 32 k) .read 0 = .ok (p k)) :
    tssStack s n = .ok (memRead s.mem (p (8 * n + 9)).toNat ++ memRead s.mem (p (8 * n + 8)).toNat,
      memRead s.mem (p (8 * n + 7)).toNat ++ memRead s.mem (p (8 * n + 6)).toNat ++
        memRead s.mem (p (8 * n + 5)).toNat ++ memRead s.mem (p (8 * n + 4)).toNat) := by
  have hsp : readWord s 0 (s.tr.base + BitVec.ofNat 32 (8 * n + 4)) 4 = _ :=
    readWord_four (p := fun k => p (8 * n + 4 + k)) fun k hk => translate_add (h _ (by omega) (by omega))
  have hss : readWord s 0 (s.tr.base + BitVec.ofNat 32 (8 * n + 8)) 2 = _ :=
    readWord_two (p := fun k => p (8 * n + 8 + k)) fun k hk => translate_add (h _ (by omega) (by omega))
  have hl' : decide (8 * n + 8 + 1 ≤ s.tr.limit.toNat) = true := decide_eq_true hl
  simp only [tssStack, hk, tssSpOffset, tssSsOffset, tssSpBytes, Nat.add_comm _ (8 * n), hl', hsp, hss, require_true,
    ok_bind, low16_zext32]

/-- The stack of level `n` in a 286 TSS (R34). -/
theorem tssStack_286 {s : State} {n : Nat} {p : Nat → Word} (hk : s.tr.kind = .tss286)
    (hl : 4 * n + 5 ≤ s.tr.limit.toNat)
    (h : ∀ k, 4 * n + 2 ≤ k → k ≤ 4 * n + 5 → translate s (s.tr.base + BitVec.ofNat 32 k) .read 0 = .ok (p k)) :
    tssStack s n = .ok (memRead s.mem (p (4 * n + 5)).toNat ++ memRead s.mem (p (4 * n + 4)).toNat,
      0#16 ++ (memRead s.mem (p (4 * n + 3)).toNat ++ memRead s.mem (p (4 * n + 2)).toNat)) := by
  have hsp : readWord s 0 (s.tr.base + BitVec.ofNat 32 (4 * n + 2)) 2 = _ :=
    readWord_two (p := fun k => p (4 * n + 2 + k)) fun k hk => translate_add (h _ (by omega) (by omega))
  have hss : readWord s 0 (s.tr.base + BitVec.ofNat 32 (4 * n + 4)) 2 = _ :=
    readWord_two (p := fun k => p (4 * n + 4 + k)) fun k hk => translate_add (h _ (by omega) (by omega))
  have hl' : decide (4 * n + 4 + 1 ≤ s.tr.limit.toNat) = true := decide_eq_true hl
  simp only [tssStack, hk, tssSpOffset, tssSsOffset, tssSpBytes, Nat.add_comm _ (4 * n), hl', hsp, hss, require_true,
    ok_bind, low16_append, zext32_eq_append]

/-! ## The obligation -/

/-- Settles O37: the classification of an AR byte by its S bit, and each field as arithmetic on the eight bytes. -/
theorem descriptorKinds : Obligations.DescriptorKinds := by
  refine ⟨fun ar => ?_, fun b7 b6 b5 b4 b3 b2 b1 b0 => ?_, fun sel c => ?_, fun s sel => ?_, fun s n p => ?_,
    fun n => ?_⟩
  · obtain ⟨h1, h2, h3, h4, h5, h6, h7⟩ := descKind_classification ar
    exact ⟨h1, h2, h3, h4, h5, h6, h7, descKind_xor_present ar, by simp [arCode, arS], by simp [arData, arS],
      rfl, rfl, rfl, rfl, rfl, availableTss_iff ar⟩
  · refine ⟨descAr_descOfBytes .., descDpl_descOfBytes .., descPresent_descOfBytes .., descBase_descOfBytes ..,
      descDb_descOfBytes .., ?_, gateSelector_descOfBytes .., gateCount_descOfBytes .., gateIs386_descOfBytes ..,
      gateEntry_w16_descOfBytes .., gateEntry_w32_descOfBytes ..⟩
    have h := toNat_descLimit (descOfBytes b7 b6 b5 b4 b3 b2 b1 b0)
    rwa [descGranular_descOfBytes, descRawLimit_descOfBytes] at h
  · exact ⟨selNull_iff sel, toNat_selRpl sel, rfl, toNat_withRpl sel c⟩
  · refine ⟨selInTable_iff s sel, selInGdt_iff s sel, descAddr_eq s sel, fun p h => readDescriptor_of_translate ?_⟩
    intro k hk
    rw [descAddr_eq]
    exact translate_add (h k hk)
  · exact ⟨tssStack_386, tssStack_286⟩
  · exact ⟨Nat.add_comm .., Nat.add_comm .., rfl, Nat.add_comm .., Nat.add_comm .., rfl⟩

end Sys2Proof.Machine
end

section
/-! The reset state (R36) and words written out from the encoding tables (R81 to R92). -/

namespace Sys2Proof.Machine

/-! ## Reset (R36) -/

theorem mode_reset : State.reset.mode = .real := mode_real_iff.2 rfl

theorem get_reset {n : SegName} (h : n ≠ .cs) : State.reset.segs.get n = Seg.reset := by
  cases n with
  | cs => exact absurd rfl h
  | es | ss | ds | fs | gs => rfl

theorem realLimits_reset : realLimits State.reset.segs = true :=
  realLimits_iff.2 fun n => by cases n <;> rfl

theorem linear_reset : linear State.reset.segs.cs State.reset.eip = 0xFFFFFFF0 := by decide

/-- Settles O1, from the fields of the reset state. -/
theorem resetHoldsTheValuesOfTheTable : Obligations.ResetHoldsTheValuesOfTheTable := by
  refine ⟨rfl, rfl, rfl, rfl, fun n hn => ?_, rfl, rfl, by decide, rfl, rfl, rfl, rfl, mode_reset, linear_reset⟩
  rw [get_reset hn]
  exact ⟨rfl, rfl, rfl⟩

/-- Settles O2: memory and the record are empty, and the mode is Real Address Mode with CPL 0. -/
theorem resetMeetsTheInvariants : Obligations.ResetMeetsTheInvariants := by
  refine ⟨⟨wf_reset, rfl⟩, ?_, fun _ => realLimits_reset⟩
  rw [privilegeCoherent, mode_reset]
  rfl

/-! ## Words of the encoding tables (R81 to R92) -/

/-- Settles O8: the decoder is run on each word. -/
theorem specWordsDecode : Obligations.SpecWordsDecode := by
  refine ⟨rfl, rfl, rfl, rfl, rfl, rfl, rfl, rfl, rfl, rfl, rfl, rfl, rfl, rfl, ?_, ?_, ?_⟩
  · decide
  · decide
  · decide

end Sys2Proof.Machine
end

section
/-! Memory and the record of written addresses (R37, R61, R63): every CALL stores a list of cells, each one recorded;
and the limits of the segments outside Protected Mode (R54). -/

namespace Sys2Proof.Machine

/-! ## A CALL changes memory by storing cells -/

/-- Memory and the record of `t` are those of `s` after some cells have been stored. -/
def StoresCells (s t : State) : Prop :=
  ∃ cells, t.mem = storeMem s.mem cells ∧ t.written = storeAddrs s.written cells

namespace StoresCells

variable {s t u : State}

theorem of_eq (hm : t.mem = s.mem) (hw : t.written = s.written) : StoresCells s t := ⟨[], hm, hw⟩

/-- Storing composes. -/
theorem trans (h : StoresCells s t) (k : StoresCells t u) : StoresCells s u := by
  obtain ⟨xs, hm, hw⟩ := h
  obtain ⟨ys, km, kw⟩ := k
  exact ⟨xs ++ ys, by rw [km, hm, storeMem_append], by rw [kw, hw, storeAddrs_append]⟩

/-- No recorded address is forgotten (R63). -/
theorem written_subset (h : StoresCells s t) {a : Nat} (ha : a ∈ s.written) : a ∈ t.written := by
  obtain ⟨cells, -, hw⟩ := h
  rw [hw, mem_storeAddrs]
  exact Or.inl ha

/-- A byte whose address is not recorded reads as before (R61, R63). -/
theorem memRead_of_not_written (h : StoresCells s t) (hs : Memory.wf s.mem = true) {a : Nat} (ha : a ∉ t.written) :
    memRead t.mem a = memRead s.mem a := by
  obtain ⟨cells, hm, hw⟩ := h
  rw [hw, mem_storeAddrs, not_or] at ha
  rw [hm, memRead_storeMem hs, overlay_of_not_mem ha.2]

theorem storageCanonical (h : StoresCells s t) (hs : storageCanonical s) : storageCanonical t := by
  obtain ⟨cells, hm, hw⟩ := h
  obtain ⟨sm, sw⟩ := hs
  exact ⟨hm ▸ wf_storeMem sm, hw ▸ addrsSorted_storeAddrs sw⟩

end StoresCells

/-! ## The states that calls leave -/

theorem storesCells_withEip (s : State) (v : Word) : StoresCells s (s.withEip v) := .of_eq rfl rfl

theorem storesCells_withCpl (s : State) (v : BitVec 2) : StoresCells s (s.withCpl v) := .of_eq rfl rfl

theorem storesCells_withDraws (s : State) (n : Nat) : StoresCells s (s.withDraws n) := .of_eq rfl rfl

theorem storesCells_loadCsReal (s : State) (sel : Half) : StoresCells s (loadCsReal s sel) := .of_eq rfl rfl

theorem storesCells_loadCs (s : State) (sel : Half) (d : Desc) (cpl : BitVec 2) : StoresCells s (loadCs s sel d cpl) :=
  .of_eq rfl rfl

theorem storesCells_loadSs (s : State) (sel : Half) (d : Desc) (sp : Word) : StoresCells s (loadSs s sel d sp) :=
  .of_eq rfl rfl

theorem storesCells_pushedState (s : State) (cpl : BitVec 2) (bs : List Byte) : StoresCells s (pushedState s cpl bs) :=
  ⟨_, rfl, rfl⟩

theorem storesCells_pushedStates {cpl : BitVec 2} (xs : List (List Byte)) : ∀ s, StoresCells s (pushedStates s cpl xs) := by
  induction xs with
  | nil => exact fun s => .of_eq rfl rfl
  | cons x xs ih => exact fun s => (storesCells_pushedState s cpl x).trans (ih _)

theorem storesCells_farPushedState (s : State) (sz : Size) (next : Word) : StoresCells s (farPushedState s sz next) :=
  (storesCells_pushedStates _ s).trans (storesCells_withDraws ..)

theorem storesCells_accessedState (s : State) (sel : Half) (d : Desc) : StoresCells s (accessedState s sel d) := by
  unfold accessedState
  split
  · exact .of_eq rfl rfl
  · exact ⟨_, rfl, rfl⟩

theorem storesCells_sameStackState (s : State) (sz : Size) (next : Word) (sel : Half) (d : Desc) (target : Word) :
    StoresCells s (sameStackState s sz next sel d target) :=
  (storesCells_farPushedState ..).trans <| (storesCells_loadCs ..).trans <|
    (storesCells_accessedState ..).trans (storesCells_withEip ..)

theorem storesCells_switchedState (s : State) (nss : Half) (sd : Desc) (nsp : Word) (csel : Half) (cd : Desc) :
    StoresCells s (switchedState s nss sd nsp csel cd) :=
  (storesCells_loadSs ..).trans <| (storesCells_accessedState ..).trans <| (storesCells_loadCs ..).trans
    (storesCells_accessedState ..)

theorem storesCells_oldStackPointer (s : State) (sz : Size) : StoresCells s (oldStackPointer s sz).1 := by
  rw [oldStackPointer_frame]
  exact storesCells_withDraws ..

theorem storesCells_morePrivilegeState (s : State) (gs : Size) (next : Word) (nss : Half) (sd : Desc) (nsp : Word)
    (csel : Half) (cd : Desc) (params : List Word) (entry : Word) :
    StoresCells s (morePrivilegeState s gs next nss sd nsp csel cd params entry) :=
  (storesCells_oldStackPointer s gs).trans <| (storesCells_switchedState ..).trans <|
    (storesCells_pushedStates ..).trans <| (storesCells_withDraws ..).trans <| (storesCells_withCpl ..).trans
      (storesCells_withEip ..)

theorem storesCells_farCall {s t : State} {c : FarCtx} {sel : Half} {off : Word}
    (h : farCall s c sel off = .ok t) : StoresCells s t := by
  obtain ⟨-, sz, next, rfl⟩ | ⟨-, sz, next, csel, cd, target, rfl⟩ |
    ⟨-, nss, tsp, sd, s', nsp, gs, next, csel, cd, params, entry, -, -, -, hn, rfl⟩ := farCall_ok h
  · exact (storesCells_farPushedState ..).trans <| (storesCells_loadCsReal ..).trans (storesCells_withEip ..)
  · exact storesCells_sameStackState ..
  · rw [newStackPointer_frame hn]
    exact (storesCells_withDraws ..).trans (storesCells_morePrivilegeState ..)

theorem storesCells_exec {i : Instr} {s t : State} (h : exec i s = .next t) : StoresCells s t := by
  obtain ⟨-, sz, next, target, rfl⟩ | ⟨-, next, sz, sel, off, opnd, -, -, h⟩ := exec_next h
  · exact (storesCells_pushedState ..).trans (storesCells_withEip ..)
  · exact storesCells_farCall h

/-- A step that answers has stored cells, and recorded each (R61, R63). -/
theorem storesCells_step {s t : State} (h : step s = .next t) : StoresCells s t := by
  obtain ⟨i, -, -, hi⟩ := step_next h
  exact storesCells_exec hi

/-! ## The limits outside Protected Mode -/

theorem get_loadCsReal {s : State} {sel : Half} {n : SegName} (h : n ≠ .cs) :
    (loadCsReal s sel).segs.get n = s.segs.get n := by
  cases n with
  | cs => exact absurd rfl h
  | es | ss | ds | fs | gs => rfl

/-- `LoadCS_real` leaves CS's limit, or makes it 0FFFFH (R24). -/
theorem limit_loadCsReal {s : State} {sel : Half} (h : s.segs.cs.limit = 0xFFFF) :
    (loadCsReal s sel).segs.cs.limit = 0xFFFF := by
  simp only [loadCsReal]
  split
  · rfl
  · exact h
  · exact h

theorem realLimits_loadCsReal {s : State} {sel : Half} (h : realLimits s.segs = true) :
    realLimits (loadCsReal s sel).segs = true := by
  rw [realLimits_iff] at h ⊢
  intro n
  by_cases hn : n = .cs
  · subst hn
    exact limit_loadCsReal (h .cs)
  · rw [get_loadCsReal hn]
    exact h n

theorem realLimits_exec {i : Instr} {s t : State} (h : exec i s = .next t) (hp : s.mode ≠ .prot)
    (hs : realLimits s.segs = true) : realLimits t.segs = true := by
  obtain ⟨-, sz, next, target, rfl⟩ | ⟨-, next, sz, sel, off, opnd, -, -, h⟩ := exec_next h
  · exact hs
  obtain ⟨-, sz, next, rfl⟩ | ⟨hm, -⟩ | ⟨hm, -⟩ := farCall_ok h
  · exact realLimits_loadCsReal (s := farPushedState s sz next) hs
  · exact absurd hm hp
  · exact absurd hm hp

/-! ## The obligations -/

/-- Settles O54: a step stores cells, and the record holds the address of each. -/
theorem everyChangedByteIsRecorded : Obligations.EveryChangedByteIsRecorded := by
  intro s t hs h
  have k := storesCells_step h
  exact ⟨fun _ => k.written_subset, fun _ => k.memRead_of_not_written hs⟩

/-- Settles O57: storing a cell keeps memory and the record canonical. -/
theorem stepKeepsStorageCanonical : Obligations.StepKeepsStorageCanonical :=
  fun _ _ hs h => (storesCells_step h).storageCanonical hs

/-- Settles O58: outside Protected Mode only a far call loads a segment register, CS, and by `LoadCS_real`. -/
theorem stepKeepsRealLimits : Obligations.StepKeepsRealLimits := by
  intro s t hs h hp
  obtain ⟨i, -, -, hi⟩ := step_next h
  rw [(keepsSystem_exec hi).mode] at hp
  exact realLimits_exec hi hp (hs hp)

end Sys2Proof.Machine
end

section
/-! Limits and rights (R53 to R55), where the pushes to come lie and when they have room (R56, R65), and what a push
stored, read back (R61). -/

namespace Sys2Proof.Machine

/-! ## Limits and rights -/

theorem inLimit_iff {seg : Seg} {off : Word} {n : Nat} : inLimit seg off n = true ↔
    if arData seg.ar = true ∧ arExpandDown seg.ar = true then
      seg.limit.toNat < off.toNat ∧ off.toNat + n ≤ (if seg.db then 2 ^ 32 else 2 ^ 16)
    else off.toNat + n ≤ seg.limit.toNat + 1 := by
  simp only [inLimit, Bool.and_eq_true]
  split
  · cases seg.db <;> simp
  · simp only [decide_eq_true_eq]
    omega

theorem inRealLimit_iff {off : Word} {n : Nat} : inRealLimit off n = true ↔ off.toNat + n ≤ 2 ^ 16 := by
  simp only [inRealLimit, decide_eq_true_eq]
  omega

theorem readable_prot_iff {seg : Seg} {off : Word} {n : Nat} : readable .prot seg off n = true ↔ 3 < seg.sel.toNat ∧
    ¬ (seg.ar.getLsbD 4 = true ∧ seg.ar.getLsbD 3 = true ∧ seg.ar.getLsbD 1 = false) ∧ inLimit seg off n = true := by
  have hs : selNull seg.sel = false ↔ 3 < seg.sel.toNat := by
    rw [← Bool.not_eq_true, selNull_iff, Nat.not_le]
  simp only [readable, arCode, arS, arReadable, Bool.and_eq_true, Bool.not_eq_true', Bool.not_eq_false', hs,
    Bool.and_eq_false_iff, and_assoc]
  simp only [not_and_or, Bool.not_eq_true, Bool.not_eq_false, or_assoc]

/-- A writable data segment is not an execute-only code segment, so a write asks for one thing more than a read (R55). -/
theorem writable_prot_iff {seg : Seg} {off : Word} {n : Nat} : writable .prot seg off n = true ↔ 3 < seg.sel.toNat ∧
    (seg.ar.getLsbD 4 = true ∧ seg.ar.getLsbD 3 = false ∧ seg.ar.getLsbD 1 = true) ∧ inLimit seg off n = true := by
  simp only [writable, Bool.and_eq_true, readable_prot_iff, arData, arS, arWritable, Bool.not_eq_true']
  constructor
  · rintro ⟨⟨hs, -, hl⟩, ⟨h4, h3⟩, h1⟩
    exact ⟨hs, ⟨h4, h3, h1⟩, hl⟩
  · rintro ⟨hs, ⟨h4, h3, h1⟩, hl⟩
    exact ⟨⟨hs, by rw [h3]; simp, hl⟩, ⟨h4, h3⟩, h1⟩

theorem readable_not_prot {md : Mode} (h : md ≠ .prot) (seg : Seg) (off : Word) (n : Nat) :
    readable md seg off n = inRealLimit off n := by
  cases md with
  | prot => exact absurd rfl h
  | real | v86 => rfl

theorem writable_not_prot {md : Mode} (h : md ≠ .prot) (seg : Seg) (off : Word) (n : Nat) :
    writable md seg off n = inRealLimit off n := by
  cases md with
  | prot => exact absurd rfl h
  | real | v86 => rfl

theorem inCodeLimit_iff {md : Mode} {limit target : Word} :
    inCodeLimit md limit target = true ↔ target.toNat ≤ if md = .prot then limit.toNat else 0xFFFF := by
  cases md <;> simp [inCodeLimit]

/-! ## The stack's size, its slots and the room in it -/

theorem stackSize_eq (s : State) :
    s.stackSize = if s.mode = .prot ∧ s.segs.ss.db = true then .w32 else .w16 := by
  unfold State.stackSize
  cases s.mode <;> simp

theorem stackSize_not_prot {s : State} (h : s.mode ≠ .prot) : s.stackSize = .w16 := by
  simp [stackSize_eq, h]

/-- The slots of the next `k` pushes lie `n` bytes apart below the stack pointer (R56, R65). -/
theorem slots_eq_map (s : State) (n k : Nat) : s.slots n k = (List.range k).map fun j =>
    if s.stackSize = .w32 then s.regs.esp - BitVec.ofNat 32 ((j + 1) * n)
    else 0#16 ++ (s.regs.esp.extractLsb' 0 16 - BitVec.ofNat 16 ((j + 1) * n)) := by
  simp only [State.slots, State.sp, stackPointer, pushSlots_eq_map, stackDown_cut]

theorem room_iff {s : State} {n k : Nat} :
    s.room n k = true ↔ ∀ off ∈ s.slots n k, writable s.mode s.segs.ss off n = true := by
  simp only [State.room, stackRoom, State.slots, List.all_eq_true]

/-- Outside Protected Mode there is room for a push when its bytes, from SP - `n` modulo 2^16 on, end by 0FFFFH
(R54, R56). -/
theorem room_one_not_prot {s : State} {n : Nat} (h : s.mode ≠ .prot) :
    s.room n 1 = true ↔ (low16 s.regs.esp - BitVec.ofNat 16 n).toNat + n ≤ 2 ^ 16 := by
  have hslot : s.slots n 1 = [0#16 ++ (low16 s.regs.esp - BitVec.ofNat 16 n)] := by
    simp [slots_eq_map, stackSize_not_prot h, low16]
  simp only [room_iff, hslot, List.mem_singleton, forall_eq, writable_not_prot h, inRealLimit_iff,
    toNat_append_add 0#16]
  simp

/-! ## The obligations -/

/-- Settles O25: each byte of the push reads as itself, and together they are the value. -/
theorem pushedValueReadsBack : Obligations.PushedValueReadsBack := by
  intro s sz v hp hw
  refine readWord_bytesOf (s := pushedState s s.cpl (bytesOf sz v)) ((paging_congr rfl).trans hp) fun j b hj => ?_
  have hl : (bytesOf sz v).length ≤ 65536 := by cases sz <;> simp [sizeBytes]
  rw [sp_pushedState]
  exact memRead_pushedState_own hp hw hl hj

/-- Settles O27: the slot of a push of `n` bytes, at SP - `n` modulo 2^16, passes 0FFFFH when SP is not 0 and below
`n`. -/
theorem realModePushFailsOnlyAcrossTheTop : Obligations.RealModePushFailsOnlyAcrossTheTop := by
  intro s h
  simp only [← Bool.not_eq_true, room_one_not_prot h]
  constructor <;> bv_omega

/-- Settles O28, from what each check says of the numbers. -/
theorem limitChecksDoNotWrap : Obligations.LimitChecksDoNotWrap := by
  refine ⟨fun seg off n _ => ⟨inLimit_iff, readable_prot_iff, writable_prot_iff, fun md hm => ?_⟩,
    fun _ _ _ => inCodeLimit_iff, fun s n k => ⟨stackSize_eq s, cut_eq_ite _ _, slots_eq_map s n k, room_iff⟩⟩
  rw [readable_not_prot hm, writable_not_prot hm, inRealLimit_iff]
  exact ⟨Iff.rfl, Iff.rfl⟩

end Sys2Proof.Machine
end

section
/-! LOCK and the repeat bytes before an opcode (R67, R92): a scan that met neither, with one of them put among its
bytes, ends in the same opcode with that byte remembered. -/

namespace Sys2Proof

/-- A scan with its memory of LOCK and of the repeat bytes replaced. -/
def Scan.mark (lock rep : Bool) (sc : Scan) : Scan := { sc with lock := lock, rep := rep }

/-- Neither LOCK nor a repeat byte has been read. -/
def Scan.Plain (sc : Scan) : Prop := sc.lock = false ∧ sc.rep = false

/-- A byte after which neither has been read is one of the others, and these do not look at the memory of the two. -/
theorem add_mark {sc sc' : Scan} {p : PrefixByte} (lock rep : Bool) (h : sc.add p = .ok sc') (hp : sc'.Plain) :
    sc.Plain ∧ (sc.mark lock rep).add p = .ok (sc'.mark lock rep) := by
  obtain ⟨hl, hr⟩ := hp
  cases p with
  | lock | rep =>
    simp only [Scan.add] at h
    split at h <;> cases h
    simp at hl hr
  | opSize | addrSize | seg =>
    simp only [Scan.add] at h
    split at h <;> cases h
    simp_all [Scan.Plain, Scan.mark, Scan.add]

theorem scanBytes_mark {sc sc' : Scan} {bs r : List Byte} {op : Byte} (lock rep : Bool)
    (h : scanBytes sc bs = .ok (sc', op, r)) (hp : sc'.Plain) :
    sc.Plain ∧ scanBytes (sc.mark lock rep) bs = .ok (sc'.mark lock rep, op, r) := by
  fun_induction scanBytes sc bs with
  | case1 => cases h
  | case2 sc b bs hb => cases h; simp [scanBytes, hb, hp]
  | case3 => cases h
  | case4 sc b bs p hb sc1 ha ih =>
    obtain ⟨h1, hs⟩ := ih h
    obtain ⟨h0, hm⟩ := add_mark lock rep ha h1
    exact ⟨h0, by simp [scanBytes, hb, hm, hs]⟩

variable {before after : List Byte} {b : Byte} {p : PrefixByte} {lock rep : Bool}

theorem scanBytes_insert {sc sc' : Scan} {r : List Byte} {op : Byte} (hx : ∀ x ∈ before, (prefixByte x).isSome)
    (hb : prefixByte b = some p) (ha : ∀ sc : Scan, sc.Plain → sc.add p = .ok (sc.mark lock rep))
    (h : scanBytes sc (before ++ after) = .ok (sc', op, r)) (hp : sc'.Plain) :
    scanBytes sc (before ++ b :: after) = .ok (sc'.mark lock rep, op, r) := by
  induction before generalizing sc with
  | nil =>
    obtain ⟨h0, hs⟩ := scanBytes_mark lock rep h hp
    simpa [scanBytes, hb, ha sc h0] using hs
  | cons x xs ih =>
    obtain ⟨q, hq⟩ := Option.isSome_iff_exists.1 (hx x (by simp))
    simp only [List.cons_append, scanBytes, hq] at h ⊢
    cases hs : sc.add q with
    | error e => simp [hs] at h
    | ok sc1 =>
      simp only [hs] at h ⊢
      exact ih (fun y hy => hx y (by simp [hy])) h

/-- A byte the scan remembers, put among the bytes before a CALL's opcode: the CALL is refused for a repeat byte, and
is an invalid opcode for LOCK (R67, R92). -/
theorem decode_insert {d : Size} {rest : List Byte} {i : Instr} (hx : ∀ x ∈ before, (prefixByte x).isSome)
    (hb : prefixByte b = some p) (ha : ∀ sc : Scan, sc.Plain → sc.add p = .ok (sc.mark lock rep))
    (h : decode d (before ++ after) = .ok (i, rest)) : decode d (before ++ b :: after) =
      if rep then .error .repPrefix else if lock then .error .invalidOpcode else .ok (i, rest) := by
  obtain ⟨hw, hd, op, body, hs, he⟩ := decode_eq_ok.1 h
  have hi := scanBytes_insert hx hb ha hs ⟨rfl, rfl⟩
  have hbody := takeBody_eq_ok.2 ⟨reads_selectSize.2 ⟨rfl, hd, hw⟩, he⟩
  simp [decode, hi, Scan.mark, hbody]

theorem add_lock_of_plain {sc : Scan} (h : sc.Plain) : sc.add .lock = .ok (sc.mark true false) := by
  simp [Scan.add, Scan.mark, h.1, ← h.2]

theorem add_rep_of_plain {sc : Scan} (h : sc.Plain) : sc.add (.rep b) = .ok (sc.mark false true) := by
  simp [Scan.add, Scan.mark, h.2, ← h.1]

end Sys2Proof

namespace Sys2Proof.Machine

/-- Settles O13: the byte is remembered wherever it stands, and the CALL stops for it once it is read. -/
theorem lockAndRepeatNeverRun : Obligations.LockAndRepeatNeverRun := by
  intro d before after rest i hx h
  exact ⟨decode_insert hx rfl (fun _ => add_lock_of_plain) h, decode_insert hx rfl (fun _ => add_rep_of_plain) h,
    decode_insert hx rfl (fun _ => add_rep_of_plain) h⟩

end Sys2Proof.Machine
end

section
/-! Instruction bytes, operands, descriptors and pushes that cannot be reached: the segment check that fails (R54, R55),
the address that does not translate (R57) and the byte a CALL has written (R63). -/

namespace Sys2Proof.Machine

/-! ## Translation -/

theorem paging_iff {s : State} : s.paging = true ↔ s.cr0.getLsbD 0 = true ∧ s.cr0.getLsbD 31 = true := by
  simp only [State.paging, State.pe, State.pg, Bool.and_eq_true]

theorem covers_eq (m : Mapping) (lin : Word) (kind : AccessKind) (cpl : BitVec 2) : m.covers lin kind cpl =
    decide (m.kind = kind ∧ m.cpl = cpl ∧ m.lo.toNat ≤ lin.toNat ∧ lin.toNat ≤ m.hi.toNat) := by
  rw [Bool.eq_iff_iff]
  simp only [Mapping.covers, BitVec.ule, Bool.and_eq_true, beq_iff_eq, decide_eq_true_eq, and_assoc]

/-- `Translate` uses the first mapping that covers the access (R57). -/
theorem lookupMapping_eq_find (lin : Word) (kind : AccessKind) (cpl : BitVec 2) (ms : List Mapping) :
    lookupMapping ms lin kind cpl = (ms.find? fun m => decide (m.kind = kind ∧ m.cpl = cpl ∧
      m.lo.toNat ≤ lin.toNat ∧ lin.toNat ≤ m.hi.toNat)).map fun m => m.phys + (lin - m.lo) := by
  induction ms with
  | nil => rfl
  | cons m ms ih =>
    rw [lookupMapping, covers_eq, List.find?_cons]
    cases decide (m.kind = kind ∧ m.cpl = cpl ∧ m.lo.toNat ≤ lin.toNat ∧ lin.toNat ≤ m.hi.toNat) with
    | true => rfl
    | false => exact ih

theorem translate_not_supplied {s : State} {lin : Word} {kind : AccessKind} {cpl : BitVec 2} (hp : s.paging = true)
    (ht : s.params.translation = none) : translate s lin kind cpl = .error (.refuse .translateNotSupplied) := by
  simp only [translate, hp, ht, if_true, refuse]

theorem translate_supplied {s : State} {lin : Word} {kind : AccessKind} {cpl : BitVec 2} {ms : List Mapping}
    (hp : s.paging = true) (ht : s.params.translation = some ms) :
    translate s lin kind cpl = (lookupMapping ms lin kind cpl).elim (.error (.fault .pf)) .ok := by
  simp only [translate, hp, ht, if_true, raise]
  cases lookupMapping ms lin kind cpl <;> rfl

/-! ## Instruction bytes -/

theorem fetchByte_untranslated {s : State} {k : Nat} (hk : fetchInLimit s k = true)
    (h : translatesAt s .read s.cpl (linear s.segs.cs s.eip + BitVec.ofNat 32 k) = false) :
    fetchByte s k = .error (noPage s) := by
  simp only [fetchByte, hk, require_true, ok_bind, translate_untranslated h, error_bind]

theorem fetchByte_pushed {s : State} {k : Nat} {p : Word} (hk : fetchInLimit s k = true)
    (ht : translate s (linear s.segs.cs s.eip + BitVec.ofNat 32 k) .read s.cpl = .ok p) (hw : p.toNat ∈ s.written)
    (hr : s.params.pushedCode = .refuse) : fetchByte s k = .error (.refuse .pushedCodeFetched) := by
  simp [fetchByte, hk, ht, hr, hw, refuse]

/-! ## Operands -/

/-- An operand that fails its segment's check (R55). -/
theorem segRead_unreadable {s : State} {name : SegName} {off : Word} {n : Nat}
    (h : readable s.mode (s.segs.get name) off n = false) :
    segRead s name off n = .error (.fault (operandFault s.mode name)) := by
  simp only [segRead, h, require_false, error_bind]

section operand
variable {s : State} {sz : Size} {len : Nat} {p : Prefixes} {m : Mem} {next : Word}

/-- A near call whose memory operand's shape is allowed stops for what stops the reading of the operand (R112, R113). -/
theorem nearIndirect_of_segRead_error {e : Stop} (hs : shapeAllowed s (memUsesEsp m) = true)
    (hn : nextEip s len = .ok next)
    (hr : segRead s (operandSegment p m) (effectiveAddress s.regs m) (sizeBytes sz) = .error e) :
    nearIndirect s sz len p (.mem m) = .error e := by
  simp only [nearIndirect, hn, rmUsesEsp, (guardShape_eq_ok (u := ())).2 hs, readRm, hr, ok_bind, error_bind]

theorem nearIndirect_unreadable (hs : shapeAllowed s (memUsesEsp m) = true) (hn : nextEip s len = .ok next)
    (hr : readable s.mode (s.segs.get (operandSegment p m)) (effectiveAddress s.regs m) (sizeBytes sz) = false) :
    toOutcome (nearIndirect s sz len p (.mem m)) = .fault (operandFault s.mode (operandSegment p m)) := by
  rw [nearIndirect_of_segRead_error hs hn (segRead_unreadable hr), toOutcome]

theorem nearIndirect_untranslated (hs : shapeAllowed s (memUsesEsp m) = true) (hn : nextEip s len = .ok next)
    (hr : readable s.mode (s.segs.get (operandSegment p m)) (effectiveAddress s.regs m) (sizeBytes sz) = true)
    (ht : translates s .read s.cpl (linear (s.segs.get (operandSegment p m)) (effectiveAddress s.regs m)) (sizeBytes sz) =
      false) : toOutcome (nearIndirect s sz len p (.mem m)) = pageStop s := by
  rw [nearIndirect_of_segRead_error hs hn (segRead_untranslated hr ht), toOutcome_noPage]

/-- A far call whose pointer does not translate (R132, R133, R137, R57). -/
theorem farIndirect_untranslated (hn : nextEip s len = .ok next)
    (hr : readable s.mode (s.segs.get (operandSegment p m)) (effectiveAddress s.regs m) (sizeBytes sz + 2) = true)
    (ht : translates s .read s.cpl (linear (s.segs.get (operandSegment p m)) (effectiveAddress s.regs m))
      (sizeBytes sz + 2) = false) : toOutcome (farIndirect s sz len p m) = pageStop s := by
  simp only [farIndirect, hn, readFarPointer_untranslated hr ht, ok_bind, error_bind, toOutcome_noPage]

end operand

/-! ## Pushes and descriptors -/

/-- A near call whose checks pass and whose push does not translate (R114, R57). -/
theorem nearCall_untranslated {s : State} {sz : Size} {next target : Word}
    (hl : inCodeLimit s.mode s.segs.cs.limit target = true) (hr : s.room (sizeBytes sz) 1 = true)
    (h : pushFits s s.cpl (sizeBytes sz) 1 = false) : nearCall s sz next target = .error (noPage s) := by
  simp only [nearCall, (nearCheck_eq_ok (u := ())).2 ⟨hl, hr⟩, ok_bind, push_untranslated hr h, error_bind]

theorem farCall_not_prot {s : State} (h : s.mode ≠ .prot) (c : FarCtx) (sel : Half) (off : Word) :
    farCall s c sel off = farReal s c sel off := by
  unfold farCall
  cases hm : s.mode with
  | prot => exact absurd hm h
  | real | v86 => rfl

theorem farCall_prot {s : State} (h : s.mode = .prot) (c : FarCtx) (sel : Half) (off : Word) :
    farCall s c sel off = farProtected s c sel off := by
  simp only [farCall, h]

/-- A far call outside Protected Mode whose checks pass and whose pushes do not all translate (R134, R57). -/
theorem farReal_untranslated {s : State} {c : FarCtx} {sel : Half} {off : Word}
    (ho : overlapAllowed s c.opnd (sizeBytes c.sz) 2 = true) (hr : s.room (sizeBytes c.sz) 2 = true)
    (hl : inCodeLimit s.mode s.segs.cs.limit off = true) (h : pushFits s s.cpl (sizeBytes c.sz) 2 = false) :
    farReal s c sel off = .error (noPage s) := by
  simp only [farReal, (guardOverlap_eq_ok (u := ())).2 ho, hr, hl, require_true, ok_bind]
  exact farPushes_untranslated hr h

theorem farProtected_untranslated {s : State} {c : FarCtx} {sel : Half} {off : Word} (hn : selNull sel = false)
    (hi : selInTable s sel = true) (h : translates s .read 0 (descAddr s sel) 8 = false) :
    farProtected s c sel off = .error (noPage s) := by
  simp only [farProtected, hn, hi, Bool.not_false, require_true, ok_bind, readDescriptor_untranslated h, error_bind]

/-- With the overlap excluded, a call that stays on its stack lacks translation of a push or of the accessed bit. -/
theorem sameStackCommit_of_not_fits {s : State} {c : FarCtx} {sz : Size} {sel : Half} {d : Desc} {target : Word}
    (ho : overlapAllowed s c.opnd (sizeBytes sz) 2 = true) (hr : s.room (sizeBytes sz) 2 = true)
    (h : sameStackFits s c.opnd sz sel d = false) : sameStackCommit s c sz sel d target = .error (noPage s) :=
  sameStackCommit_untranslated ho hr (by simpa only [sameStackFits, ho, Bool.true_and] using h)

/-! ## The obligations -/

/-- Settles O7: the byte that CALLs have written stops the fetch, and with it the step. -/
theorem fetchOfAPushedByteIsRefused : Obligations.FetchOfAPushedByteIsRefused :=
  fun _ _ _ hl hf hn hd hk ht hw hr => step_of_truncated hl hf hn hd (fetchByte_pushed hk ht hw hr)

/-- Settles O21: the segment check of the operand fails before anything else can. -/
theorem nearOperandFaults : Obligations.NearOperandFaults :=
  fun _ _ _ _ hs => ⟨nearIndirect_unreadable (sz := .w16) hs, nearIndirect_unreadable (sz := .w32) hs⟩

/-- Settles O22: what `Translate` answers, then each access in turn stops its step with `noPage`. -/
theorem untranslatedAccessesPageFault : Obligations.UntranslatedAccessesPageFault := by
  refine ⟨fun s lin kind cpl => ⟨paging_iff, fun hp => translate_paging_off hp lin kind cpl,
      fun hp => ⟨translate_not_supplied hp, fun ms ht => ?_⟩⟩,
    fun s bs hl hf hn hd hk ht => step_of_truncated hl hf hn hd (fetchByte_untranslated hk ht),
    fun s p m next => ⟨fun hs => ⟨nearIndirect_untranslated (sz := .w16) hs, nearIndirect_untranslated (sz := .w32) hs⟩,
      farIndirect_untranslated (sz := .w16), farIndirect_untranslated (sz := .w32)⟩,
    fun s i next sz target hn hf hl hr hp => ?_,
    fun s i next sz sel off opnd hm hn hf ho hr hl hp => ?_,
    fun s i next sz sel off opnd h => ⟨fun hn hi ht => ?_, fun d hd hc hr hl ho hf => ?_,
      fun g cd gs hg hk hopen hc hcode hmore hs hr hl ho hf => ?_⟩⟩
  · rw [translate_supplied hp ht, lookupMapping_eq_find, Option.elim_map]
    cases ms.find? _ <;> rfl
  · rw [exec_nearForm hn hf, nearCall_untranslated hl hr hp, toOutcome_noPage]
  · have hlim : inCodeLimit s.mode s.segs.cs.limit off = true := by rw [inCodeLimit_iff, if_neg hm]; exact hl
    rw [exec_farForm hn hf, farCall_not_prot hm, farReal_untranslated (c := ⟨sz, next, opnd⟩) ho hr hlim hp, toOutcome_noPage]
  · obtain ⟨hm, hnext, hform⟩ := h
    rw [exec_farForm hnext hform, farCall_prot hm, farProtected_untranslated hn hi ht, toOutcome_noPage]
  · rw [exec_codeCall h hd hc hr hl,
      sameStackCommit_of_not_fits (c := ⟨sz, next, opnd⟩) ho hr hf, toOutcome_noPage]
  · rw [exec_sameGate h hg hk hopen hc hcode hmore hs hr hl,
      sameStackCommit_of_not_fits (c := ⟨sz, next, opnd⟩) ho hr hf, toOutcome_noPage]

end Sys2Proof.Machine
end

section
/-! What the encoder writes decodes to the instruction; no answer depends on bytes the decoder has no need of,
nor on the order of those before the opcode (R80 to R92). -/

namespace Sys2Proof

/-! ## The bytes before the opcode as they are encoded (R92) -/

@[simp] theorem prefixByte_segByte (n : SegName) : prefixByte n.byte = some (.seg n) := by
  cases n <;> decide

theorem scanBytes_opcode {sc : Scan} {op : Byte} {bs : List Byte} (h : prefixByte op = none) :
    scanBytes sc (op :: bs) = .ok (sc, op, bs) := by
  simp only [scanBytes, h]

theorem scanBytes_prefix {sc sc' : Scan} {b : Byte} {bs : List Byte} {p : PrefixByte} (hb : prefixByte b = some p)
    (h : sc.add p = .ok sc') : scanBytes sc (b :: bs) = scanBytes sc' bs := by
  simp only [scanBytes, hb, h]

/-- The scan collects what `Prefixes.encode` writes, one part after the other. -/
theorem scanBytes_encode (p : Prefixes) (bs : List Byte) :
    scanBytes Scan.start (p.encode ++ bs) = scanBytes ⟨p, false, false⟩ bs := by
  obtain ⟨o, a, g⟩ := p
  have ho (t : List Byte) : scanBytes Scan.start ((if o then [0x66] else []) ++ t) =
      scanBytes ⟨⟨o, false, none⟩, false, false⟩ t := by cases o <;> rfl
  have ha (t : List Byte) : scanBytes ⟨⟨o, false, none⟩, false, false⟩ ((if a then [0x67] else []) ++ t) =
      scanBytes ⟨⟨o, a, none⟩, false, false⟩ t := by cases a <;> rfl
  rw [Prefixes.encode, List.append_assoc, List.append_assoc, ho, ha]
  cases g with
  | none => rfl
  | some n => exact scanBytes_prefix (prefixByte_segByte n) rfl

theorem prefixByte_of_encodeBody {i : Instr} {op : Byte} {bs r : List Byte} (h : op :: bs = i.encodeBody ++ r) :
    prefixByte op = none := by
  rcases opcode_of_encodeBody h with rfl | rfl | rfl <;> decide

theorem encodeBody_ne_nil (i : Instr) : i.encodeBody ≠ [] := by
  cases i <;> simp [Instr.encodeBody]

theorem decode_encode {i : Instr} (rest : List Byte) (hw : i.wellFormed = true) :
    decode i.defaultSize (encode i ++ rest) = .ok (i, rest) := by
  obtain ⟨op, body, hb⟩ := List.exists_cons_of_ne_nil (encodeBody_ne_nil i)
  have he : op :: (body ++ rest) = i.encodeBody ++ rest := by rw [hb, List.cons_append]
  refine decode_eq_ok.2 ⟨hw, rfl, op, body ++ rest, ?_, he⟩
  rw [encode, List.append_assoc, ← he]
  exact (scanBytes_encode _ _).trans (scanBytes_opcode (prefixByte_of_encodeBody he))

/-! ## The order of the bytes before the opcode (R92) -/

/-- What `p` says has not been read, nor, for a segment override or a repeat byte, the other of its kind. -/
def Scan.Lacks (sc : Scan) : PrefixByte → Prop
  | .opSize => sc.pfx.opSize = false
  | .addrSize => sc.pfx.addrSize = false
  | .seg _ => sc.pfx.seg = none
  | .lock => sc.lock = false
  | .rep _ => sc.rep = false

/-- The scan that remembers `p` too. -/
def Scan.put (sc : Scan) : PrefixByte → Scan
  | .opSize => { sc with pfx := { sc.pfx with opSize := true } }
  | .addrSize => { sc with pfx := { sc.pfx with addrSize := true } }
  | .seg n => { sc with pfx := { sc.pfx with seg := some n } }
  | .lock => { sc with lock := true }
  | .rep _ => { sc with rep := true }

theorem add_eq_ok {sc sc' : Scan} {p : PrefixByte} : sc.add p = .ok sc' ↔ sc.Lacks p ∧ sc.put p = sc' := by
  cases p with
  | seg n => cases h : sc.pfx.seg <;> simp [Scan.add, Scan.Lacks, Scan.put, h]
  | opSize | addrSize | lock | rep =>
    simp only [Scan.add, Scan.Lacks, Scan.put]
    split <;> simp_all

/-- Two bytes read one after the other are of different kinds, and what each sets the other does not look at. -/
theorem put_comm {sc : Scan} {p q : PrefixByte} (hp : sc.Lacks p) (hq : (sc.put p).Lacks q) :
    sc.Lacks q ∧ (sc.put q).Lacks p ∧ (sc.put q).put p = (sc.put p).put q := by
  cases p <;> cases q
  case opSize.opSize | addrSize.addrSize | seg.seg | lock.lock | rep.rep => cases hq
  all_goals exact ⟨hq, hp, rfl⟩

theorem scanBytes_prefix_eq_ok {sc : Scan} {b : Byte} {bs : List Byte} {p : PrefixByte}
    {x : Scan × Byte × List Byte} (hb : prefixByte b = some p) :
    scanBytes sc (b :: bs) = .ok x ↔ sc.Lacks p ∧ scanBytes (sc.put p) bs = .ok x := by
  constructor
  · intro h
    simp only [scanBytes, hb] at h
    split at h
    case h_1 => cases h
    case h_2 sc' ha =>
      obtain ⟨hl, rfl⟩ := add_eq_ok.1 ha
      exact ⟨hl, h⟩
  · rintro ⟨hl, h⟩
    rwa [scanBytes_prefix hb (add_eq_ok.2 ⟨hl, rfl⟩)]

theorem scanBytes_swap {sc : Scan} {before after : List Byte} {a b : Byte} {x : Scan × Byte × List Byte}
    (hx : ∀ x ∈ before, (prefixByte x).isSome) (ha : (prefixByte a).isSome) (hb : (prefixByte b).isSome)
    (h : scanBytes sc (before ++ a :: b :: after) = .ok x) : scanBytes sc (before ++ b :: a :: after) = .ok x := by
  induction before generalizing sc with
  | nil =>
    obtain ⟨p, hp⟩ := Option.isSome_iff_exists.1 ha
    obtain ⟨q, hq⟩ := Option.isSome_iff_exists.1 hb
    simp only [List.nil_append, scanBytes_prefix_eq_ok hp, scanBytes_prefix_eq_ok hq] at h ⊢
    obtain ⟨hp1, hq2, h⟩ := h
    obtain ⟨hq1, hp2, hc⟩ := put_comm hp1 hq2
    exact ⟨hq1, hp2, hc ▸ h⟩
  | cons y ys ih =>
    obtain ⟨p, hp⟩ := Option.isSome_iff_exists.1 (hx y (by simp))
    simp only [List.cons_append, scanBytes_prefix_eq_ok hp] at h ⊢
    exact ⟨h.1, ih (fun z hz => hx z (by simp [hz])) h.2⟩

/-! ## Answers that more bytes do not change (R80) -/

/-- More bytes after those `f` is given change no answer of it but that the bytes ran out. -/
def IgnoresMore {α : Type} (f : List Byte → Except DecodeStop (α × List Byte)) : Prop :=
  ∀ bs more, f bs ≠ .error .truncated → f (bs ++ more) = (f bs).map fun x => (x.1, x.2 ++ more)

namespace IgnoresMore
variable {α β : Type} {f g : List Byte → Except DecodeStop (α × List Byte)} {bs : List Byte}

theorem error {e : DecodeStop} (hf : IgnoresMore f) (more : List Byte) (h : f bs = .error e) (he : e ≠ .truncated) :
    f (bs ++ more) = .error e := by
  rw [hf bs more (by simpa [h] using he), h]
  rfl

theorem ok {x : α × List Byte} (hf : IgnoresMore f) (more : List Byte) (h : f bs = .ok x) :
    f (bs ++ more) = .ok (x.1, x.2 ++ more) := by
  rw [hf bs more (by simp [h]), h]
  rfl

theorem answer (a : α) : IgnoresMore fun bs => .ok (a, bs) := fun _ _ _ => rfl

theorem stop (e : DecodeStop) : IgnoresMore fun _ => (.error e : Except DecodeStop (α × List Byte)) :=
  fun _ _ _ => rfl

theorem ite {c : Prop} [Decidable c] (hf : IgnoresMore f) (hg : IgnoresMore g) :
    IgnoresMore fun bs => if c then f bs else g bs := by
  by_cases hc : c
  · simpa only [hc, if_true] using hf
  · simpa only [hc, if_false] using hg

/-- A read and then the rest, which begins at the bytes the read has left. -/
theorem bind {k : α × List Byte → Except DecodeStop (β × List Byte)} (hf : IgnoresMore f)
    (hk : ∀ a, IgnoresMore fun bs => k (a, bs)) : IgnoresMore fun bs => f bs >>= k := by
  intro bs more h
  cases hx : f bs with
  | error e =>
    have he : e ≠ .truncated := by
      rintro rfl
      exact h (by simp only [hx]; rfl)
    simp only [hf.error more hx he, hx]
    rfl
  | ok x =>
    simp only [hx] at h
    simp only [hf.ok more hx, hx]
    exact hk x.1 x.2 more h

/-- The bytes before the opcode and then the rest. -/
theorem scan {sc : Scan} {k : Scan × Byte × List Byte → Except DecodeStop (β × List Byte)}
    (hk : ∀ sc op, IgnoresMore fun bs => k (sc, op, bs)) : IgnoresMore fun bs => scanBytes sc bs >>= k := by
  intro bs more h
  induction bs generalizing sc with
  | nil => exact absurd rfl h
  | cons b bs ih =>
    simp only [List.cons_append, scanBytes] at h ⊢
    cases hb : prefixByte b with
    | none =>
      simp only [hb] at h
      exact hk sc b bs more h
    | some p =>
      simp only [hb] at h ⊢
      cases ha : sc.add p with
      | error e => rfl
      | ok sc' =>
        simp only [ha] at h
        exact ih h

end IgnoresMore

theorem ignoresMore_takeByte : IgnoresMore takeByte := by
  intro bs more h
  rcases bs with _ | ⟨b, bs⟩
  · exact absurd rfl h
  · rfl

theorem ignoresMore_takeHalf : IgnoresMore takeHalf := by
  intro bs more h
  rcases bs with _ | ⟨b0, _ | ⟨b1, bs⟩⟩
  iterate 2 exact absurd rfl h
  rfl

theorem ignoresMore_takeWord : IgnoresMore takeWord := by
  intro bs more h
  rcases bs with _ | ⟨b0, _ | ⟨b1, _ | ⟨b2, _ | ⟨b3, bs⟩⟩⟩⟩
  iterate 4 exact absurd rfl h
  rfl

theorem ignoresMore_takeDisp16 (md : BitVec 2) : IgnoresMore (takeDisp16 md) :=
  .ite (.answer _) <| .ite (.bind ignoresMore_takeByte fun _ => .answer _) <|
    .bind ignoresMore_takeHalf fun _ => .answer _

theorem ignoresMore_takeDisp32 (md : BitVec 2) : IgnoresMore (takeDisp32 md) :=
  .ite (.answer _) <| .ite (.bind ignoresMore_takeByte fun _ => .answer _) <|
    .bind ignoresMore_takeWord fun _ => .answer _

theorem ignoresMore_takeMem16 (md : BitVec 2) (rm : BitVec 3) : IgnoresMore (takeMem16 md rm) :=
  .ite (.bind ignoresMore_takeHalf fun _ => .answer _) (.bind (ignoresMore_takeDisp16 md) fun _ => .answer _)

theorem ignoresMore_takeSib (md : BitVec 2) (s : Byte) : IgnoresMore (takeSib md s) :=
  .ite (.stop _) <| .ite (.bind ignoresMore_takeWord fun _ => .answer _) <|
    .bind (ignoresMore_takeDisp32 md) fun _ => .answer _

theorem ignoresMore_takeMem32 (md : BitVec 2) (rm : BitVec 3) : IgnoresMore (takeMem32 md rm) :=
  .ite (.bind ignoresMore_takeByte fun s => ignoresMore_takeSib md s) <|
    .ite (.bind ignoresMore_takeWord fun _ => .answer _) <| .bind (ignoresMore_takeDisp32 md) fun _ => .answer _

theorem ignoresMore_takeMem (asz : Size) (md : BitVec 2) (rm : BitVec 3) : IgnoresMore (takeMem asz md rm) := by
  cases asz with
  | w16 => exact ignoresMore_takeMem16 md rm
  | w32 => exact ignoresMore_takeMem32 md rm

theorem ignoresMore_takeIndirect (p : Prefixes) (osz asz : Size) : IgnoresMore (takeIndirect p osz asz) := by
  have hm (md rm) := ignoresMore_takeMem asz md rm
  cases osz <;>
    exact .bind ignoresMore_takeByte fun _ =>
      .ite (.ite (.answer _) (.bind (hm _ _) fun _ => .answer _))
        (.ite (.ite (.stop _) (.bind (hm _ _) fun _ => .answer _)) (.stop _))

theorem ignoresMore_takeBody (p : Prefixes) (osz asz : Size) (op : Byte) : IgnoresMore (takeBody p osz asz op) := by
  have hi := ignoresMore_takeIndirect p osz asz
  cases osz with
  | w16 =>
    exact .ite (.bind ignoresMore_takeHalf fun _ => .answer _)
      (.ite (.bind ignoresMore_takeHalf fun _ => .bind ignoresMore_takeHalf fun _ => .answer _) (.ite hi (.stop _)))
  | w32 =>
    exact .ite (.bind ignoresMore_takeWord fun _ => .answer _)
      (.ite (.bind ignoresMore_takeWord fun _ => .bind ignoresMore_takeHalf fun _ => .answer _) (.ite hi (.stop _)))

theorem ignoresMore_decode (d : Size) : IgnoresMore (decode d) :=
  .scan fun _ _ => .bind (ignoresMore_takeBody _ _ _ _) fun _ => .ite (.stop _) (.ite (.stop _) (.answer _))

/-! ## What is no CALL (R89, R90) -/

theorem decode_notCall {d : Size} {b : Byte} (rest : List Byte) (hp : prefixByte b = none) (hE8 : b ≠ 0xE8)
    (h9A : b ≠ 0x9A) (hFF : b ≠ 0xFF) : decode d (b :: rest) = .error (.notCall b) := by
  simp only [decode, scanBytes_opcode hp, decoded_bind, takeBody, if_neg hE8, if_neg h9A, if_neg hFF]
  rfl

theorem decode_FF (d : Size) (bs : List Byte) :
    decode d (0xFF :: bs) = takeIndirect ⟨false, false, none⟩ d d bs := by
  simp only [decode, scanBytes_opcode (op := 0xFF) rfl, decoded_bind]
  exact bind_pure (takeIndirect _ d d bs)

end Sys2Proof

namespace Sys2Proof.Machine

/-- Settles O9: the scan collects the bytes before the opcode, and the readers are the encoder read backwards
(`decode_eq_ok`). -/
theorem decodeOfEncodeIsTheInstruction : Obligations.DecodeOfEncodeIsTheInstruction :=
  fun _ rest hw => decode_encode rest hw

/-- Settles O11, from the characterisation of the decoder by the encoder (`decode_append`). -/
theorem decodeReadsOnlyTheInstruction : Obligations.DecodeReadsOnlyTheInstruction :=
  fun _ _ _ more _ h => decode_append more h

/-- Settles O12: two bytes that can both be read set different parts of the scan. -/
theorem orderBeforeTheOpcodeDoesNotMatter : Obligations.OrderBeforeTheOpcodeDoesNotMatter := by
  intro d before after a b r hx ha hb h
  obtain ⟨hw, hd, op, body, hs, he⟩ := decode_eq_ok.1 h
  exact decode_eq_ok.2 ⟨hw, hd, op, body, scanBytes_swap hx ha hb hs, he⟩

/-- Settles O14: the opcode byte, or the reg and mod fields, are met before anything else is read. -/
theorem otherOpcodesAreRefused : Obligations.OtherOpcodesAreRefused := by
  refine ⟨fun d b rest => decode_notCall rest, fun d md reg rm rest h2 h3 => ?_, fun d rm rest => ?_⟩
  · simp only [decode_FF, takeIndirect, takeByte, decoded_bind, fieldsByte_mid, if_neg h2, if_neg h3]
  · rw [decode_FF]
    simp [takeIndirect, takeByte]

end Sys2Proof.Machine
end

section
/-! The stops of a step before its instruction runs: bytes that are no CALL (R87 to R92), bytes beyond the code limit
and NextEIP past 0FFFFH (R94). -/

namespace Sys2Proof.Machine

/-! ## The fetch -/

/-- A byte beyond the code segment limit (R94, R206). -/
theorem fetchByte_beyond {s : State} {k : Nat}
    (h : (if s.mode = .prot then s.segs.cs.limit.toNat else 0xFFFF) < s.eip.toNat + k) :
    fetchByte s k = .error (.fault (fetchFault s.mode)) := by
  have hk : fetchInLimit s k = false := by rw [← Bool.not_eq_true, fetchInLimit_iff]; omega
  simp only [fetchByte, hk, require_false, error_bind]

/-- Bytes that decode to a stop other than running out stop the step, whatever follows them (R80). -/
theorem step_of_decode_error {s : State} {bs : List Byte} {d : DecodeStop} (hl : launchCheck s = .ok ())
    (hf : fetchable s bs) (hn : bs.length ≤ 15) (hd : decode s.codeSize bs = .error d) (ht : d ≠ .truncated) :
    ∃ e, step s = toOutcome (.error (decodeFailure e d)) := by
  obtain ⟨more, hm⟩ := fetchWindow_begins bs 15 0 hn (fun j b h => by rw [Nat.zero_add]; exact hf j b h)
  exact ⟨(fetchWindow s 15 0).2, by simp only [step, hl, fetchInstr, hm, (ignoresMore_decode _).error more hd ht]⟩

/-! ## NextEIP -/

section nextEip
variable {s : State} {len : Nat}

theorem ofNat_eip_add (s : State) (len : Nat) :
    BitVec.ofNat 32 (s.eip.toNat + len) = s.eip + BitVec.ofNat 32 len := by
  rw [BitVec.ofNat_add, BitVec.ofNat_toNat, BitVec.setWidth_eq]

theorem low16_ofNat (n : Nat) : low16 (BitVec.ofNat 32 n) = BitVec.ofNat 16 n := by
  apply BitVec.eq_of_toNat_eq
  rw [toNat_low16, BitVec.toNat_ofNat, BitVec.toNat_ofNat]
  omega

theorem nextEip_of_not_corner (h : ¬ (s.codeSize = .w16 ∧ 0xFFFF < s.eip.toNat + len)) :
    nextEip s len = .ok (s.eip + BitVec.ofNat 32 len) := by
  simp only [nextEip, if_neg h, ofNat_eip_add]

variable (h : s.codeSize = .w16 ∧ 0xFFFF < s.eip.toNat + len)
include h

theorem nextEip_carry (hp : s.params.nextEip = .carry) : nextEip s len = .ok (s.eip + BitVec.ofNat 32 len) := by
  simp only [nextEip, if_pos h, hp, ofNat_eip_add]

theorem nextEip_wrap (hp : s.params.nextEip = .wrap) :
    nextEip s len = .ok (zext32 (low16 (s.eip + BitVec.ofNat 32 len))) := by
  simp only [nextEip, if_pos h, hp, ← ofNat_eip_add, low16_ofNat]

theorem nextEip_refuse (hp : s.params.nextEip = .refuse) : nextEip s len = .error (.refuse .nextEipPast64K) := by
  simp only [nextEip, if_pos h, hp, refuse]

end nextEip

/-- Every form asks for NextEIP before anything else (R94). -/
theorem exec_of_nextEip_error {s : State} {i : Instr} {e : Stop} (h : nextEip s (instrLength i) = .error e) :
    exec i s = toOutcome (.error e) := by
  cases i with
  | callRel16 => simp only [exec, execCallRel16, nearRelative, h, error_bind]
  | callRel32 => simp only [exec, execCallRel32, nearRelative, h, error_bind]
  | callRm16 => simp only [exec, execCallRm16, nearIndirect, h, error_bind]
  | callRm32 => simp only [exec, execCallRm32, nearIndirect, h, error_bind]
  | callPtr1616 => simp only [exec, execCallPtr1616, farDirect, h, error_bind]
  | callPtr1632 => simp only [exec, execCallPtr1632, farDirect, h, error_bind]
  | callM1616 => simp only [exec, execCallM1616, farIndirect, h, error_bind]
  | callM1632 => simp only [exec, execCallM1632, farIndirect, h, error_bind]

/-! ## The obligations -/

/-- Settles O5: the first byte beyond the limit stops the fetch, and with it the step. -/
theorem fetchBeyondTheLimitFaults : Obligations.FetchBeyondTheLimitFaults := by
  intro s bs hl hf hn hd
  have hstep (h : (if s.mode = .prot then s.segs.cs.limit.toNat else 0xFFFF) < s.eip.toNat + bs.length) :
      step s = .fault (fetchFault s.mode) := step_of_truncated hl hf hn hd (fetchByte_beyond h)
  refine ⟨fun hm h => ?_, fun hm h => ?_, fun hm h => ?_⟩ <;>
    simpa only [hm, fetchFault] using hstep (by simpa [hm] using h)

/-- Settles O4: the window begins with the bytes given, and what follows them does not change the stop. -/
theorem stepStopsOnWhatIsNoCall : Obligations.StepStopsOnWhatIsNoCall := by
  intro s bs d hl hf hn hd ht
  obtain ⟨e, he⟩ := step_of_decode_error hl hf hn hd ht
  rw [he]
  cases d with
  | truncated => exact absurd rfl ht
  | _ => rfl

/-- Settles O15, from what `nextEip` answers outside the corner and, in it, under each launch parameter. -/
theorem nextEipOfEveryForm : Obligations.NextEipOfEveryForm := by
  intro s len
  refine ⟨nextEip_of_not_corner, fun h16 hlt => ⟨nextEip_carry ⟨h16, hlt⟩, nextEip_wrap ⟨h16, hlt⟩, ?_⟩⟩
  rintro hp i rfl
  rw [exec_of_nextEip_error (nextEip_refuse ⟨h16, hlt⟩ hp), toOutcome]

end Sys2Proof.Machine
end

section
/-! The near calls (R110 to R117): when one completes, what its two checks raise, and what it leaves alone. -/

namespace Sys2Proof.Machine

/-! ## Completion (R110 to R114) -/

section completes
variable {s : State} {sz : Size} {len : Nat} {next : Word} (hn : nextEip s len = .ok next)
  (hp : pushFits s s.cpl (sizeBytes sz) 1 = true)
include hn hp

theorem nearRelative_completes {rel : Word}
    (hl : inCodeLimit s.mode s.segs.cs.limit (cut sz (next + rel)) = true) :
    toOutcome (nearRelative s sz len rel) =
      .next ((pushedState s s.cpl (bytesOf sz next)).withEip (cut sz (next + rel))) :=
  toOutcome_next.2 (nearRelative_eq_ok.2 ⟨next, hn, nearCall_eq_ok.2 ⟨hl, hp, rfl⟩⟩)

theorem nearIndirect_completes {p : Prefixes} {o : Rm} {v : Word} (hs : shapeAllowed s (rmUsesEsp o) = true)
    (hr : readRm s p sz o = .ok v) (ho : overlapAllowed s (rmRange s p sz o) (sizeBytes sz) 1 = true)
    (hl : inCodeLimit s.mode s.segs.cs.limit v = true) :
    toOutcome (nearIndirect s sz len p o) = .next ((pushedState s s.cpl (bytesOf sz next)).withEip v) :=
  toOutcome_next.2 (nearIndirect_eq_ok.2 ⟨next, v, hn, hs, hr, ho, nearCall_eq_ok.2 ⟨hl, hp, rfl⟩⟩)

end completes

/-! ## The two checks (R114) -/

/-- A near call that fails a check raises the exception of a check it fails; which one when it fails both is open
(R114, R115, U3). -/
theorem exec_near_fails {s : State} {i : Instr} {next target : Word} {sz : Size}
    (hn : nextEip s (instrLength i) = .ok next) (hf : nearForm s next i = some (sz, target))
    (h : inCodeLimit s.mode s.segs.cs.limit target = false ∨ s.room (sizeBytes sz) 1 = false) :
    (inCodeLimit s.mode s.segs.cs.limit target = false ∧ exec i s = .fault (targetFault s.mode)) ∨
    (s.room (sizeBytes sz) 1 = false ∧ exec i s = .fault (stackFault s.mode)) := by
  simp only [exec_nearForm hn hf, nearCall, nearCheck]
  cases hl : inCodeLimit s.mode s.segs.cs.limit target <;> cases hr : s.room (sizeBytes sz) 1
  case false.false =>
    cases Config.nearTargetFaultFirst s.draws
    · exact .inr ⟨rfl, rfl⟩
    · exact .inl ⟨rfl, rfl⟩
  case false.true => exact .inl ⟨rfl, rfl⟩
  case true.false => exact .inr ⟨rfl, rfl⟩
  case true.true => simp [hl, hr] at h

/-! ## The frame (R117) -/

/-- Everything a near call can have done when it answers: one push of its operand size, and the jump (R39). -/
theorem exec_near_next {i : Instr} {s t : State} (hi : isNear i = true) (h : exec i s = .next t) :
    ∃ next target, t = (pushedState s s.cpl (bytesOf i.opSize next)).withEip target := by
  cases i with
  | callRel16 | callRel32 =>
    obtain ⟨next, -, hc⟩ := nearRelative_eq_ok.1 (toOutcome_next.1 h)
    obtain ⟨-, -, ht⟩ := nearCall_eq_ok.1 hc
    exact ⟨next, _, ht⟩
  | callRm16 | callRm32 =>
    obtain ⟨next, target, -, -, -, -, hc⟩ := nearIndirect_eq_ok.1 (toOutcome_next.1 h)
    obtain ⟨-, -, ht⟩ := nearCall_eq_ok.1 hc
    exact ⟨next, target, ht⟩
  | callPtr1616 | callM1616 | callPtr1632 | callM1632 => cases hi

/-! ## The obligations -/

/-- Settles O16: the target that the sum of NextEIP and the sign-extended `rel16` has modulo 2^16. -/
theorem callRel16Completes : Obligations.CallRel16Completes := by
  intro s p rel next hn hl hp
  rw [← cut_rel16] at hl ⊢
  exact nearRelative_completes (sz := .w16) hn hp hl

/-- Settles O17, from the completion of a near relative call. -/
theorem callRel32Completes : Obligations.CallRel32Completes :=
  fun _ _ _ _ hn hl hp => nearRelative_completes (sz := .w32) hn hp hl

/-- Settles O18, by the place of the operand. -/
theorem callRm16Completes : Obligations.CallRm16Completes := by
  intro s p o next v hn hs hv ho hl hp
  cases o with
  | reg r =>
    have hr : readRm s p .w16 (.reg r) = .ok v := congrArg _ hv.symm
    exact nearIndirect_completes (sz := .w16) hn hp hs hr ho hl
  | mem m => exact nearIndirect_completes (sz := .w16) hn hp hs hv ho hl

/-- Settles O19, by the place of the operand. -/
theorem callRm32Completes : Obligations.CallRm32Completes := by
  intro s p o next v hn hs hv ho hl hp
  cases o with
  | reg r =>
    have hr : readRm s p .w32 (.reg r) = .ok v := congrArg _ hv.symm
    exact nearIndirect_completes (sz := .w32) hn hp hs hr ho hl
  | mem m => exact nearIndirect_completes (sz := .w32) hn hp hs hv ho hl

/-- Settles O20: the exception is that of a failing check, and outside Protected Mode the two checks raise the same
one. -/
theorem nearCallChecks : Obligations.NearCallChecks := by
  intro s i next sz target hn hf
  have fails := exec_near_fails hn hf
  have limit : inCodeLimit s.mode s.segs.cs.limit target = false ↔
      (if s.mode = .prot then s.segs.cs.limit.toNat else 0xFFFF) < target.toNat := by
    rw [← Bool.not_eq_true, inCodeLimit_iff, Nat.not_le]
  rw [limit] at fails
  refine ⟨fun hm => ?_, fun hm h => ?_⟩
  · simp only [hm, if_true, targetFault, stackFault] at fails
    refine ⟨fun hl hr => ?_, fun hl hr => ?_, fun hl hr => ?_⟩
    · obtain ⟨-, h⟩ | ⟨h, -⟩ := fails (.inl hl)
      · exact h
      · simp [hr] at h
    · obtain ⟨h, -⟩ | ⟨-, h⟩ := fails (.inr hr)
      · omega
      · exact h
    · exact (fails (.inl hl)).imp And.right And.right
  · have same : targetFault s.mode = .realLimit ∧ stackFault s.mode = .realLimit := by
      cases hs : s.mode with
      | prot => exact absurd hs hm
      | real | v86 => exact ⟨rfl, rfl⟩
    rw [if_neg hm, same.1, same.2] at fails
    exact (fails h).elim And.right And.right

/-- Settles O24, from the frame of the state that one push leaves. -/
theorem nearCallFrame : Obligations.NearCallFrame := by
  intro s t i hi hw h
  have keeps := keepsSystem_exec h
  obtain ⟨next, target, rfl⟩ := exec_near_next hi h
  refine ⟨keeps.system, keeps.regs, rfl, rfl, rfl, fun h16 => ?_, fun a ha => ?_⟩
  · exact esp_high_pushedStates (cpl := s.cpl) [bytesOf i.opSize next] h16
  · refine memRead_pushedState hw ?_
    rwa [length_bytesOf]

end Sys2Proof.Machine
end

section
/-! Stack-dependent operands under the spec's decision (R116, R132, D12): which operands these are, and where each kind
of call refuses one. -/

namespace Sys2Proof.Machine

/-! ## Which operands are stack-dependent -/

theorem memUsesEsp_iff {m : Mem} : memUsesEsp m = true ↔
    (∃ d, m = .based32 .esp d) ∨ ∃ scale index d, m = .sib scale index .esp d := by
  cases m <;> simp [memUsesEsp]

theorem rmUsesEsp_iff {o : Rm} : rmUsesEsp o = true ↔ o = .reg .esp ∨ (∃ d, o = .mem (.based32 .esp d)) ∨
    ∃ scale index d, o = .mem (.sib scale index .esp d) := by
  cases o with
  | reg r => simp [rmUsesEsp]
  | mem m => simp [rmUsesEsp, memUsesEsp_iff]

/-- The addresses of `n` bytes are the translations of the addresses from `lin` on (R57). -/
theorem mem_physAddrs {s : State} {kind : AccessKind} {cpl : BitVec 2} {a n : Nat} {lin : Word} :
    a ∈ physAddrs s kind cpl lin n ↔
      ∃ k p, k < n ∧ translate s (lin + BitVec.ofNat 32 k) kind cpl = .ok p ∧ a = p.toNat := by
  induction n generalizing lin with
  | zero => simp [physAddrs]
  | succ n ih =>
    have head : a ∈ physAddrs s kind cpl lin (n + 1) ↔
        (∃ p, translate s lin kind cpl = .ok p ∧ a = p.toNat) ∨ a ∈ physAddrs s kind cpl (lin + 1) n := by
      simp only [physAddrs]
      cases translate s lin kind cpl <;> simp
    have next (k : Nat) : lin + 1 + BitVec.ofNat 32 k = lin + BitVec.ofNat 32 (k + 1) := by
      rw [Nat.add_comm k 1, BitVec.ofNat_add, ← BitVec.add_assoc]
      rfl
    simp only [head, ih, next]
    constructor
    · rintro (⟨p, hp, ha⟩ | ⟨k, p, hk, hp, ha⟩)
      · exact ⟨0, p, n.succ_pos, by simpa using hp, ha⟩
      · exact ⟨k + 1, p, Nat.succ_lt_succ hk, hp, ha⟩
    · rintro ⟨_ | k, p, hk, hp, ha⟩
      · exact .inl ⟨p, by simpa using hp, ha⟩
      · exact .inr ⟨k, p, Nat.lt_of_succ_lt_succ hk, hp, ha⟩

theorem operandOverlaps_iff {s : State} {opnd : OperandRange} {base : Word} {slots : List Word} {n : Nat}
    {cpl : BitVec 2} : operandOverlaps s opnd base slots n cpl = true ↔
      ∃ lin len off a, opnd = some (lin, len) ∧ off ∈ slots ∧ a ∈ physAddrs s .read s.cpl lin len ∧
        a ∈ physAddrs s .write cpl (base + off) n := by
  cases opnd with
  | none => simp [operandOverlaps]
  | some r =>
    obtain ⟨lin, len⟩ := r
    simp only [operandOverlaps, List.any_eq_true, List.contains_iff_mem, List.mem_flatMap]
    constructor
    · rintro ⟨a, hr, off, ho, hw⟩
      exact ⟨lin, len, off, a, rfl, ho, hr, hw⟩
    · rintro ⟨_, _, off, a, ⟨⟩, ho, hr, hw⟩
      exact ⟨a, hr, off, ho, hw⟩

/-! ## Where they are refused -/

section refused
variable {s : State} {sz : Size} (hp : s.params.stackOperand = .refuse)
include hp

/-- A near operand addressed through ESP is refused before it is read (R112, R113; log 26). -/
theorem nearIndirect_usesEsp {len : Nat} {p : Prefixes} {o : Rm} {next : Word} (hs : rmUsesEsp o = true)
    (hn : nextEip s len = .ok next) :
    toOutcome (nearIndirect s sz len p o) = .refused .stackDependentOperand := by
  simp only [nearIndirect, hn, hs, guardShape_refused hp, ok_bind, error_bind, toOutcome]

/-- A near operand that lies where the call will push is refused (R116). -/
theorem nearIndirect_overlaps {len : Nat} {p : Prefixes} {o : Rm} {next v : Word} (hn : nextEip s len = .ok next)
    (hr : readRm s p sz o = .ok v) (ho : operandOverlaps s (rmRange s p sz o) s.segs.ss.base
      (s.slots (sizeBytes sz) 1) (sizeBytes sz) s.cpl = true) :
    toOutcome (nearIndirect s sz len p o) = .refused .stackDependentOperand := by
  cases hs : rmUsesEsp o with
  | true => exact nearIndirect_usesEsp hp hs hn
  | false =>
    have hshape : guardShape s false = .ok () := guardShape_eq_ok.2 (by simp [shapeAllowed])
    simp only [nearIndirect, hn, hs, hshape, hr, guardOverlap_refused hp ho, ok_bind, error_bind, toOutcome]

/-- A far pointer that lies where a call in Real Address Mode or Virtual 8086 Mode will push is refused (R132). -/
theorem farReal_overlaps {c : FarCtx} {sel : Half} {off : Word} (ho : operandOverlaps s c.opnd s.segs.ss.base
      (s.slots (sizeBytes c.sz) 2) (sizeBytes c.sz) s.cpl = true) :
    toOutcome (farReal s c sel off) = .refused .stackDependentOperand := by
  simp only [farReal, guardOverlap_refused hp ho, error_bind, toOutcome]

/-- A far pointer that lies where a call in Protected Mode that stays on its stack will push is refused (R132). -/
theorem sameStackCommit_overlaps {c : FarCtx} {sel : Half} {d : Desc} {target : Word}
    (ho : operandOverlaps s c.opnd s.segs.ss.base (s.slots (sizeBytes sz) 2) (sizeBytes sz) s.cpl = true) :
    toOutcome (sameStackCommit s c sz sel d target) = .refused .stackDependentOperand := by
  simp only [sameStackCommit, guardOverlap_refused hp ho, error_bind, toOutcome]

end refused

/-! ## The obligation -/

/-- Settles O23: which operands are stack-dependent, then the refusal by each kind of call. -/
theorem stackDependentShapesAreRefused : Obligations.StackDependentShapesAreRefused := by
  refine ⟨fun _ => rmUsesEsp_iff, fun _ _ _ _ _ _ => mem_physAddrs, fun _ _ _ _ _ _ => operandOverlaps_iff,
    fun s hp => ⟨fun p o next hs => ⟨nearIndirect_usesEsp (sz := .w16) hp hs, nearIndirect_usesEsp (sz := .w32) hp hs⟩,
      fun p o next v => ⟨nearIndirect_overlaps (sz := .w16) hp, nearIndirect_overlaps (sz := .w32) hp⟩,
      fun i next sz sel off opnd hn hf hm ho => ?_,
      fun i next sz sel off opnd h => ⟨fun d hd hc hr hl ho => ?_,
        fun g cd gs hg hk hopen hc hcode hmore hs hr hl ho => ?_⟩⟩⟩
  · rw [exec_farForm hn hf, farCall_not_prot hm, farReal_overlaps (c := ⟨sz, next, opnd⟩) hp ho]
  · rw [exec_codeCall h hd hc hr hl, sameStackCommit_overlaps (c := ⟨sz, next, opnd⟩) hp ho]
  · rw [exec_sameGate h hg hk hopen hc hcode hmore hs hr hl, sameStackCommit_overlaps (c := ⟨sz, next, opnd⟩) hp ho]

end Sys2Proof.Machine
end

section
/-! The far pointer and every memory operand: its address and segment in numbers (R86 to R88), its bytes (R137, R51)
and the fault of a pointer that is not wholly in its segment (R135, R137). -/

namespace Sys2Proof.Machine

/-! ## The offset of a memory operand as an integer (R86, R87) -/

/-- Sign extension keeps the signed number, modulo the new width. -/
theorem intCast_toNat_signExtend {v : Nat} (x : BitVec v) (w : Nat) :
    ((x.signExtend w).toNat : Int) = x.toInt % 2 ^ w := by
  rw [BitVec.signExtend, BitVec.toNat_ofInt, Int.toNat_of_nonneg (Int.emod_nonneg _ (by positivity))]
  simp

/-- The displacement of a 16-bit form as a number: `disp8` is signed (R86). -/
def disp16Int : Disp16 → Int
  | .none => 0
  | .d8 b => b.toInt
  | .d16 h => h.toNat

/-- The displacement of a 32-bit form as a number: `disp8` is signed (R87). -/
def disp32Int : Disp32 → Int
  | .none => 0
  | .d8 b => b.toInt
  | .d32 w => w.toNat

/-- The index times two to the scale; 0 without an index (R87). -/
def indexInt (r : Regs) (scale : BitVec 2) : Option Reg → Int
  | none => 0
  | some q => (r.get q).toNat * 2 ^ scale.toNat

theorem toNat_disp16Value (d : Disp16) : ((disp16Value d).toNat : Int) = disp16Int d % 2 ^ 16 := by
  cases d with
  | none => rfl
  | d8 b => exact intCast_toNat_signExtend b 16
  | d16 h => rw [disp16Value, disp16Int]; omega

theorem toNat_disp32Value (d : Disp32) : ((disp32Value d).toNat : Int) = disp32Int d % 2 ^ 32 := by
  cases d with
  | none => rfl
  | d8 b => exact intCast_toNat_signExtend b 32
  | d32 w => rw [disp32Value, disp32Int]; omega

theorem toNat_indexValue (r : Regs) (scale : BitVec 2) (i : Option Reg) :
    ((indexValue r scale i).toNat : Int) = indexInt r scale i % 2 ^ 32 := by
  cases i with
  | none => rfl
  | some q =>
    rw [indexValue, indexInt, BitVec.toNat_shiftLeft, Nat.shiftLeft_eq]
    push_cast
    rfl

theorem toNat_effectiveAddress_based16 (r : Regs) (b : Base16) (d : Disp16) :
    ((effectiveAddress r (.based16 b d)).toNat : Int) = ((base16Value r b).toNat + disp16Int d) % 2 ^ 16 := by
  have hd := toNat_disp16Value d
  rw [effectiveAddress, toNat_zext32, BitVec.toNat_add]
  omega

theorem toNat_effectiveAddress_based32 (r : Regs) (b : Reg) (d : Disp32) :
    ((effectiveAddress r (.based32 b d)).toNat : Int) = ((r.get b).toNat + disp32Int d) % 2 ^ 32 := by
  have hd := toNat_disp32Value d
  rw [effectiveAddress, BitVec.toNat_add]
  omega

theorem toNat_effectiveAddress_sib (r : Regs) (scale : BitVec 2) (i : Option Reg) (b : Reg) (d : Disp32) :
    ((effectiveAddress r (.sib scale i b d)).toNat : Int) =
      ((r.get b).toNat + indexInt r scale i + disp32Int d) % 2 ^ 32 := by
  have hi := toNat_indexValue r scale i
  have hd := toNat_disp32Value d
  rw [effectiveAddress, BitVec.toNat_add, BitVec.toNat_add]
  omega

theorem toNat_effectiveAddress_sibNoBase (r : Regs) (scale : BitVec 2) (i : Option Reg) (d : Word) :
    ((effectiveAddress r (.sibNoBase scale i d)).toNat : Int) = (indexInt r scale i + d.toNat) % 2 ^ 32 := by
  have hi := toNat_indexValue r scale i
  rw [effectiveAddress, BitVec.toNat_add]
  omega

/-! ## The segment of a memory operand (R86 to R88) -/

theorem get_base16Segment (g : Segs) (b : Base16) :
    g.get (base16Segment b) = if b = .bpSi ∨ b = .bpDi ∨ b = .bp then g.ss else g.ds := by
  cases b <;> rfl

theorem get_base32Segment (g : Segs) (b : Reg) :
    g.get (base32Segment b) = if b = .ebp ∨ b = .esp then g.ss else g.ds := by
  cases b <;> rfl

/-! ## Reading the pointer (R137, R51) -/

section pointer
variable {s : State} {p : Prefixes} {m : Mem} {q : Nat → Word}

/-- `m16:16`, byte `k` at its translation `q k`: two offset bytes, then the selector's two (R137, R51, R57). -/
theorem readFarPointer_w16
    (hr : readable s.mode (s.segs.get (operandSegment p m)) (effectiveAddress s.regs m) 4 = true)
    (ht : ∀ k, k < 4 → translate s (linear (s.segs.get (operandSegment p m)) (effectiveAddress s.regs m) +
      BitVec.ofNat 32 k) .read s.cpl = .ok (q k)) :
    readFarPointer s p .w16 m = .ok (memRead s.mem (q 3).toNat ++ memRead s.mem (q 2).toNat,
      zext32 (memRead s.mem (q 1).toNat ++ memRead s.mem (q 0).toNat)) := by
  have hoff := readWord_two fun k hk => ht k (by omega)
  have hsel := readWord_two (p := fun k => q (2 + k)) fun k hk => translate_add (ht (2 + k) (by omega))
  simp only [readFarPointer, sizeBytes, hr, hoff, hsel, require_true, ok_bind, low16_zext32]

/-- `m16:32`, byte `k` at its translation `q k`: four offset bytes, then the selector's two (R137, R51, R57). -/
theorem readFarPointer_w32
    (hr : readable s.mode (s.segs.get (operandSegment p m)) (effectiveAddress s.regs m) 6 = true)
    (ht : ∀ k, k < 6 → translate s (linear (s.segs.get (operandSegment p m)) (effectiveAddress s.regs m) +
      BitVec.ofNat 32 k) .read s.cpl = .ok (q k)) :
    readFarPointer s p .w32 m = .ok (memRead s.mem (q 5).toNat ++ memRead s.mem (q 4).toNat,
      memRead s.mem (q 3).toNat ++ memRead s.mem (q 2).toNat ++ memRead s.mem (q 1).toNat ++
        memRead s.mem (q 0).toNat) := by
  have hoff := readWord_four fun k hk => ht k (by omega)
  have hsel := readWord_two (p := fun k => q (4 + k)) fun k hk => translate_add (ht (4 + k) (by omega))
  simp only [readFarPointer, sizeBytes, hr, hoff, hsel, require_true, ok_bind, low16_zext32]

end pointer

/-- A far call whose pointer is not wholly in its segment (R135, R137). -/
theorem farIndirect_unreadable {s : State} {sz : Size} {len : Nat} {p : Prefixes} {m : Mem} {next : Word}
    (hn : nextEip s len = .ok next)
    (hr : readable s.mode (s.segs.get (operandSegment p m)) (effectiveAddress s.regs m) (sizeBytes sz + 2) = false) :
    toOutcome (farIndirect s sz len p m) = .fault (operandFault s.mode (operandSegment p m)) := by
  simp only [farIndirect, readFarPointer, hn, hr, require_false, ok_bind, error_bind, toOutcome]

/-! ## The obligations -/

/-- Settles O30: the one check of the whole pointer fails before anything is read. -/
theorem farPointerFaults : Obligations.FarPointerFaults :=
  fun _ _ _ _ => ⟨farIndirect_unreadable (sz := .w16), farIndirect_unreadable (sz := .w32)⟩

/-- Settles O29, from the two reads of a pointer, the bytes of a value, and the sum and segment of each operand form. -/
theorem farPointerIsOffsetThenSelector : Obligations.FarPointerIsOffsetThenSelector := by
  refine ⟨fun s p m hp => ?_,
    fun s cpl lin p => ⟨fun h => ?_, readWord_four⟩, fun s name off n h => ?_, fun r m => ?_, fun g p m => ?_⟩
  · intro lin byte
    exact ⟨fun h => readFarPointer_w16 (q := fun k => lin + BitVec.ofNat 32 k) h
        fun _ _ => translate_paging_off hp ..,
      fun h => readFarPointer_w32 (q := fun k => lin + BitVec.ofNat 32 k) h fun _ _ => translate_paging_off hp ..⟩
  · rw [readWord_two h, zext32_eq_append]
  · rw [segRead, h, require_true, ok_bind, linear]
  · intro x x16 disp16 disp32 index
    have hx (q : Reg) : ((r.get q).toNat : Int) = x q := by cases q <;> rfl
    have hx16 (q : Reg) : ((r.get16 q).toNat : Int) = x16 q := by
      rw [Regs.get16, toNat_low16, Int.natCast_emod, hx]
      rfl
    have hindex (scale : BitVec 2) (i : Option Reg) : indexInt r scale i = index scale i := by
      cases i with
      | none => rfl
      | some q => rw [indexInt, hx]
    cases m with
    | direct16 d => rw [effectiveAddress, toNat_zext32]
    | direct32 d => rfl
    | based16 b d =>
      rw [toNat_effectiveAddress_based16, show disp16Int d = disp16 d from rfl]
      cases b <;> simp only [base16Value, BitVec.toNat_add, Int.natCast_emod, Int.natCast_add, hx16] <;> omega
    | based32 b d => rw [toNat_effectiveAddress_based32, hx]; rfl
    | sib scale i b d => rw [toNat_effectiveAddress_sib, hx, hindex]; rfl
    | sibNoBase scale i d => rw [toNat_effectiveAddress_sibNoBase, hindex]
  · obtain ⟨_, _, seg⟩ := p
    cases seg with
    | some name => cases name <;> rfl
    | none =>
      cases m with
      | direct16 | direct32 | sibNoBase => rfl
      | based16 b => exact get_base16Segment g b
      | based32 b => exact get_base32Segment g b
      | sib _ _ b => exact get_base32Segment g b

end Sys2Proof.Machine
end

section
/-! The far calls outside Protected Mode (R134): when one completes, what its two checks raise, what it leaves alone,
and the return address it leaves on the stack, which a far call in Protected Mode leaves alike (R157, R162). -/

namespace Sys2Proof.Machine

/-! ## LoadCS_real (R24) -/

/-- The limit that `LoadCS_real` loads, by the mode (R24). -/
theorem loadCsReal_eq (s : State) (sel : Half) : loadCsReal s sel =
    { s with segs := { s.segs with cs := { s.segs.cs with
      sel := sel
      base := zext32 sel * 16
      limit := if s.mode = .v86 then 0xFFFF else s.segs.cs.limit } } } := by
  simp only [loadCsReal]
  cases s.mode <;> rfl

theorem mode_farPushedState (s : State) (sz : Size) (next : Word) : (farPushedState s sz next).mode = s.mode :=
  (keepsSystem_farPushedState s sz next).mode

/-! ## The two checks (R134, D19) -/

theorem stackFault_not_prot {md : Mode} (h : md ≠ .prot) : stackFault md = .realLimit := by
  cases md with
  | prot => exact absurd rfl h
  | real | v86 => rfl

theorem targetFault_not_prot {md : Mode} (h : md ≠ .prot) : targetFault md = .realLimit := by
  cases md with
  | prot => exact absurd rfl h
  | real | v86 => rfl

/-- A far call outside Protected Mode that fails a check raises the fault without a number (R134, D19). -/
theorem farReal_fails {s : State} {c : FarCtx} {sel : Half} {off : Word} (hm : s.mode ≠ .prot)
    (ho : overlapAllowed s c.opnd (sizeBytes c.sz) 2 = true)
    (h : s.room (sizeBytes c.sz) 2 = false ∨ inCodeLimit s.mode s.segs.cs.limit off = false) :
    farReal s c sel off = .error (.fault .realLimit) := by
  simp only [farReal, (guardOverlap_eq_ok (u := ())).2 ho, ok_bind]
  cases hr : s.room (sizeBytes c.sz) 2 with
  | false => rw [require_false, error_bind, stackFault_not_prot hm]
  | true =>
    have hl : inCodeLimit s.mode s.segs.cs.limit off = false := by simpa [hr] using h
    rw [require_true, ok_bind, hl, require_false, error_bind, targetFault_not_prot hm]

/-! ## What answers -/

/-- The pointer's operand size is the one that selects the form (R95). -/
theorem farForm_size {s : State} {i : Instr} {sz : Size} {sel : Half} {off : Word} {opnd : OperandRange}
    (h : farForm s i = some (sz, sel, off, opnd)) : sz = i.opSize := by
  cases i with
  | callRel16 | callRm16 | callRel32 | callRm32 => cases h
  | callPtr1616 | callPtr1632 => cases h; rfl
  | callM1616 | callM1632 =>
    simp only [farForm] at h
    split at h
    · cases h; rfl
    · cases h

/-- Everything a far call outside Protected Mode can have done when it answers (R134, R39). -/
theorem exec_far_next {i : Instr} {s t : State} (hi : isNear i = false) (hm : s.mode ≠ .prot)
    (h : exec i s = .next t) :
    ∃ next sel off, t = (loadCsReal (farPushedState s i.opSize next) sel).withEip off := by
  obtain ⟨hn, -⟩ | ⟨-, next, sz, sel, off, opnd, -, hf, hc⟩ := exec_next h
  · simp [hi] at hn
  · rw [farCall_not_prot hm] at hc
    obtain ⟨-, -, -, ht⟩ := farReal_eq_ok.1 hc
    exact ⟨next, sel, off, farForm_size hf ▸ ht⟩

/-! ## The two pushes -/

theorem length_farPushes {s : State} {sz : Size} {next : Word} :
    ∀ x ∈ [selectorBytes s.draws sz s.segs.cs.sel, bytesOf sz next], x.length = sizeBytes sz := by
  simp

/-- The two pushes leave every byte but those at their slots (R39). -/
theorem memRead_farPushedState {s : State} {sz : Size} {next : Word} {a : Nat} (hw : Memory.wf s.mem = true)
    (ha : ∀ off ∈ s.slots (sizeBytes sz) 2,
      a ∉ physAddrs s .write s.cpl (linear s.segs.ss off) (sizeBytes sz)) :
    memRead (farPushedState s sz next).mem a = memRead s.mem a :=
  memRead_pushedStates _ hw length_farPushes ha

/-- The two pushes move the stack pointer two slots down (R56). -/
theorem sp_farPushedState (s : State) (sz : Size) (next : Word) :
    (farPushedState s sz next).sp = stackDown s.stackSize s.sp (2 * sizeBytes sz) :=
  (sp_pushedStates s.cpl (sizeBytes sz) _ s.regs.esp length_farPushes rfl).trans (cut_sub ..).symm

/-- Byte `j` of the first or the second push, in its slot (R56, R61). -/
theorem memRead_farPushedState_slot {s : State} {sz : Size} {next : Word} {i j : Nat} {x : List Byte} {b : Byte}
    (hp : s.paging = false) (hw : Memory.wf s.mem = true)
    (hi : [selectorBytes s.draws sz s.segs.cs.sel, bytesOf sz next][i]? = some x) (hj : x[j]? = some b) :
    memRead (farPushedState s sz next).mem
      (linear s.segs.ss (stackDown s.stackSize s.sp ((i + 1) * sizeBytes sz)) + BitVec.ofNat 32 j).toNat = b := by
  rw [State.sp, stackPointer, stackDown, cut_sub]
  exact memRead_pushedStates_slot (cpl := s.cpl) _ hp hw length_farPushes (by cases sz <;> simp [sizeBytes]) rfl hi hj

/-! ## The obligations -/

/-- Settles O31: FarCallRealV86 answers, and `LoadCS_real` loads CS. -/
theorem farCallOutsideProtectedModeCompletes : Obligations.FarCallOutsideProtectedModeCompletes := by
  intro s i next sz sel off opnd hm hn hf ho hl hp
  have hlim : inCodeLimit s.mode s.segs.cs.limit off = true := by rwa [inCodeLimit_iff, if_neg hm]
  have answers : farReal s ⟨sz, next, opnd⟩ sel off =
      .ok ((loadCsReal (farPushedState s sz next) sel).withEip off) := farReal_eq_ok.2 ⟨ho, hlim, hp, rfl⟩
  refine ⟨_, by rw [exec_farForm hn hf, farCall_not_prot hm, answers, toOutcome], ?_⟩
  rw [loadCsReal_eq, mode_farPushedState]
  rfl

/-- Settles O32: both checks of FarCallRealV86 raise the same fault. -/
theorem farCallOutsideProtectedModeFaults : Obligations.FarCallOutsideProtectedModeFaults := by
  intro s i next sz sel off opnd hm hn hf ho h
  have hlim : inCodeLimit s.mode s.segs.cs.limit off = false ↔ 0xFFFF < off.toNat := by
    rw [← Bool.not_eq_true, inCodeLimit_iff, if_neg hm, Nat.not_le]
  rw [← hlim] at h
  rw [exec_farForm hn hf, farCall_not_prot hm, farReal_fails (c := ⟨sz, next, opnd⟩) hm ho h, toOutcome]

/-- Settles O33, from the frame of the two pushes; the stack outside Protected Mode is 16-bit. -/
theorem farCallOutsideProtectedModeFrame : Obligations.FarCallOutsideProtectedModeFrame := by
  intro s t i hi hm hw h
  have keeps := keepsSystem_exec h
  obtain ⟨next, sel, off, rfl⟩ := exec_far_next hi hm h
  refine ⟨keeps.system, keeps.regs, keeps.dataSegs, rfl, rfl, ?_, rfl, rfl, fun a => memRead_farPushedState hw⟩
  exact esp_high_pushedStates (cpl := s.cpl) _ (stackSize_not_prot hm)

/-- Settles O26: each byte read lies in the slot of its push; the padding lies above the selector's two bytes. -/
theorem farReturnAddressReadsBack : Obligations.FarReturnAddressReadsBack := by
  intro s sz next hp hw t
  have hpt : t.paging = false := (paging_congr rfl).trans hp
  refine ⟨sp_farPushedState s sz next, readWord_bytesOf hpt fun j b hj => ?_, readWord_half hpt fun j b hj => ?_⟩
  · rw [sp_farPushedState]
    exact memRead_farPushedState_slot (i := 1) hp hw rfl hj
  · have hslot := memRead_farPushedState_slot (next := next) (i := 0) hp hw rfl
      (selectorBytes_low (n := s.draws) (sz := sz) hj)
    rwa [Nat.zero_add, Nat.one_mul] at hslot

end Sys2Proof.Machine
end

section
/-! Far calls in Protected Mode: the checks of the selector (R151, R152, R154), the direct calls to code segments (R155
to R157), when they complete, what their checks raise and what they leave alone. -/

namespace Sys2Proof.Machine

/-! ## Entry (R150 to R154) -/

/-- A far call in Protected Mode is `FarCallProtected` of its pointer (R136). -/
theorem exec_farInProt {s : State} {i : Instr} {next off : Word} {sz : Size} {sel : Half} {opnd : OperandRange}
    (h : farInProt s i next sz sel off opnd) :
    exec i s = toOutcome (farProtected s ⟨sz, next, opnd⟩ sel off) := by
  obtain ⟨hm, hnext, hform⟩ := h
  rw [exec_farForm hnext hform, farCall_prot hm]

theorem farProtected_null {s : State} {c : FarCtx} {sel : Half} {off : Word} (h : selNull sel = true) :
    farProtected s c sel off = .error (.fault (.gp 0)) := by
  simp only [farProtected, h, Bool.not_true, require_false, error_bind]

theorem farProtected_outside {s : State} {c : FarCtx} {sel : Half} {off : Word} (hn : selNull sel = false)
    (h : selInTable s sel = false) : farProtected s c sel off = .error (.fault (.gp (ec sel))) := by
  simp only [farProtected, hn, h, Bool.not_false, require_true, require_false, ok_bind, error_bind]

/-- What puts a selector outside its table, on the raw bits (R30, R152, U26). -/
theorem selInTable_eq_false {s : State} {sel : Half} : selInTable s sel = false ↔
    if sel.getLsbD 2 then
      s.ldtr.valid = false ∨ s.ldtr.limit.toNat < (sel.extractLsb' 3 13).toNat * 8 + 7
    else s.gdtr.limit.toNat < (sel.extractLsb' 3 13).toNat * 8 + 7 := by
  rw [selInTable, selLocal, selInGdt, selIndex]
  split
  · simp only [Bool.and_eq_false_iff, decide_eq_false_iff_not, Nat.not_le]
  · simp only [decide_eq_false_iff_not, Nat.not_le]

/-- A selector outside the local table is looked up in the GDT (R30). -/
theorem selInTable_global {s : State} {sel : Half} (h : selLocal sel = false) : selInTable s sel = selInGdt s sel := by
  rw [selInTable, h]
  rfl

/-- Two checks in a row that raise the same exception are one check of both. -/
theorem require_require {a b : Bool} {f : Fault} {k : Unit → Except Stop State} :
    (require a f >>= fun _ => require b f >>= k) = (require (a && b) f >>= k) := by
  cases a <;> rfl

/-- A privilege comparison that fails, the other way round. -/
theorem ule_eq_false {w : Nat} {x y : BitVec w} : x.ule y = false ↔ y.ult x = true := by
  rw [BitVec.ule_eq_not_ult, Bool.not_eq_false']

/-! ## Direct calls to code segments (R155 to R157) -/

theorem sameStackFits_iff {s : State} {opnd : OperandRange} {sz : Size} {sel : Half} {d : Desc} :
    sameStackFits s opnd sz sel d = true ↔ overlapAllowed s opnd (sizeBytes sz) 2 = true ∧
      pushFits s s.cpl (sizeBytes sz) 2 = true ∧ accessedFits s sel d = true := by
  simp only [sameStackFits, Bool.and_eq_true, and_assoc]

/-- The commit of a call that stays on its stack answers when its writes fit (R157, R162). -/
theorem sameStackCommit_completes {s : State} {c : FarCtx} {sz : Size} {sel : Half} {d : Desc} {target : Word}
    (h : sameStackFits s c.opnd sz sel d = true) :
    toOutcome (sameStackCommit s c sz sel d target) = .next (sameStackState s sz c.next sel d target) := by
  obtain ⟨ho, hp, ha⟩ := sameStackFits_iff.1 h
  exact toOutcome_next.2 (sameStackCommit_eq_ok.2 ⟨ho, hp, ha, rfl⟩)

theorem room_of_sameStackFits {s : State} {opnd : OperandRange} {sz : Size} {sel : Half} {d : Desc}
    (h : sameStackFits s opnd sz sel d = true) : s.room (sizeBytes sz) 2 = true :=
  room_of_pushFits (sameStackFits_iff.1 h).2.1

section codeCall
variable {s : State} {i : Instr} {next off : Word} {sz : Size} {sel : Half} {opnd : OperandRange} {d : Desc}
  (h : farInProt s i next sz sel off opnd) (hn : names s sel d)
include h hn

/-- A direct call to a code segment whose checks pass and whose writes fit (R155 to R157). -/
theorem exec_codeCall_completes (hc : codeCallOk s sel d) (hl : (cut sz off).toNat ≤ (descLimit d).toNat)
    (hf : sameStackFits s opnd sz sel d = true) :
    exec i s = .next (sameStackState s sz next sel d (cut sz off)) := by
  rw [exec_codeCall h hn hc (room_of_sameStackFits hf) hl,
    sameStackCommit_completes (c := ⟨sz, next, opnd⟩) hf]

/-- What a direct call to a code segment can have done when it answers (R157). -/
theorem exec_code_next {t : State}
    (hk : descKind (descAr d) = .conformingCode ∨ descKind (descAr d) = .nonConformingCode)
    (ht : exec i s = .next t) : t = sameStackState s sz next sel d (cut sz off) := by
  rw [exec_named h hn, toOutcome_next, farByKind] at ht
  obtain hk | hk := hk <;> rw [hk] at ht
  · obtain ⟨-, -, -, -, -, -, rfl⟩ := callConforming_eq_ok.1 ht
    rfl
  · obtain ⟨-, -, -, -, -, -, -, rfl⟩ := callNonConforming_eq_ok.1 ht
    rfl

end codeCall

/-! ## The obligations: selectors and code segments -/

/-- Settles O34: P1 fails. -/
theorem nullSelectorFaults : Obligations.NullSelectorFaults := by
  intro s i next sz sel off opnd h hs
  rw [exec_farInProt h, farProtected_null (by rw [selNull, hs]; rfl), toOutcome]

/-- Settles O35: P1 holds and P2 fails. -/
theorem selectorOutsideItsTableFaults : Obligations.SelectorOutsideItsTableFaults := by
  intro s i next sz sel off opnd h hs hl
  rw [exec_farInProt h, farProtected_outside (beq_false_of_ne hs) (selInTable_eq_false.2 hl), toOutcome, ec]

/-- Settles O36: P3 selects no path. -/
theorem illegalDescriptorFaults : Obligations.IllegalDescriptorFaults := by
  intro s i next sz sel off opnd d h hn hk
  simp only [exec_named h hn, farByKind, hk, raise, toOutcome]

/-- Settles O38, from the commit that K1 to K4 lead to. -/
theorem conformingCallCompletes : Obligations.ConformingCallCompletes := by
  intro s i next sz sel off opnd d h hn hk hd hp hl hf
  obtain ⟨hcpl, hsegs, -⟩ := sameStackState_fields s sz next sel d (cut sz off)
  refine ⟨_, exec_codeCall_completes h hn ⟨hp, .inl ⟨hk, hd⟩⟩ hl hf, rfl, hcpl, ?_⟩
  rw [hsegs]
  exact ⟨rfl, rfl, rfl, rfl⟩

/-- Settles O39, check by check. -/
theorem conformingCallChecks : Obligations.ConformingCallChecks := by
  intro s i next sz sel off opnd d h hn hk
  simp only [exec_named h hn, farByKind, hk, callConforming]
  refine ⟨fun hd => ?_, fun hd => ⟨fun hp => ?_, fun hp => ⟨fun hr => ?_, fun hr hl => ?_⟩⟩⟩
  · simp only [ule_eq_false.2 hd, require_false, error_bind, toOutcome]
  · simp only [hd, hp, require_true, require_false, ok_bind, error_bind, toOutcome]
  · simp only [hd, hp, hr, require_true, require_false, ok_bind, error_bind, toOutcome]
  · simp only [hd, hp, hr, decide_eq_false (Nat.not_le.2 hl), require_true, require_false, ok_bind, error_bind,
      toOutcome]

/-- Settles O40: each check in its place, then the commit that they lead to. -/
theorem nonConformingCall : Obligations.NonConformingCall := by
  intro s i next sz sel off opnd d h hn hk
  have run : exec i s = toOutcome (callNonConforming s ⟨sz, next, opnd⟩ sel d off) := by
    rw [exec_named h hn, farByKind, hk]
  have above : s.cpl.toNat < (selRpl sel).toNat ↔ s.cpl.ult (selRpl sel) = true := BitVec.ult_iff_lt.symm
  have within : (selRpl sel).toNat ≤ s.cpl.toNat ↔ (selRpl sel).ule s.cpl = true := BitVec.ule_iff_le.symm
  simp only [above, within]
  refine ⟨fun hr => ?_, fun hr hd => ?_, fun hr hd hp => ?_, fun hr hd hp hm => ?_, fun hr hd hp hm hl => ?_,
    fun hr hd hp hl hf => ?_⟩
  · simp only [run, callNonConforming, ule_eq_false.2 hr, require_false, error_bind, toOutcome]
  · simp only [run, callNonConforming, hr, beq_false_of_ne hd, require_true, require_false, ok_bind, error_bind,
      toOutcome]
  · simp only [run, callNonConforming, hr, hd, beq_self_eq_true, hp, require_true, require_false, ok_bind, error_bind,
      toOutcome]
  · simp only [run, callNonConforming, hr, hd, beq_self_eq_true, hp, hm, require_true, require_false, ok_bind,
      error_bind, toOutcome]
  · simp only [run, callNonConforming, hr, hd, beq_self_eq_true, hp, hm, decide_eq_false (Nat.not_le.2 hl),
      require_true, require_false, ok_bind, error_bind, toOutcome]
  · obtain ⟨hcpl, hsegs, heip⟩ := sameStackState_fields s sz next sel d (cut sz off)
    refine ⟨_, exec_codeCall_completes h hn ⟨hp, .inr ⟨hk, hr, hd⟩⟩ hl hf, rfl, hcpl, ?_⟩
    rw [hsegs]
    exact ⟨rfl, rfl, rfl, rfl, heip⟩

/-- Settles O47, from the frame of the state that a call that stays on its stack leaves. -/
theorem codeSegmentCallFrame : Obligations.CodeSegmentCallFrame := by
  intro s t i next sz sel off opnd d h hn hk hw ht
  rw [exec_code_next h hn hk ht]
  exact sameStackState_frame hw

end Sys2Proof.Machine
end

section
/-! Far calls that would switch tasks (R163 to R165): the checks of a task gate and of a TSS. Every other CALL leaves the
flags alone (R166). -/

namespace Sys2Proof.Machine

/-! ## The checks -/

/-- Settles O50, check by check; T1 and T2 raise the same exception, and so do T4 to T6. -/
theorem taskGateChecks : Obligations.TaskGateChecks := by
  intro s i next sz gsel off opnd g h hn hk
  simp only [exec_named h hn, farByKind, hk, callTaskGate, require_require]
  refine ⟨fun hd => ?_, fun hc hr => ⟨fun hp => ?_, fun hp => ?_⟩⟩
  · have hfail : (s.cpl.ule (descDpl g) && (selRpl gsel).ule (descDpl g)) = false := by
      rwa [Bool.and_eq_false_iff, ule_eq_false, ule_eq_false]
    simp only [hfail, require_false, error_bind, toOutcome]
  · simp only [hc, hr, hp, Bool.and_self, require_true, require_false, ok_bind, error_bind, toOutcome]
  · simp only [hc, hr, hp, Bool.and_self, require_true, ok_bind]
    refine ⟨fun ht => ?_, fun ht => ?_, fun hnull hloc hin hu => ?_, fun td hloc ⟨hnull, hin, htd⟩ => ?_⟩
    · have hfail : (!selLocal (gateSelector g) && (selInGdt s (gateSelector g) && !selNull (gateSelector g))) = false := by
        obtain ht | ht := ht <;> simp [ht]
      simp only [hfail, require_false, error_bind, toOutcome]
    · simp only [ht, Bool.not_true, Bool.and_false, require_false, error_bind, toOutcome, ec_null ht]
    · simp only [hnull, hloc, hin, readDescriptor_untranslated hu, Bool.not_false, Bool.and_self, require_true, ok_bind,
        error_bind, toOutcome_noPage]
    · rw [selInTable_global hloc] at hin
      simp only [hnull, hloc, hin, htd, Bool.not_false, Bool.and_self, require_true, ok_bind]
      refine ⟨fun ha => ?_, fun ha hp => ?_, fun ha hp => ?_⟩
      · simp only [ha, require_false, error_bind, toOutcome]
      · simp only [ha, hp, require_true, require_false, ok_bind, error_bind, toOutcome]
      · simp only [ha, hp, require_true, ok_bind, refuse, toOutcome]

/-- Settles O51, check by check; X1 to X3 raise the same exception. -/
theorem tssChecks : Obligations.TssChecks := by
  intro s i next sz tsel off opnd td h hn hk
  simp only [exec_named h hn, farByKind, hk, callTss, require_require]
  refine ⟨fun hl => ?_, fun hl => ?_⟩
  · simp only [hl, if_true, refuse, toOutcome]
  simp only [hl, Bool.false_eq_true, if_false]
  refine ⟨fun hx => ?_, fun hc hr ha => ⟨fun hp => ?_, fun hp => ?_⟩⟩
  · have hfail : (s.cpl.ule (descDpl td) && ((selRpl tsel).ule (descDpl td) && availableTss (descAr td))) = false := by
      rwa [Bool.and_eq_false_iff, Bool.and_eq_false_iff, ule_eq_false, ule_eq_false]
    simp only [hfail, require_false, error_bind, toOutcome]
  · simp only [hc, hr, ha, hp, Bool.and_self, require_true, require_false, ok_bind, error_bind, toOutcome]
  · simp only [hc, hr, ha, hp, Bool.and_self, require_true, ok_bind, refuse, toOutcome]

/-! ## Flags (R166) -/

/-- Settles O60, from the frame of every CALL. -/
theorem noFlagIsAffectedWithoutTaskSwitch : Obligations.NoFlagIsAffectedWithoutTaskSwitch := by
  refine ⟨fun s t i h => (keepsSystem_exec h).eflags, fun s t h => ?_⟩
  obtain ⟨i, -, -, hi⟩ := step_next h
  exact (keepsSystem_exec hi).eflags

end Sys2Proof.Machine
end

section
/-! Far calls through call gates (R158, R159): the checks of the gate and of the code segment it names, the size of the
call, and the calls that stay at the same privilege (R162). -/

namespace Sys2Proof.Machine

/-! ## What a gate call that answers has passed (R158) -/

section answers
variable {s t : State} {i : Instr} {next off : Word} {sz : Size} {gsel : Half} {opnd : OperandRange} {g cd : Desc}
  (h : farInProt s i next sz gsel off opnd) (hn : names s gsel g) (hk : descKind (descAr g) = .callGate)
  (hc : names s (gateSelector g) cd) (ht : exec i s = .next t)
include h hn hk hc ht

/-- A call through a gate that answers has passed G1 to G8. -/
theorem gateChecks_of_exec_next : gateOpen s gsel g = true ∧ gateCodeOk s cd = true := by
  rw [exec_named h hn, toOutcome_next, farByKind, hk] at ht
  obtain ⟨cd', g1, g2, g3, g4, g5, hr, g6, g7, g8, -⟩ := callGate_ok ht
  obtain ⟨-, -, hread⟩ := hc
  cases hr.symm.trans hread
  exact ⟨by rw [gateOpen, g1, g2, g3, g4, g5]; rfl, by rw [gateCodeOk, g6, g7, g8]; rfl⟩

theorem callGateSame_of_exec_next (hm : toMorePrivilege s cd = false) :
    callGateSame s ⟨sz, next, opnd⟩ g (gateSelector g) cd = .ok t := by
  obtain ⟨hopen, hcode⟩ := gateChecks_of_exec_next h hn hk hc ht
  rwa [exec_gateOpen h hn hk hopen hc hcode, hm, toOutcome_next] at ht

theorem callGateMore_of_exec_next (hm : toMorePrivilege s cd = true) :
    callGateMore s ⟨sz, next, opnd⟩ g (gateSelector g) cd = .ok t := by
  obtain ⟨hopen, hcode⟩ := gateChecks_of_exec_next h hn hk hc ht
  rwa [exec_gateOpen h hn hk hopen hc hcode, hm, toOutcome_next] at ht

end answers

/-! ## The size of a gate call (R159) -/

section gateSize
variable {s : State} {sz : Size} {g : Desc}

/-- The size of the gate's type: 32 for type C and 16 for type 4. -/
def gateTypeSize (g : Desc) : Size := if arType (descAr g) = 0xC then .w32 else .w16

theorem gateTypeSize_eq (g : Desc) : gateTypeSize g = if gateIs386 g then .w32 else .w16 := by
  simp only [gateTypeSize, gateIs386, beq_iff_eq]

theorem gateSize_agree (h : sz = gateTypeSize g) : gateSize s sz g = .ok sz := by
  rw [gateTypeSize_eq] at h
  rw [gateSize, if_pos h, h]

section differ
variable (h : sz ≠ gateTypeSize g)
include h

theorem gateSize_refuseMixed (hp : s.params.gateSize = .refuseMixed) :
    gateSize s sz g = .error (.refuse .mixedGateSize) := by
  rw [gateTypeSize_eq] at h
  simp only [gateSize, if_neg h, hp, refuse]

theorem gateSize_operandSize (hp : s.params.gateSize = .operandSize) : gateSize s sz g = .ok sz := by
  rw [gateTypeSize_eq] at h
  simp only [gateSize, if_neg h, hp]

theorem gateSize_gateType (hp : s.params.gateSize = .gateType) : gateSize s sz g = .ok (gateTypeSize g) := by
  rw [gateTypeSize_eq] at h ⊢
  simp only [gateSize, if_neg h, hp]

end differ

/-- A gate call of mixed size is refused under the default parameter (R159, D10). -/
theorem gateSize_mixed (hp : s.params.gateSize = .refuseMixed) (hm : sz = .w16 ↔ gateIs386 g = true) :
    gateSize s sz g = .error (.refuse .mixedGateSize) := by
  refine gateSize_refuseMixed ?_ hp
  rw [gateTypeSize_eq]
  cases hg : gateIs386 g <;> cases sz <;> simp [hg] at hm ⊢

end gateSize

/-! ## The obligations -/

/-- Settles O41, check by check; G1 and G2 raise the same exception, and so do G6 and G7. -/
theorem callGateChecks : Obligations.CallGateChecks := by
  intro s i next sz gsel off opnd g h hn hk
  simp only [exec_named h hn, farByKind, hk, callGate, require_require]
  refine ⟨fun hd => ?_, fun hc hr => ⟨fun hp => ?_, fun hp => ?_⟩⟩
  · have hfail : (s.cpl.ule (descDpl g) && (selRpl gsel).ule (descDpl g)) = false := by
      rwa [Bool.and_eq_false_iff, ule_eq_false, ule_eq_false]
    simp only [hfail, require_false, error_bind, toOutcome]
  · simp only [hc, hr, hp, Bool.and_self, require_true, require_false, ok_bind, error_bind, toOutcome]
  · simp only [hc, hr, hp, Bool.and_self, require_true, ok_bind]
    refine ⟨fun hnull => ?_, fun hnull hin => ?_, fun hnull hin hu => ?_, fun cd ⟨hnull, hin, hcd⟩ => ?_⟩
    · simp only [hnull, Bool.not_true, require_false, error_bind, toOutcome]
    · simp only [hnull, hin, Bool.not_false, require_true, require_false, ok_bind, error_bind, toOutcome]
    · simp only [hnull, hin, readDescriptor_untranslated hu, Bool.not_false, require_true, ok_bind, error_bind,
        toOutcome_noPage]
    · simp only [hnull, hin, hcd, Bool.not_false, require_true, ok_bind]
      refine ⟨fun hx => ?_, fun hcode hdpl hpres => ?_⟩
      · have hfail : (arCode (descAr cd) && (descDpl cd).ule s.cpl) = false := by
          rwa [Bool.and_eq_false_iff, ule_eq_false]
        simp only [hfail, require_false, error_bind, toOutcome]
      · simp only [hcode, hdpl, hpres, Bool.and_self, require_true, require_false, ok_bind, error_bind, toOutcome]

/-- Settles O42, from the commit that S1 and S2 lead to. -/
theorem samePrivilegeGateCompletes : Obligations.SamePrivilegeGateCompletes := by
  intro s i next sz gs gsel off opnd g cd h hn hk ho hc hg hm hs hl hf
  obtain ⟨hcpl, hsegs, heip⟩ := sameStackState_fields s gs next (gateSelector g) cd (gateEntry gs g)
  refine ⟨_, ?_, rfl, hcpl, by rw [hsegs], heip⟩
  rw [exec_sameGate h hn hk ho hc hg hm hs (room_of_sameStackFits hf) hl,
    sameStackCommit_completes (c := ⟨sz, next, opnd⟩) hf]

/-- Settles O43: the size of the call, then S1 and S2. -/
theorem samePrivilegeGateChecks : Obligations.SamePrivilegeGateChecks := by
  refine ⟨fun s sz g => ?_, fun s i next sz gsel off opnd g cd h hn hk ho hc hg hm => ?_⟩
  · exact ⟨gateSize_agree, fun hd => ⟨gateSize_refuseMixed hd, gateSize_operandSize hd, gateSize_gateType hd⟩⟩
  · simp only [exec_gateOpen h hn hk ho hc hg, hm, Bool.false_eq_true, if_false, callGateSame]
    refine ⟨fun hp hmix => ?_, fun gs hs => ⟨fun hr => ?_, fun hr hl => ?_⟩⟩
    · simp only [gateSize_mixed hp hmix, error_bind, toOutcome]
    · simp only [hs, hr, require_false, ok_bind, error_bind, toOutcome]
    · simp only [hs, hr, decide_eq_false (Nat.not_le.2 hl), require_true, require_false, ok_bind, error_bind, toOutcome]

/-- Settles O48, from the frame of the state that a call that stays on its stack leaves. -/
theorem samePrivilegeGateFrame : Obligations.SamePrivilegeGateFrame := by
  intro s t i next sz gs gsel off opnd g cd h hn hk hc hm hs hw ht
  obtain ⟨gs', hs', -, -, -, -, rfl⟩ := callGateSame_eq_ok.1 (callGateSame_of_exec_next h hn hk hc ht hm)
  cases hs'.symm.trans hs
  exact sameStackState_frame hw

end Sys2Proof.Machine
end

section
/-! Far calls through a call gate to more privilege (R160, R161): the checks of the new stack, the call that completes,
and what it leaves alone. -/

namespace Sys2Proof.Machine

/-! ## The stack in the TSS (R34, R160) -/

section tssStack
variable {s : State} {n : Nat}

theorem tssStack_tooSmall (h : s.tr.limit.toNat < tssSsOffset s.tr.kind n + 1) :
    tssStack s n = .error (.fault (.ts (ec s.tr.sel))) := by
  simp only [tssStack, decide_eq_false (Nat.not_le.2 h), require_false, error_bind]

theorem tssStack_untranslated (hl : tssSsOffset s.tr.kind n + 1 ≤ s.tr.limit.toNat)
    (h : translates s .read 0 (s.tr.base + BitVec.ofNat 32 (tssSpOffset s.tr.kind n)) (tssSpBytes s.tr.kind) = false ∨
      translates s .read 0 (s.tr.base + BitVec.ofNat 32 (tssSsOffset s.tr.kind n)) 2 = false) :
    tssStack s n = .error (noPage s) := by
  simp only [tssStack, decide_eq_true hl, require_true, ok_bind]
  cases hsp : translates s .read 0 (s.tr.base + BitVec.ofNat 32 (tssSpOffset s.tr.kind n)) (tssSpBytes s.tr.kind) with
  | false => simp only [readWord_untranslated hsp, error_bind]
  | true =>
    obtain ⟨sp, hr⟩ := readWord_translated hsp
    have hss : translates s .read 0 (s.tr.base + BitVec.ofNat 32 (tssSsOffset s.tr.kind n)) 2 = false :=
      h.resolve_left (by simp only [hsp, reduceCtorEq, not_false_eq_true])
    simp only [hr, readWord_untranslated hss, ok_bind, error_bind]

end tssStack

/-! ## After M6: the new stack pointer and the size of the call (R159, R161) -/

/-- The new stack pointer at most draws free values (R161, U8). -/
theorem exists_draws_of_newStackPointer {s s' : State} {sp nsp : Word} {sd : Desc}
    (h : newStackPointer s sp sd = .ok (s', nsp)) : ∃ n, s' = s.withDraws n :=
  ⟨_, newStackPointer_frame h⟩

theorem physAddrs_withDraws (s : State) (n : Nat) (kind : AccessKind) (cpl : BitVec 2) (lin : Word) (k : Nat) :
    physAddrs (s.withDraws n) kind cpl lin k = physAddrs s kind cpl lin k :=
  physAddrs_congr (s := s) (t := s.withDraws n) rfl rfl ..

theorem newStackPointer_wide {s : State} {sp : Word} {sd : Desc} (hk : s.tr.kind = .tss286) (hd : descDb sd = true)
    (hp : s.params.tss286Wide = .refuse) : newStackPointer s sp sd = .error (.refuse .tss286WideStack) := by
  simp only [newStackPointer, hk, hd, and_self, if_true, hp, refuse]

section overlap
variable {s : State} {opnd : OperandRange} {gs : Size} {count : Nat} {cd sd : Desc} {nsp : Word}

theorem guardOverlap_newStack_allowed (h : newStackOverlapAllowed s opnd gs count cd sd nsp = true) :
    guardOverlap s opnd (descBase sd)
      (pushSlots (descStackSize sd) (sizeBytes gs) (cut (descStackSize sd) nsp) (4 + count)) (sizeBytes gs)
      (newStackCpl s.cpl (descDpl cd)) = .ok () :=
  guardOverlap_ok_iff.2 h

theorem guardOverlap_newStack_refused (h : newStackOverlapAllowed s opnd gs count cd sd nsp = false) :
    guardOverlap s opnd (descBase sd)
      (pushSlots (descStackSize sd) (sizeBytes gs) (cut (descStackSize sd) nsp) (4 + count)) (sizeBytes gs)
      (newStackCpl s.cpl (descDpl cd)) = .error (.refuse .stackDependentOperand) := by
  obtain ⟨hp, ho⟩ : (s.params.stackOperand == .readFirst) = false ∧ _ := by
    simpa only [newStackOverlapAllowed, Bool.or_eq_false_iff, Bool.not_eq_false'] using h
  refine guardOverlap_refused ?_ ho
  cases hs : s.params.stackOperand with
  | refuse => rfl
  | readFirst => simp [hs] at hp

end overlap

section checked
variable {s : State} {c : FarCtx} {g cd sd : Desc} {csel nss : Half} {tsp nsp : Word} {gs : Size} {n : Nat}
  (ht : tssStack s (descDpl cd).toNat = .ok (nss, tsp)) (hn : names s nss sd) (hr : selRpl nss = descDpl cd)
  (hd : stackDescOk cd sd = true) (hp : newStackPointer s tsp sd = .ok (s.withDraws n, nsp))
  (hs : gateSize s c.sz g = .ok gs)
include ht hn hr hd hp hs

theorem callGateMore_noRoom (hm : newStackRoom gs (gateCount g) nss sd nsp = false) :
    callGateMore s c g csel cd = .error (.fault (.ss 0)) := by
  simp only [callGateMore_stack ht hn hr hd, hp, hs, hm, require_false, ok_bind, error_bind]

theorem callGateMore_beyond (hm : newStackRoom gs (gateCount g) nss sd nsp = true)
    (hl : (descLimit cd).toNat < (gateEntry gs g).toNat) :
    callGateMore s c g csel cd = .error (.fault (.gp 0)) := by
  simp only [callGateMore_stack ht hn hr hd, hp, hs, hm, decide_eq_false (Nat.not_le.2 hl), require_true, require_false,
    ok_bind, error_bind]

/-- A call to more privilege from its parameters on: M9 and the commit (R160, R161). -/
theorem callGateMore_params (hm : newStackRoom gs (gateCount g) nss sd nsp = true)
    (hl : (gateEntry gs g).toNat ≤ (descLimit cd).toNat) :
    callGateMore s c g csel cd = (do
      let params ← readParams (s.withDraws n) gs 0 (gateCount g)
      guardOverlap (s.withDraws n) c.opnd (descBase sd)
        (pushSlots (descStackSize sd) (sizeBytes gs) (cut (descStackSize sd) nsp) (4 + gateCount g)) (sizeBytes gs)
        (newStackCpl s.cpl (descDpl cd))
      morePrivilegeCommit (s.withDraws n) c gs nss sd nsp csel cd params (gateEntry gs g)) := by
  simp only [callGateMore_stack ht hn hr hd, hp, hs, hm, decide_eq_true hl, require_true, ok_bind]

theorem callGateMore_overlaps {params : List Word} (hm : newStackRoom gs (gateCount g) nss sd nsp = true)
    (hl : (gateEntry gs g).toNat ≤ (descLimit cd).toNat)
    (hps : readParams (s.withDraws n) gs 0 (gateCount g) = .ok params)
    (ho : newStackOverlapAllowed (s.withDraws n) c.opnd gs (gateCount g) cd sd nsp = false) :
    callGateMore s c g csel cd = .error (.refuse .stackDependentOperand) := by
  have hg := guardOverlap_newStack_refused ho
  rw [withDraws_cpl] at hg
  rw [callGateMore_params ht hn hr hd hp hs hm hl, hps, ok_bind, hg, error_bind]

theorem callGateMore_commit {params : List Word} (hm : newStackRoom gs (gateCount g) nss sd nsp = true)
    (hl : (gateEntry gs g).toNat ≤ (descLimit cd).toNat)
    (hps : readParams (s.withDraws n) gs 0 (gateCount g) = .ok params)
    (ho : newStackOverlapAllowed (s.withDraws n) c.opnd gs (gateCount g) cd sd nsp = true) :
    callGateMore s c g csel cd = morePrivilegeCommit (s.withDraws n) c gs nss sd nsp csel cd params (gateEntry gs g) := by
  have hg := guardOverlap_newStack_allowed ho
  rw [withDraws_cpl] at hg
  rw [callGateMore_params ht hn hr hd hp hs hm hl, hps, ok_bind, hg, ok_bind]

end checked

/-! ## The parameters (R160 M9, R161) -/

theorem noPage_withDraws (s : State) (n : Nat) : noPage (s.withDraws n) = noPage s := noPage_congr rfl

theorem paramReadable_withDraws (s : State) (n : Nat) (gs : Size) (k : Nat) :
    paramReadable (s.withDraws n) gs k = paramReadable s gs k := rfl

theorem paramTranslates_withDraws (s : State) (n : Nat) (gs : Size) (k : Nat) :
    paramTranslates (s.withDraws n) gs k = paramTranslates s gs k :=
  translates_congr (s := s) (t := s.withDraws n) rfl rfl ..

section params
variable {s : State} {gs : Size} {count k : Nat} (n : Nat) (hk : k < count)
  (hj : ∀ j, j < k → paramReadable s gs j = true ∧ paramTranslates s gs j = true)
include hk hj

theorem readParams_withDraws_unreadable (hm : s.mode = .prot) (hr : paramReadable s gs k = false) :
    readParams (s.withDraws n) gs 0 count = .error (.fault (.ss 0)) := by
  refine readParams_unreadable ((keepsSystem_withDraws s n).mode.trans hm) k count 0 hk (fun j h => ?_) ?_
  · rw [Nat.zero_add, paramReadable_withDraws, paramTranslates_withDraws]
    exact hj j h
  · rwa [Nat.zero_add, paramReadable_withDraws]

theorem readParams_withDraws_untranslated (hr : paramReadable s gs k = true) (ht : paramTranslates s gs k = false) :
    readParams (s.withDraws n) gs 0 count = .error (noPage s) := by
  refine (readParams_untranslated k count 0 hk (fun j h => ?_) ?_ ?_).trans (congrArg _ (noPage_withDraws s n))
  · rw [Nat.zero_add, paramReadable_withDraws, paramTranslates_withDraws]
    exact hj j h
  · rwa [Nat.zero_add, paramReadable_withDraws]
  · rwa [Nat.zero_add, paramTranslates_withDraws]

end params

/-! ## The obligations -/

/-- Settles O44, check by check; M2 and M3 raise the same exception, and so do M4 and M5. -/
theorem newStackChecks : Obligations.NewStackChecks := by
  intro s i next sz gsel off opnd g cd h hn hk ho hc hg hm
  have run : exec i s = toOutcome (callGateMore s ⟨sz, next, opnd⟩ g (gateSelector g) cd) := by
    rw [exec_gateOpen h hn hk ho hc hg, if_pos hm]
  simp only [run]
  refine ⟨fun hl => ?_, fun hl hu => ?_, fun nss tsp ht => ⟨fun hnull => ?_, fun hnull hx => ?_,
    fun hnull hin hrpl hu => ?_, fun sd hsd hrpl => ⟨fun hx => ?_, fun hdpl hw hp => ?_, fun hd => ⟨fun hkind hdb hp => ?_,
      fun s' nsp hnsp => ?_⟩⟩⟩⟩
  · simp only [callGateMore, tssStack_tooSmall hl, error_bind, toOutcome]
  · simp only [callGateMore, tssStack_untranslated hl hu, error_bind, toOutcome_noPage]
  · simp only [callGateMore, ht, hnull, Bool.not_true, require_false, ok_bind, error_bind, toOutcome]
  · have hfail : (selInTable s nss && selRpl nss == descDpl cd) = false := by
      rwa [Bool.and_eq_false_iff, beq_eq_false_iff_ne]
    simp only [callGateMore, require_require, ht, hnull, hfail, Bool.not_false, require_true, require_false, ok_bind,
      error_bind, toOutcome]
  · simp only [callGateMore, ht, hnull, hin, hrpl, beq_self_eq_true, readDescriptor_untranslated hu, Bool.not_false,
      require_true, ok_bind, error_bind, toOutcome_noPage]
  · obtain ⟨hnull, hin, hread⟩ := hsd
    have hfail : (descDpl sd == descDpl cd && (arData (descAr sd) && arWritable (descAr sd))) = false := by
      rwa [Bool.and_eq_false_iff, beq_eq_false_iff_ne]
    simp only [callGateMore, require_require, ht, hnull, hin, hrpl, beq_self_eq_true, hread, hfail, Bool.not_false,
      Bool.and_self, require_true, require_false, ok_bind, error_bind, toOutcome]
  · obtain ⟨hnull, hin, hread⟩ := hsd
    simp only [callGateMore, ht, hnull, hin, hrpl, beq_self_eq_true, hread, hdpl, hw, hp, Bool.not_false,
      require_true, require_false, ok_bind, error_bind, toOutcome]
  · simp only [callGateMore_stack ht hsd hrpl hd, newStackPointer_wide hkind hdb hp, error_bind, toOutcome]
  obtain ⟨n, rfl⟩ := exists_draws_of_newStackPointer hnsp
  refine ⟨fun hp hmix => ?_, fun gs hs => ⟨fun hr => ?_, fun hr hl => ?_, fun hr hl => ⟨fun k hk hj => ⟨fun hrd => ?_,
    fun hrd htr => ?_⟩, fun params hps => ⟨fun hov => ?_, fun hov hf => ?_⟩⟩⟩⟩
  · simp only [callGateMore_stack ht hsd hrpl hd, hnsp, gateSize_mixed hp hmix, ok_bind, error_bind, toOutcome]
  · rw [callGateMore_noRoom ht hsd hrpl hd hnsp hs hr, toOutcome]
  · rw [callGateMore_beyond ht hsd hrpl hd hnsp hs hr hl, toOutcome]
  · rw [callGateMore_params ht hsd hrpl hd hnsp hs hr hl, readParams_withDraws_unreadable n hk hj h.1 hrd, error_bind,
      toOutcome]
  · rw [callGateMore_params ht hsd hrpl hd hnsp hs hr hl, readParams_withDraws_untranslated n hk hj hrd htr, error_bind,
      toOutcome_noPage]
  · rw [callGateMore_overlaps ht hsd hrpl hd hnsp hs hr hl hps hov, toOutcome]
  · rw [callGateMore_commit ht hsd hrpl hd hnsp hs hr hl hps hov]
    have hmode : (s.withDraws n).mode = .prot := (keepsSystem_withDraws s n).mode.trans h.1
    rw [← length_readParams hps] at hr hf
    rw [morePrivilegeCommit_untranslated hmode hr hf, noPage_withDraws, toOutcome_noPage]

/-- Settles O45: M1 to M9 hold, so the commit of R161 is reached, and its writes fit. -/
theorem morePrivilegeGateCompletes : Obligations.MorePrivilegeGateCompletes := by
  intro s s' i next sz gs gsel nss off tsp nsp opnd g cd sd params h hn hk ho hc hg hm ht hsd hrpl hd hnsp hs hr hl hps
    hov hf
  obtain ⟨n, rfl⟩ := exists_draws_of_newStackPointer hnsp
  rw [← length_readParams hps] at hf
  rw [exec_gateOpen h hn hk ho hc hg, if_pos hm, toOutcome_next,
    callGateMore_commit (c := ⟨sz, next, opnd⟩) ht hsd hrpl hd hnsp hs hr hl hps hov]
  exact morePrivilegeCommit_eq_ok.2 ⟨hf, rfl⟩

/-- Settles O49, from the frame of the state that a call to more privilege leaves. -/
theorem morePrivilegeGateFrame : Obligations.MorePrivilegeGateFrame := by
  intro s s' t i next sz gs gsel nss off tsp nsp opnd g cd sd h hn hk hc hm ht hsd hnsp hs hw hnext
  obtain ⟨-, -, hsd⟩ := hsd
  have keeps := keepsSystem_exec hnext
  obtain ⟨nss', tsp', sd', s1, nsp', gs', params, ht', -, -, -, hsd', -, -, -, hnsp', hs', -, hps, rfl⟩ :=
    callGateMore_ok (callGateMore_of_exec_next h hn hk hc hnext hm)
  cases ht'.symm.trans ht
  cases hsd'.symm.trans hsd
  cases hnsp'.symm.trans hnsp
  cases hs'.symm.trans hs
  obtain ⟨n, rfl⟩ := exists_draws_of_newStackPointer hnsp
  have hmode : (s.withDraws n).mode = .prot := (keepsSystem_withDraws s n).mode.trans h.1
  obtain ⟨-, -, -, hhigh, hmem⟩ := morePrivilegeState_frame (s := s.withDraws n) hmode hw (gs := gs) (next := next)
    (nsp := nsp) (entry := gateEntry gs g) (nss := nss) (csel := gateSelector g) (sd := sd) (cd := cd) (params := params)
  simp only [length_readParams hps, physAddrs_withDraws] at hmem
  exact ⟨keeps.system, keeps.regs, keeps.dataSegs, hhigh, hmem⟩

end Sys2Proof.Machine
end

section
/-! What the state after a call to more privilege holds (R161): registers and segments, and with paging off the slots of
the new stack from the stack pointer up; the parameters and the stack pointers that go into it. -/

namespace Sys2Proof.Machine

/-! ## The stack pointers (R56, R161) -/

theorem newStackPointer_same {s : State} {tsp : Word} {sd : Desc}
    (h : ¬ (s.tr.kind = .tss286 ∧ descDb sd = true)) : newStackPointer s tsp sd = .ok (s, tsp) := by
  simp only [newStackPointer, h, if_false]

theorem newStackPointer_freeHigh {s : State} {tsp : Word} {sd : Desc} (hk : s.tr.kind = .tss286)
    (hd : descDb sd = true) (hp : s.params.tss286Wide = .freeHigh) :
    newStackPointer s tsp sd = .ok (s.withDraws (s.draws + 1), Config.espHigh s.draws ++ low16 tsp) := by
  simp only [newStackPointer, hk, hd, and_self, if_true, hp]

section oldStackPointer
variable {s : State} {gs : Size}

theorem oldStackPointer_same (h : ¬ (s.stackSize = .w16 ∧ gs = .w32)) : oldStackPointer s gs = (s, s.sp) := by
  simp only [oldStackPointer, h, if_false]

theorem oldStackPointer_freeHigh (hs : s.stackSize = .w16) (hg : gs = .w32) :
    oldStackPointer s gs = (s.withDraws (s.draws + 1), Config.oldSpHigh s.draws ++ low16 s.regs.esp) := by
  simp only [oldStackPointer, hs, hg, and_self, if_true]

/-- Cut to the size of the call, SP and ESP are cut from ESP, unless SP is pushed as 32 bits. -/
theorem cut_sp (h : ¬ (s.stackSize = .w16 ∧ gs = .w32)) : cut gs s.sp = cut gs s.regs.esp := by
  rw [State.sp, stackPointer]
  cases hs : s.stackSize with
  | w32 => rfl
  | w16 =>
    cases gs with
    | w16 => exact cut_cut ..
    | w32 => exact absurd ⟨hs, rfl⟩ h

theorem low16_cut (sz : Size) (w : Word) : low16 (cut sz w) = low16 w := by
  cases sz with
  | w16 => exact low16_zext32 _
  | w32 => rfl

/-- Whatever its upper half, the old stack pointer pushed has SP as its lower half. -/
theorem low16_oldStackPointer : low16 (oldStackPointer s gs).2 = low16 s.regs.esp := by
  by_cases h : s.stackSize = .w16 ∧ gs = .w32
  · rw [oldStackPointer_freeHigh h.1 h.2]
    exact low16_append ..
  · rw [oldStackPointer_same h]
    exact low16_cut ..

end oldStackPointer

/-! ## The parameters (R161) -/

/-- The offset of a parameter by its bits: it wraps in the old stack's address size (log 28). -/
theorem paramOffset_eq (s : State) (gs : Size) (k : Nat) : paramOffset s gs k =
    if s.stackSize = .w32 then s.regs.esp + BitVec.ofNat 32 (k * sizeBytes gs)
    else 0#16 ++ (s.regs.esp.extractLsb' 0 16 + BitVec.ofNat 16 (k * sizeBytes gs)) := by
  rw [paramOffset, State.sp, stackPointer, cut_add, cut_eq_ite]
  refine ite_congr rfl (fun _ => rfl) fun _ => congrArg _ ?_
  exact (low16_add ..).trans (congrArg _ (low16_ofNat _))

/-- The parameters are the values at their offsets on the old stack. -/
theorem readParams_iff {s : State} {gs : Size} {n : Nat} {params : List Word} :
    readParams s gs 0 n = .ok params ↔ params.length = n ∧ ∀ k v, params[k]? = some v →
      readable s.mode s.segs.ss (paramOffset s gs k) (sizeBytes gs) = true ∧ cut gs v = v ∧
      readWord s s.cpl (s.segs.ss.base + paramOffset s gs k) (sizeBytes gs) = .ok v := by
  simp only [readParams_eq_ok, segRead_eq_ok, Nat.zero_add]
  refine and_congr_right fun _ => forall_congr' fun k => forall_congr' fun v => imp_congr_right fun _ => ?_
  exact ⟨fun ⟨hr, hv⟩ => ⟨hr, cut_readWord hv, hv⟩, fun ⟨hr, _, hv⟩ => ⟨hr, hv⟩⟩

/-! ## The pushes on the new stack (R161) -/

section pushes
variable {s : State} {d : Nat} {gs : Size} {osp next : Word} {params : List Word}

theorem length_morePrivilegePushes : (morePrivilegePushes s d gs osp params next).length = 4 + params.length := by
  simp only [morePrivilegePushes, List.length_append, List.length_cons, List.length_nil, List.length_map,
    List.length_reverse]
  omega

theorem length_of_mem_morePrivilegePushes :
    ∀ x ∈ morePrivilegePushes s d gs osp params next, x.length = sizeBytes gs := by
  simp only [morePrivilegePushes, List.mem_append, List.mem_cons, List.mem_map, List.not_mem_nil, or_false]
  rintro x (((rfl | rfl) | ⟨v, -, rfl⟩) | rfl | rfl) <;> simp

theorem morePrivilegePushes_oldSs :
    (morePrivilegePushes s d gs osp params next)[0]? = some (selectorBytes d gs s.segs.ss.sel) := rfl

theorem morePrivilegePushes_oldSp :
    (morePrivilegePushes s d gs osp params next)[1]? = some (bytesOf gs osp) := rfl

/-- The parameters are pushed from the last to the first. -/
theorem morePrivilegePushes_param {k : Nat} {v : Word} (h : params[k]? = some v) :
    (morePrivilegePushes s d gs osp params next)[1 + params.length - k]? = some (bytesOf gs v) := by
  obtain ⟨hk, -⟩ := List.getElem?_eq_some_iff.1 h
  have hi : 1 + params.length - k = params.length - 1 - k + 2 := by omega
  have hr : params.reverse[params.length - 1 - k]? = some v := by
    rw [List.getElem?_reverse (by omega), ← h]
    congr 1
    omega
  rw [hi]
  show (params.reverse.map (bytesOf gs) ++ _)[params.length - 1 - k]? = _
  rw [List.getElem?_append_left (by simp; omega), List.getElem?_map, hr, Option.map_some]

/-- The last two pushes come after two others and the parameters. -/
theorem morePrivilegePushes_last (i : Nat) : (morePrivilegePushes s d gs osp params next)[2 + params.length + i]? =
    [selectorBytes (d + selectorDraws gs) gs s.segs.cs.sel, bytesOf gs next][i]? := by
  have hlen : 2 + params.length =
      ([selectorBytes d gs s.segs.ss.sel, bytesOf gs osp] ++ params.reverse.map (bytesOf gs)).length := by
    simp only [List.length_append, List.length_cons, List.length_nil, List.length_map, List.length_reverse]
  rw [morePrivilegePushes, hlen, List.getElem?_append_right (Nat.le_add_right ..), Nat.add_sub_cancel_left]

theorem morePrivilegePushes_oldCs : (morePrivilegePushes s d gs osp params next)[2 + params.length]? =
    some (selectorBytes (d + selectorDraws gs) gs s.segs.cs.sel) :=
  morePrivilegePushes_last 0

theorem morePrivilegePushes_next :
    (morePrivilegePushes s d gs osp params next)[3 + params.length]? = some (bytesOf gs next) := by
  rw [Nat.add_right_comm 2 1]
  exact morePrivilegePushes_last 1

end pushes

/-! ## The new stack -/

/-- The size of the new stack cuts an offset (R56). -/
theorem cut_descStackSize (sd : Desc) (w : Word) :
    cut (descStackSize sd) w = if descDb sd then w else 0#16 ++ w.extractLsb' 0 16 := by
  rw [cut_eq_ite, descStackSize]
  cases descDb sd <;> rfl

theorem wf_oldStackPointer {s : State} {gs : Size} (hw : Memory.wf s.mem = true) :
    Memory.wf (oldStackPointer s gs).1.mem = true := by
  rw [oldStackPointer_frame]
  exact hw

theorem wf_switchedState {s : State} {nss csel : Half} {sd cd : Desc} {nsp : Word} (hw : Memory.wf s.mem = true) :
    Memory.wf (switchedState s nss sd nsp csel cd).mem = true :=
  wf_accessedState (s := loadCs (accessedState (loadSs s nss sd nsp) nss sd) csel cd (descDpl cd))
    (wf_accessedState (s := loadSs s nss sd nsp) hw)

/-- The state once everything is pushed on the new stack, before CPL and EIP are loaded (R161). -/
def newStackPushed (s : State) (gs : Size) (next nsp : Word) (nss csel : Half) (sd cd : Desc) (params : List Word) :
    State :=
  pushedStates (switchedState (oldStackPointer s gs).1 nss sd nsp csel cd) (newStackCpl s.cpl (descDpl cd))
    (morePrivilegePushes s (oldStackPointer s gs).1.draws gs (oldStackPointer s gs).2 params next)

theorem sp_withDraws_withCpl_withEip (t : State) (n : Nat) (c : BitVec 2) (v : Word) :
    (((t.withDraws n).withCpl c).withEip v).sp = t.sp := rfl

section newStack
variable {s : State} {gs : Size} {next nsp entry : Word} {nss csel : Half} {sd cd : Desc} {params : List Word}

theorem morePrivilegeState_eq : morePrivilegeState s gs next nss sd nsp csel cd params entry =
    (((newStackPushed s gs next nsp nss csel sd cd params).withDraws
      ((oldStackPointer s gs).1.draws + 2 * selectorDraws gs)).withCpl (descDpl cd)).withEip entry := rfl

theorem mem_morePrivilegeState : (morePrivilegeState s gs next nss sd nsp csel cd params entry).mem =
    (newStackPushed s gs next nsp nss csel sd cd params).mem := by
  rw [morePrivilegeState_eq, withEip_mem, withCpl_mem, withDraws_mem]

variable (hm : s.mode = .prot)
include hm

theorem sp_newStackPushed : (newStackPushed s gs next nsp nss csel sd cd params).sp =
    cut (descStackSize sd) (nsp - BitVec.ofNat 32 ((4 + params.length) * sizeBytes gs)) := by
  obtain ⟨hsz, hsp, -, -⟩ := switchedState_stack ((keepsSystem_oldStackPointer s gs).mode.trans hm) nss sd nsp csel cd
  rw [newStackPushed, sp_pushedStates _ (sizeBytes gs) _ nsp length_of_mem_morePrivilegePushes (by rw [hsp, hsz]), hsz,
    length_morePrivilegePushes]

/-- The stack pointer is `4 + count` slots below the TSS's. -/
theorem sp_morePrivilegeState : (morePrivilegeState s gs next nss sd nsp csel cd params entry).sp =
    cut (descStackSize sd) (nsp - BitVec.ofNat 32 ((4 + params.length) * sizeBytes gs)) := by
  rw [morePrivilegeState_eq, sp_withDraws_withCpl_withEip, sp_newStackPushed hm]

/-- Slot `j`, counted from the stack pointer up, is where push `i`, counted from the top down, went. -/
theorem morePrivilegeState_slot {i j : Nat} (hij : j + i = 3 + params.length) :
    cut (descStackSize sd) ((morePrivilegeState s gs next nss sd nsp csel cd params entry).sp +
      BitVec.ofNat 32 (j * sizeBytes gs)) = cut (descStackSize sd) (nsp - BitVec.ofNat 32 ((i + 1) * sizeBytes gs)) := by
  have hn : (4 + params.length) * sizeBytes gs = (i + 1) * sizeBytes gs + j * sizeBytes gs := by
    rw [← Nat.add_mul]
    congr 1
    omega
  rw [sp_morePrivilegeState hm, cut_add, hn, BitVec.ofNat_add]
  congr 1
  bv_omega

/-- Byte `k` of a slot is that of the push that went there. -/
theorem memRead_morePrivilegeState_slot (hp : s.paging = false) (hw : Memory.wf s.mem = true) (hl : params.length ≤ 31)
    {i j k : Nat} {x : List Byte} {b : Byte} (hij : j + i = 3 + params.length)
    (hi : (morePrivilegePushes s (oldStackPointer s gs).1.draws gs (oldStackPointer s gs).2 params next)[i]? = some x)
    (hk : x[k]? = some b) :
    let t := morePrivilegeState s gs next nss sd nsp csel cd params entry
    memRead t.mem (descBase sd + cut (descStackSize sd) (t.sp + BitVec.ofNat 32 (j * sizeBytes gs)) +
      BitVec.ofNat 32 k).toNat = b := by
  intro t
  have hsys := (keepsSystem_oldStackPointer s gs).trans
    (keepsSystem_switchedState (oldStackPointer s gs).1 nss sd nsp csel cd)
  obtain ⟨-, h0, -⟩ := hsys.system
  obtain ⟨hsz, hsp, hss, -⟩ := switchedState_stack ((keepsSystem_oldStackPointer s gs).mode.trans hm) nss sd nsp csel cd
  have hbytes : (4 + params.length) * sizeBytes gs ≤ 65536 := by cases gs <;> simp only [sizeBytes] <;> omega
  have hread := memRead_pushedStates_slot (cpl := newStackCpl s.cpl (descDpl cd)) _ ((paging_congr h0).trans hp)
    (wf_switchedState (wf_oldStackPointer hw)) length_of_mem_morePrivilegePushes
    (by rwa [length_morePrivilegePushes]) (by rw [hsp, hsz]) hi hk
  rw [hss, hsz] at hread
  rw [morePrivilegeState_slot hm hij, mem_morePrivilegeState]
  exact hread

section read
variable (hp : s.paging = false) (hw : Memory.wf s.mem = true) (hl : params.length ≤ 31) {c : BitVec 2} {i j : Nat}
  (hij : j + i = 3 + params.length)
include hp hw hl hij

/-- The slot of a pushed value reads as the value, cut to the size of the call. -/
theorem readWord_morePrivilegeState_value {v : Word}
    (hi : (morePrivilegePushes s (oldStackPointer s gs).1.draws gs (oldStackPointer s gs).2 params next)[i]? =
      some (bytesOf gs v)) :
    let t := morePrivilegeState s gs next nss sd nsp csel cd params entry
    readWord t c (descBase sd + cut (descStackSize sd) (t.sp + BitVec.ofNat 32 (j * sizeBytes gs))) (sizeBytes gs) =
      .ok (cut gs v) :=
  readWord_bytesOf ((paging_congr (keepsSystem_morePrivilegeState ..).system.2.1).trans hp)
    fun _ _ hk => memRead_morePrivilegeState_slot hm hp hw hl hij hi hk

/-- The low two bytes of the slot of a pushed selector read as the selector. -/
theorem readWord_morePrivilegeState_selector {d : Nat} {sel : Half}
    (hi : (morePrivilegePushes s (oldStackPointer s gs).1.draws gs (oldStackPointer s gs).2 params next)[i]? =
      some (selectorBytes d gs sel)) :
    let t := morePrivilegeState s gs next nss sd nsp csel cd params entry
    readWord t c (descBase sd + cut (descStackSize sd) (t.sp + BitVec.ofNat 32 (j * sizeBytes gs))) 2 =
      .ok (zext32 sel) :=
  readWord_half ((paging_congr (keepsSystem_morePrivilegeState ..).system.2.1).trans hp)
    fun _ _ hk => memRead_morePrivilegeState_slot hm hp hw hl hij hi (selectorBytes_low hk)

end read

end newStack

/-! ## The obligation -/

/-- Settles O46: the fields of the state, then each slot as the push that went there; the parameters and the stack
pointers by their definitions. -/
theorem morePrivilegeStateFields : Obligations.MorePrivilegeStateFields := by
  refine ⟨fun s gs next nsp entry nss csel sd cd params hm => ?_, fun s gs n => ⟨fun params => ?_, fun h => ?_⟩,
    fun s tsp sd => ⟨newStackPointer_same, fun hk hd => ⟨fun hp => newStackPointer_wide hk hd hp,
      fun hp => ⟨_, newStackPointer_freeHigh hk hd hp⟩⟩⟩,
    fun s gs => ⟨fun h => ?_, fun hs hg => ?_⟩⟩
  · intro t
    obtain ⟨hcpl, hss, hcs, heip⟩ := morePrivilegeState_fields s gs next nss sd nsp csel cd params entry
    have keeps : KeepsSystem s t := keepsSystem_morePrivilegeState ..
    have hrpl : selRpl t.segs.cs.sel = t.cpl := by
      rw [hcpl, hcs]
      exact selRpl_withRpl ..
    refine ⟨hcpl, heip, hss, hcs, hrpl, sp_morePrivilegeState hm, keeps.system, keeps.regs, keeps.dataSegs,
      fun hp hw hl => ?_⟩
    simp only [← cut_descStackSize]
    refine ⟨readWord_morePrivilegeState_value hm hp hw hl (Nat.zero_add _) morePrivilegePushes_next,
      readWord_morePrivilegeState_selector hm hp hw hl (by omega) morePrivilegePushes_oldCs, fun k v hv => ?_,
      ⟨_, readWord_morePrivilegeState_value hm hp hw hl (by omega) morePrivilegePushes_oldSp, ?_, fun hg => ?_,
        fun hg hs => ?_⟩,
      readWord_morePrivilegeState_selector hm hp hw hl (Nat.add_zero _) morePrivilegePushes_oldSs⟩
    · obtain ⟨hk, -⟩ := List.getElem?_eq_some_iff.1 hv
      exact readWord_morePrivilegeState_value hm hp hw hl (by omega) (morePrivilegePushes_param hv)
    · rw [low16_cut, low16_oldStackPointer]
    · rw [hg, cut, low16_oldStackPointer]
    · rw [oldStackPointer_same (by simp [hs]), cut_sp (by simp [hs]), hg, cut]
  · simp only [readParams_iff, paramOffset_eq]
  · exact readParams_ok fun i hi => by rw [Nat.zero_add]; exact h i hi
  · rw [oldStackPointer_same h]
    exact ⟨rfl, cut_sp h⟩
  · rw [oldStackPointer_freeHigh hs hg]
    exact ⟨rfl, _, rfl⟩

end Sys2Proof.Machine
end

section
/-! Privilege: no CALL moves to less of it, and only a far call through a call gate moves to more (R213); and the
error code with which a selector is reported (R207). -/

namespace Sys2Proof.Machine

/-! ## CPL -/

/-- A far call leaves CPL alone or, in Protected Mode, takes it through a call gate to the DPL of the gate's code
segment (R134, R155 to R162). -/
theorem farCall_cpl {s t : State} {c : FarCtx} {sel : Half} {off : Word} (h : farCall s c sel off = .ok t) :
    t.cpl = s.cpl ∨ s.mode = .prot ∧ ∃ g cd, gateToMore s sel g cd ∧ t.cpl = descDpl cd := by
  obtain ⟨-, sz, next, rfl⟩ | ⟨-, sz, next, csel, cd, target, rfl⟩ |
    ⟨hm, nss, tsp, sd, s', nsp, gs, next, csel, cd, params, entry, ⟨g, hg⟩, -, -, -, rfl⟩ := farCall_ok h
  · exact .inl rfl
  · obtain ⟨hc, -⟩ := sameStackState_fields s sz next csel cd target
    exact .inl hc
  · obtain ⟨hc, -⟩ := morePrivilegeState_fields s' gs next nss sd nsp csel cd params entry
    exact .inr ⟨hm, g, cd, hg, hc⟩

/-- A near call leaves CPL alone, so only a far call can change it (R117, R213). -/
theorem exec_cpl {i : Instr} {s t : State} (h : exec i s = .next t) :
    t.cpl = s.cpl ∨ isNear i = false ∧ ∃ next sz sel off opnd g cd,
      farInProt s i next sz sel off opnd ∧ gateToMore s sel g cd ∧ t.cpl = descDpl cd := by
  obtain ⟨-, sz, next, target, rfl⟩ | ⟨hi, next, sz, sel, off, opnd, hn, hf, h⟩ := exec_next h
  · exact .inl rfl
  · obtain hc | ⟨hm, g, cd, hg, hc⟩ := farCall_cpl h
    · exact .inl hc
    · exact .inr ⟨hi, next, sz, sel, off, opnd, g, cd, ⟨hm, hn, hf⟩, hg, hc⟩

/-- A call gate to more privilege names a code segment of a DPL not above CPL (R158 G7). -/
theorem dpl_ule_of_gateToMore {s : State} {sel : Half} {g cd : Desc} (h : gateToMore s sel g cd) :
    (descDpl cd).ule s.cpl = true := by
  obtain ⟨-, -, -, -, hcode, -⟩ := h
  rw [gateCodeOk, Bool.and_eq_true, Bool.and_eq_true] at hcode
  obtain ⟨⟨-, hle⟩, -⟩ := hcode
  exact hle

/-! ## The obligations -/

/-- Settles O55: CPL stays, or a call gate makes it the DPL of a code segment that G7 and the choice of its path keep
below CPL. -/
theorem noCallLosesPrivilege : Obligations.NoCallLosesPrivilege := by
  intro s t i h
  obtain hc | ⟨hi, next, sz, sel, off, opnd, g, cd, hf, hg, hc⟩ := exec_cpl h
  · exact ⟨BitVec.ule_iff_le.2 (hc ▸ BitVec.le_refl t.cpl), fun hne => absurd hc hne⟩
  · exact ⟨hc ▸ dpl_ule_of_gateToMore hg, fun _ => ⟨hf.1, hi, next, sz, sel, off, opnd, g, cd, hf, hg, hc⟩⟩

/-- Settles O52: the mask of R207 is all ones on bits 15:2 and zero on bits 1:0. -/
theorem errorCodeOfASelector : Obligations.ErrorCodeOfASelector := by
  intro sel
  have hhigh : (0xFFFC : Half).extractLsb' 2 14 = BitVec.allOnes 14 := by decide
  have hlow : (0xFFFC : Half).extractLsb' 0 2 = 0 := by decide
  rw [ec, BitVec.extractLsb'_and, BitVec.extractLsb'_and, hhigh, hlow]
  exact ⟨BitVec.and_allOnes, BitVec.and_zero⟩

end Sys2Proof.Machine
end
